-- ==== Sys2Proof/Word.lean ====
section
/-! DEFINITION. The bit-vector types the spec gives a fixed width, and the plainest exact arithmetic (R9, R10). -/

namespace Sys2Proof

/-- `CMD_OP`, four bits (R55). -/
abbrev Opcode := BitVec 4

/-- The `ERR` register, two bits (R32, R116). -/
abbrev ErrCode := BitVec 2

/-- The `ERR_CAUSE` register, three bits (R32, R117 to R119). -/
abbrev CauseCode := BitVec 3

/-- The two axes (R19). Neither is an agent of its own (R12). -/
inductive Axis where
  | x
  | y
  deriving DecidableEq, Repr

/-- The other axis. -/
def Axis.other : Axis → Axis
  | .x => .y
  | .y => .x

/-- A pair (dx, dy) of signed step counts or lengths; one unit of length is one step (R17). -/
abbrev Delta := Int × Int

end Sys2Proof
end

