-- ==== Sys2Proof/Config.lean ====
section
/-! DEFINITION. What is fixed at construction (R5, R6, R7, R35) and the one free value, the polar projection.
The defaults stand in Machine/Params.lean. -/

namespace Sys2Proof

/-- The four rows of one commutation table, phase 0 first; each row is one output word of `w` pins (R42, R69). -/
structure CommRows (w : Nat) where
  row0 : BitVec w
  row1 : BitVec w
  row2 : BitVec w
  row3 : BitVec w
  deriving DecidableEq, Repr

/-- One value of a `PROJECT` argument: what a radius and an angle (in angle units) project to. -/
structure ProjectionRow where
  radius : Int
  angle : Int
  delta : Delta
  deriving DecidableEq, Repr

/-- The parameter `PROJECT` of R7 and R104. -/
inductive Projection where
  /-- another `PROJECT` than the default: the values listed, and `Config.freeProject`'s where none is (log 8). Every
  function agrees with some list on the finitely many values a run reads; the empty list leaves all of them open. -/
  | given (rows : List ProjectionRow)
  /-- the default of R104: the real products, truncated toward zero -/
  | truncating
  deriving DecidableEq, Repr

/-- The construction-time configuration (R5) with the width and table parameters (R6, R7).
No transition changes it (R35). The step counts and the winding widths are kept as the caller gave them, so that
"zero or negative stepsPerRevolution" and "unsupported windingWidth" (R122) are values that can be refused. -/
structure Config where
  /-- `N_X` -/
  stepsX : Int
  /-- `N_Y` -/
  stepsY : Int
  /-- `W_X` -/
  windingX : Nat
  /-- `W_Y` -/
  windingY : Nat
  /-- `OPERAND_BITS` -/
  operandBits : Nat
  /-- `POS_BITS` -/
  posBits : Nat
  /-- `TIME_BITS` -/
  timeBits : Nat
  /-- `ANGLE_FRAC_BITS` -/
  angleFracBits : Nat
  /-- `COMM_TABLE(2, p)` -/
  comm2 : CommRows 2
  /-- `COMM_TABLE(4, p)` -/
  comm4 : CommRows 4
  /-- `PROJECT` -/
  projection : Projection
  deriving DecidableEq, Repr

/-- FREE VALUE. The projection of a radius and an angle (in angle units) where the configuration leaves `PROJECT`
open (R104, D22, log 8). It has no body and no law: a claim about it holds for every projection. -/
opaque Config.freeProject : Int → Int → Delta

/-- `DELAY_NUMERATOR`: milliseconds per minute (R8). -/
def delayNumerator : Nat := 60000

end Sys2Proof
end

