-- ==== Sys2Proof/Syntax.lean ====
section
/-! DEFINITION. The commands: one constructor for each of the sixteen rows of spec/opcode_table.json (R58), their
operands already read as signed integers (R56), angles as counts of angle units (R57); and a command as it stands
on the port (R38, R55). -/

namespace Sys2Proof

/-- The command set ARDU-CORE v1 (R58, R59). A port the command ignores (R60) is no field. -/
inductive Instr where
  /-- 0x1 `INIT maxSpeed` (R97) -/
  | init (maxSpeed : Int)
  /-- 0x2 `MOVE_X length` (R98) -/
  | moveX (length : Int)
  /-- 0x3 `MOVE_Y length` (R99) -/
  | moveY (length : Int)
  /-- 0x4 `LINEAR_TO x1, y1, x2, y2` (R100) -/
  | linearTo (x1 y1 x2 y2 : Int)
  /-- 0x5 `POLAR_TO radius, theta` (R105) -/
  | polarTo (radius theta : Int)
  /-- 0x6 `CIRCULAR_ARC radius, startAngle, endAngle, inc` (R106) -/
  | circularArc (radius startAngle endAngle inc : Int)
  /-- 0x7 `READ_POS` (R111) -/
  | readPos
  /-- 0x8 `SET_SPEED sel, rpm` (R75); `sel` is the axis select as read, legal or not (R62) -/
  | setSpeed (sel rpm : Int)
  /-- 0x9 `RUN_MOVE ySteps, xSteps`, Y first (R85, R59) -/
  | runMove (ySteps xSteps : Int)
  /-- 0x0, reserved (R61) -/
  | reserved0
  /-- 0xA, reserved (R61) -/
  | reservedA
  /-- 0xB, reserved (R61) -/
  | reservedB
  /-- 0xC, reserved (R61) -/
  | reservedC
  /-- 0xD, reserved (R61) -/
  | reservedD
  /-- 0xE, reserved (R61) -/
  | reservedE
  /-- 0xF, reserved (R61) -/
  | reservedF
  deriving DecidableEq, Repr

/-- A command as the host drives it on the port while `CMD_VALID = 1`: `CMD_OP` and the bit patterns of `A0` to
`A3`, each read modulo 2^OPERAND_BITS (R38, R55). The patterns are numbers because OPERAND_BITS is a parameter (log 4). -/
structure Command where
  op : Opcode
  a0 : Nat
  a1 : Nat
  a2 : Nat
  a3 : Nat
  deriving DecidableEq, Repr

end Sys2Proof
end

