-- ==== Sys2Proof/WellFormed.lean ====
section
/-! DEFINITION. The decidable checks: of an operand's range (R56), of a command on the port (R55), of a
construction-time configuration (R122). -/

namespace Sys2Proof

/-- `v` lies in the signed range of an `n`-bit operand port, [−2^(n−1), 2^(n−1) − 1] (R56); for n = 0 only 0 does. -/
def operandFits (n : Nat) (v : Int) : Bool :=
  decide (-(2 ^ n : Int) ≤ 2 * v ∧ 2 * v < (2 ^ n : Int))

/-- Every operand of the instruction fits an `n`-bit port. -/
def Instr.wf (n : Nat) : Instr → Bool
  | .init m => operandFits n m
  | .moveX l => operandFits n l
  | .moveY l => operandFits n l
  | .linearTo x1 y1 x2 y2 => operandFits n x1 && operandFits n y1 && operandFits n x2 && operandFits n y2
  | .polarTo r v => operandFits n r && operandFits n v
  | .circularArc r s e inc => operandFits n r && operandFits n s && operandFits n e && operandFits n inc
  | .readPos => true
  | .setSpeed sel rpm => operandFits n sel && operandFits n rpm
  | .runMove ys xs => operandFits n ys && operandFits n xs
  | .reserved0 => true
  | .reservedA => true
  | .reservedB => true
  | .reservedC => true
  | .reservedD => true
  | .reservedE => true
  | .reservedF => true

/-- Each operand pattern of the command is an `n`-bit word (R55). -/
def Command.wf (n : Nat) (c : Command) : Bool :=
  decide (c.a0 < 2 ^ n ∧ c.a1 < 2 ^ n ∧ c.a2 < 2 ^ n ∧ c.a3 < 2 ^ n)

/-- Why construction is refused (R122). These are never values of `ERR_CAUSE`. -/
inductive ConfigError where
  /-- "zero or negative stepsPerRevolution" -/
  | stepsPerRevInvalid
  /-- "unsupported windingWidth" -/
  | windingUnsupported
  deriving DecidableEq, Repr

/-- A stepsPerRevolution is a positive integer (R5). -/
def stepsOk (n : Int) : Bool := decide (1 ≤ n)

/-- A windingWidth is 2 or 4 (R5). -/
def windingOk (w : Nat) : Bool := w == 2 || w == 4

/-- The construction-time check (R122): `none` where a machine exists. Where both causes apply the step counts are
named first: DESIGN CHOICE, the spec gives no order (log 7). -/
def Config.check (c : Config) : Option ConfigError :=
  if (stepsOk c.stepsX && stepsOk c.stepsY) = false then some .stepsPerRevInvalid
  else if (windingOk c.windingX && windingOk c.windingY) = false then some .windingUnsupported
  else none

end Sys2Proof
end

