-- ==== Sys2Proof/Machine/Params.lean ====
section
/-! DEFINITION. The default configuration and the readers of a configuration's per-axis constants (R5, R6, R69). -/

namespace Sys2Proof.Machine

/-- The default 2-wire table of R69; bit i is pin i+1 (R70). PRESUMED by the spec: "from general knowledge, not in
source" (log 9). -/
def defaultComm2 : CommRows 2 where
  row0 := 0b10#2
  row1 := 0b11#2
  row2 := 0b01#2
  row3 := 0b00#2

/-- The default 4-wire table of R69 (log 9). -/
def defaultComm4 : CommRows 4 where
  row0 := 0b0101#4
  row1 := 0b0110#4
  row2 := 0b1010#4
  row3 := 0b1001#4

/-- The defaults of R6, R69 and R104, with the step counts and windings the spec's examples use (log 5). -/
def defaultConfig : Config where
  stepsX := 200
  stepsY := 200
  windingX := 4
  windingY := 2
  operandBits := 32
  posBits := 32
  timeBits := 32
  angleFracBits := 16
  comm2 := defaultComm2
  comm4 := defaultComm4
  projection := .truncating

/-- A winding topology (R69, R73): the variant chosen once, at construction. -/
inductive Winding where
  | twoWire
  | fourWire
  deriving DecidableEq, Repr

/-- `N_a` (R5). -/
def stepsPerRev (c : Config) : Axis → Nat
  | .x => c.stepsX.toNat
  | .y => c.stepsY.toNat

/-- `W_a` as the caller gave it (R5). -/
def windingWidth (c : Config) : Axis → Nat
  | .x => c.windingX
  | .y => c.windingY

/-- The table variant of an axis (R73); a configuration with another width has no machine (R122). -/
def winding (c : Config) (a : Axis) : Winding :=
  if windingWidth c a = 2 then .twoWire else .fourWire

end Sys2Proof.Machine
end

