-- ==== Sys2Proof/Machine/State.lean ====
section
/-! DEFINITION. The state (10_state.md), the faults and refusals, and the state construction and reset leave. -/

namespace Sys2Proof.Machine

/-- `DIR[a]` (R21). -/
inductive Dir where
  /-- reverse, 0 -/
  | rev
  /-- forward, 1 -/
  | fwd
  deriving DecidableEq, Repr

/-- `MODE` (R26). -/
inductive Mode where
  /-- 0: a command will be accepted -/
  | idle
  /-- 1: a move is running -/
  | run
  deriving DecidableEq, Repr

/-- A word of output levels, `Bits(W_a)`; bit i is the level of pin i+1, 1 = high (R24, R70). -/
inductive PinWord where
  | two (levels : BitVec 2)
  | four (levels : BitVec 4)
  deriving DecidableEq, Repr

/-- The registers of one axis (R19 to R25). -/
structure AxisRegs where
  /-- `STEP_INDEX[a]` (R20) -/
  stepIndex : Nat
  /-- `DIR[a]` (R21) -/
  dir : Dir
  /-- `STEP_DELAY[a]` (R22) -/
  stepDelay : Option Nat
  /-- `LAST_STEP_TIME[a]` (R23), a number below 2^TIME_BITS (log 4) -/
  lastStepTime : Nat
  /-- `OUT[a]` (R24) -/
  out : Option PinWord
  /-- `LEFT[a]` (R25) -/
  left : Nat
  deriving DecidableEq, Repr

/-- The arc sequencer registers (R30). -/
structure ArcRegs where
  /-- `ARC_ACTIVE` -/
  active : Bool
  /-- `ARC_R` -/
  radius : Int
  /-- `ARC_S` -/
  startAngle : Int
  /-- `ARC_E` -/
  endAngle : Int
  /-- `ARC_INC` -/
  inc : Int
  /-- `ARC_K` -/
  k : Nat
  /-- `ARC_KMAX` -/
  kmax : Nat
  deriving DecidableEq, Repr

/-- One event of the observation trace (R14, R37). -/
inductive TraceEvent where
  /-- `Emit(a, v, now)`: `now` is the clock value the block saw, modulo 2^TIME_BITS (R11, R89; log 12) -/
  | emit (a : Axis) (v : PinWord) (now : Nat)
  /-- the Reset transition (R134) -/
  | reset
  deriving DecidableEq, Repr

/-- One action of the environment (R12, R13, R38). No constructor carries a motor's real position (R16). -/
inductive Input where
  /-- the host drives this command on the port, in place of any other (`CMD_VALID = 1`; R38, R93) -/
  | present (c : Command)
  /-- the host withdraws the command it presents (`CMD_VALID = 0`; R93) -/
  | withdraw
  /-- the `POLL` strobe, with the unwrapped clock value (R13, R31) -/
  | poll (t : Nat)
  /-- the `RESET` input is asserted (R13, R134) -/
  | reset
  deriving DecidableEq, Repr

/-- Everything the spec gives the machine (10_state.md), the configuration it was constructed with, and the
environment's side of the ports. -/
structure State where
  /-- the configuration: no state by R35, carried here as a constant (log 1) -/
  cfg : Config
  /-- the registers of axis X -/
  x : AxisRegs
  /-- the registers of axis Y -/
  y : AxisRegs
  /-- `MODE` (R26) -/
  mode : Mode
  /-- `MAX_SPEED` (R27) -/
  maxSpeed : Option Nat
  /-- `POS_X` (R28) -/
  posX : Int
  /-- `POS_Y` (R28) -/
  posY : Int
  /-- `PEND_DX` (R29) -/
  pendX : Int
  /-- `PEND_DY` (R29) -/
  pendY : Int
  /-- the arc sequencer (R30) -/
  arc : ArcRegs
  /-- `ERR` (R32, R116) -/
  err : ErrCode
  /-- `ERR_CAUSE` (R32, R117 to R119) -/
  errCause : CauseCode
  /-- `RES_X` (R33) -/
  resX : Int
  /-- `RES_Y` (R33) -/
  resY : Int
  /-- `CLOCK_SEEN`, model-only (R37) -/
  clockSeen : Option Nat
  /-- `TRACE`, model-only, oldest event first (R14, R37) -/
  trace : List TraceEvent
  /-- the command on the port while `CMD_VALID = 1` (R38); the host's, so no transition but Accept takes it (log 2) -/
  port : Option Command
  /-- what the environment does next, first action first (log 2) -/
  inputs : List Input
  deriving DecidableEq, Repr

/-- Why a run is no valid run of the machine. -/
inductive Fault where
  /-- Raised by a Poll whose clock value is lower than one already supplied: `ClockNotMonotonic` (R140). Safe: the
  spec makes it a model fault, and the chip goes on. -/
  | clockNotMonotonic
  /-- Raised by a Poll that probes an axis with steps left and no step delay: "never none here" (R78). Safe: no
  reachable state raises it (R34 item 6; log 6). -/
  | stepDelayUnset
  /-- Raised where an arc's segment is started and fails the plan check: "cannot fail" (R110). Safe: no reachable
  state raises it (R109; log 6). -/
  | arcSegmentUnplanned
  deriving DecidableEq, Repr

/-- Why there is no step. -/
inductive Refusal where
  /-- Raised by an arm of exec without a meaning. Safe. -/
  | notModelled (mnemonic : String)
  /-- STEPS_PER_REV_INVALID: the configuration has no machine (R122). Raised by every step. Safe. -/
  | stepsPerRevInvalid
  /-- WINDING_UNSUPPORTED: the configuration has no machine (R122). Raised by every step. Safe. -/
  | windingUnsupported
  deriving DecidableEq, Repr

/-- The outcome of a step or of a command. -/
abbrev Result := Host.Outcome State Fault Refusal

/-- An axis at reset (R20 to R25, R40). -/
def AxisRegs.initial : AxisRegs where
  stepIndex := 0
  dir := .fwd
  stepDelay := none
  lastStepTime := 0
  out := none
  left := 0

/-- The arc registers at reset and after an arc (R30, R91). -/
def ArcRegs.cleared : ArcRegs where
  active := false
  radius := 0
  startAngle := 0
  endAngle := 0
  inc := 0
  k := 0
  kmax := 0

/-- The state construction leaves (R135): every register at its reset value (R40), `CLOCK_SEEN = none`, an empty
trace, nothing presented. -/
def State.initial (c : Config) : State where
  cfg := c
  x := AxisRegs.initial
  y := AxisRegs.initial
  mode := .idle
  maxSpeed := none
  posX := 0
  posY := 0
  pendX := 0
  pendY := 0
  arc := ArcRegs.cleared
  err := 0
  errCause := 0
  resX := 0
  resY := 0
  clockSeen := none
  trace := []
  port := none
  inputs := []

/-- The machine right after construction with the default configuration (R134, R135, log 5). -/
def State.reset : State := State.initial defaultConfig

/-- `X[a]` of the per-axis registers (R9). -/
def State.axis (s : State) : Axis → AxisRegs
  | .x => s.x
  | .y => s.y

/-- Writing the registers of one axis. -/
def State.setAxis (s : State) (a : Axis) (r : AxisRegs) : State :=
  match a with
  | .x => { s with x := r }
  | .y => { s with y := r }

end Sys2Proof.Machine
end

