-- ==== Sys2Proof/Machine/Flags.lean ====
section
/-! DEFINITION. The status the block reports: error kinds, causes and their codes (R116 to R119). There are no
arithmetic flags. -/

namespace Sys2Proof.Machine

/-- The error kinds (R116). -/
inductive ErrKind where
  | configuration
  | geometry
  | illegal
  deriving DecidableEq, Repr

/-- The run-time causes (R117 to R119). -/
inductive Cause where
  | rpmNonpositive
  | delayZero
  | speedUnset
  | maxSpeedUnset
  | minorSpeedZero
  | majorZero
  | arcIncNonpositive
  | reservedOpcode
  | badAxis
  deriving DecidableEq, Repr

/-- The `ERR` code of a kind (R116); 0 is NONE. -/
def errCode : ErrKind → ErrCode
  | .configuration => 1
  | .geometry => 2
  | .illegal => 3

/-- The kind a cause belongs to (R117 to R119). -/
def causeKind : Cause → ErrKind
  | .rpmNonpositive => .configuration
  | .delayZero => .configuration
  | .speedUnset => .configuration
  | .maxSpeedUnset => .configuration
  | .minorSpeedZero => .configuration
  | .majorZero => .geometry
  | .arcIncNonpositive => .geometry
  | .reservedOpcode => .illegal
  | .badAxis => .illegal

/-- The `ERR_CAUSE` code of a cause (R117 to R119). -/
def causeCode : Cause → CauseCode
  | .rpmNonpositive => 1
  | .delayZero => 2
  | .speedUnset => 3
  | .maxSpeedUnset => 4
  | .minorSpeedZero => 5
  | .majorZero => 1
  | .arcIncNonpositive => 2
  | .reservedOpcode => 1
  | .badAxis => 2

end Sys2Proof.Machine
end

