-- ==== Sys2Proof/Machine/Operands.lean ====
section
/-! DEFINITION. The operand forms: the axis select of SET_SPEED (R62), the angle schedule of an arc (R107), the
magnitudes of a planned move (R101). Integer operands are read by the decoder (R56). -/

namespace Sys2Proof.Machine

/-- The axis select: 0 is X, 1 is Y, any other value selects no axis (R62). -/
def axisSelect (sel : Int) : Option Axis :=
  if sel = 0 then some .x else if sel = 1 then some .y else none

/-- `sgn` (R10). -/
def sgn (v : Int) : Int := if 0 < v then 1 else if v < 0 then -1 else 0

/-- `ArcCount(s, e, inc)`: the number of segments, ⌈|e − s| / inc⌉, for inc ≥ 1 (R107). -/
def arcCount (s e inc : Int) : Nat :=
  if s = e then 0 else (((e - s).natAbs : Int) + inc - 1).toNat / inc.toNat

/-- `Angle(s, e, inc, K, k)` (R107). -/
def arcAngle (s e inc : Int) (kmax k : Nat) : Int :=
  if k = kmax then e else s + sgn (e - s) * k * inc

/-- The axis of larger magnitude, X in a tie (R101). -/
def majorAxis (d : Delta) : Axis := if d.2.natAbs ≤ d.1.natAbs then .x else .y

/-- `major = max(|dx|, |dy|)` (R101). -/
def majorMagnitude (d : Delta) : Nat := max d.1.natAbs d.2.natAbs

/-- `minor = min(|dx|, |dy|)` (R101). -/
def minorMagnitude (d : Delta) : Nat := min d.1.natAbs d.2.natAbs

end Sys2Proof.Machine
end

