-- ==== Sys2Proof/Machine/Trig.lean ====
section
/-! DEFINITION. Cosine and sine of an angle v · 2^−f radian, and their products with a radius rounded toward zero,
computed with integers that carry a bound on the error. A scale decides a product where every value within the bound
rounds to one integer (R104). -/

namespace Sys2Proof.Machine

/-- The sum and the next term of the exponential series of i·q, real and imaginary parts, after `n` terms. -/
def expTerms (q : Rat) : Nat → (Rat × Rat) × (Rat × Rat)
  | 0 => ((0, 0), (1, 0))
  | n + 1 =>
    let st := expTerms q n
    ((st.1.1 + st.2.1, st.1.2 + st.2.2), (-(st.2.2 * q) / (n + 1), st.2.1 * q / (n + 1)))

/-- Cosine and sine at scale 2^p with a bound on the error of each, in units of 2^−p. -/
structure Trig where
  cos : Int
  sin : Int
  err : Nat
  deriving DecidableEq, Repr

/-- Cosine and sine of a rational angle of magnitude at most 1, from `n` terms of the series (n ≥ 1). -/
def trigSmall (p n : Nat) (q : Rat) : Trig :=
  let sum := (expTerms q n).1
  { cos := (sum.1 * 2 ^ p).floor, sin := (sum.2 * 2 ^ p).floor, err := 2 + 2 ^ (p + 1) / n.factorial }

/-- Cosine and sine of the doubled angle. -/
def trigDouble (p : Nat) (t : Trig) : Trig :=
  { cos := (t.cos * t.cos - t.sin * t.sin) / 2 ^ p
    sin := 2 * t.cos * t.sin / 2 ^ p
    err := 4 * t.err + 2 * (t.err * t.err) / 2 ^ p + 2 }

/-- Cosine and sine of an angle 2^k times as large. -/
def trigDoubled (p : Nat) (t : Trig) : Nat → Trig
  | 0 => t
  | k + 1 => trigDouble p (trigDoubled p t k)

/-- The number of halvings that bring v · 2^−f into [−1, 1]. -/
def halvings (f : Nat) (v : Int) : Nat := v.natAbs.log2 + 1 - f

/-- Cosine and sine of v · 2^−f radian at scale 2^p. -/
def trigOf (p f : Nat) (v : Int) : Trig :=
  let k := halvings f v
  trigDoubled p (trigSmall p (p + 1) ((v : Rat) / 2 ^ (f + k))) k

/-- The integer that truncating r · c / 2^p gives, where every value within the error bound truncates to it. -/
def truncProduct (p : Nat) (r c : Int) (err : Nat) : Option Int :=
  let lo := (r * c - r.natAbs * err).tdiv (2 ^ p)
  let hi := (r * c + r.natAbs * err).tdiv (2 ^ p)
  if lo = hi then some lo else none

/-- The scale tried first: the fraction bits kept beyond the sizes of the operands and of the angle's fraction. -/
def trigScale (f : Nat) (r v : Int) : Nat := 64 + 2 * (r.natAbs.log2 + v.natAbs.log2 + f)

/-- Both products rounded toward zero, where scale 2^p decides them. -/
def truncAt (p f : Nat) (r v : Int) : Option Delta :=
  let t := trigOf p f v
  match truncProduct p r t.cos t.err, truncProduct p r t.sin t.err with
  | some dx, some dy => some (dx, dy)
  | some _, none => none
  | none, _ => none

end Sys2Proof.Machine
end

