-- ==== Sys2Proof/Machine/TrigDecides.lean ====
section
/-! DEFINITION. The proof that the default projection is defined through: for a nonzero radius and a nonzero angle some
scale decides both products. The computed cosine and sine are within their bounds; the bound does not grow with the
scale; and neither exact product is an integer, since a nonzero rational angle has an irrational cosine and sine. -/

namespace Sys2Proof.Machine

/-! The error bounds. -/

/-- The cosine and the sine of `x` at scale 2^p are within `t.err` of the computed ones. -/
def Trig.Bounds (p : Nat) (t : Trig) (x : ℝ) : Prop :=
  |(t.cos : ℝ) - 2 ^ p * Real.cos x| ≤ t.err ∧ |(t.sin : ℝ) - 2 ^ p * Real.sin x| ≤ t.err

/-- The computed terms are the partial sums of the exponential series. -/
theorem expTerms_eq (q : Rat) (n : Nat) :
    (((expTerms q n).1.1 : ℂ) + ((expTerms q n).1.2 : ℂ) * Complex.I
      = ∑ m ∈ Finset.range n, ((q : ℂ) * Complex.I) ^ m / m.factorial) ∧
    ((expTerms q n).2.1 : ℂ) + ((expTerms q n).2.2 : ℂ) * Complex.I = ((q : ℂ) * Complex.I) ^ n / n.factorial := by
  induction n with
  | zero => simp [expTerms]
  | succ n ih =>
    obtain ⟨h1, h2⟩ := ih
    refine ⟨?_, ?_⟩
    · rw [Finset.sum_range_succ, ← h1, ← h2]
      simp only [expTerms]
      push_cast
      ring
    · have hn : ((n : ℂ) + 1) ≠ 0 := by exact_mod_cast Nat.succ_ne_zero n
      have hf : (n.factorial : ℂ) ≠ 0 := by exact_mod_cast Nat.factorial_ne_zero n
      have e : ((q : ℂ) * Complex.I) ^ (n + 1) / ((n + 1).factorial : ℂ)
          = (((q : ℂ) * Complex.I) ^ n / n.factorial) * ((q : ℂ) * Complex.I) / (n + 1) := by
        rw [Nat.factorial_succ]; push_cast; field_simp; ring
      rw [e, ← h2]
      simp only [expTerms]
      push_cast
      field_simp
      ring_nf
      rw [Complex.I_sq]
      ring

theorem nat_div_lt (a b : Nat) (hb : 0 < b) : (a : ℝ) / b < (a / b : Nat) + 1 := by
  rw [div_lt_iff₀ (by exact_mod_cast hb)]
  have h := Nat.lt_div_mul_add (a := a) hb
  have h2 : a < (a / b + 1) * b := by rw [Nat.add_mul]; omega
  exact_mod_cast h2

/-- The small-angle values are within their bound. -/
theorem trigSmall_bounds (p : Nat) {n : Nat} (hn : 1 ≤ n) {q : Rat} (hq : |(q : ℝ)| ≤ 1) :
    (trigSmall p n q).Bounds p q := by
  obtain ⟨h1, -⟩ := expTerms_eq q n
  have hx : ‖(q : ℂ) * Complex.I‖ ≤ 1 := by
    rw [norm_mul, Complex.norm_I, mul_one]
    have : ‖(q : ℂ)‖ = |(q : ℝ)| := by
      rw [← Real.norm_eq_abs, ← Complex.norm_real]; simp
    rw [this]; exact hq
  have hb := Complex.exp_bound hx hn
  rw [← h1] at hb
  have hf : (0 : ℝ) < n.factorial := by exact_mod_cast Nat.factorial_pos n
  have hn' : (1 : ℝ) ≤ n := by exact_mod_cast hn
  have hle : ‖(q : ℂ) * Complex.I‖ ^ n * ((n.succ : ℝ) * ((n.factorial : ℝ) * n)⁻¹) ≤ 2 / n.factorial := by
    have h2 : (n.succ : ℝ) * ((n.factorial : ℝ) * n)⁻¹ ≤ 2 / n.factorial := by
      rw [← div_eq_mul_inv, div_le_div_iff₀ (by positivity) hf]
      push_cast
      nlinarith
    calc _ ≤ 1 * ((n.succ : ℝ) * ((n.factorial : ℝ) * n)⁻¹) :=
          mul_le_mul_of_nonneg_right (pow_le_one₀ (norm_nonneg _) hx) (by positivity)
      _ ≤ _ := by rw [one_mul]; exact h2
  have hd := hb.trans hle
  have hexp : Complex.exp ((q : ℂ) * Complex.I) = ((Real.cos q : ℝ) : ℂ) + ((Real.sin q : ℝ) : ℂ) * Complex.I := by
    rw [Complex.exp_mul_I]; simp
  rw [hexp] at hd
  have hre := (Complex.abs_re_le_norm _).trans hd
  have him := (Complex.abs_im_le_norm _).trans hd
  have e1 : ((expTerms q n).1.1 : ℂ) = (((expTerms q n).1.1 : ℝ) : ℂ) := by simp
  have e2 : ((expTerms q n).1.2 : ℂ) = (((expTerms q n).1.2 : ℝ) : ℂ) := by simp
  rw [e1, e2] at hre him
  simp only [Complex.sub_re, Complex.add_re, Complex.mul_re, Complex.ofReal_re, Complex.ofReal_im, Complex.I_re,
    Complex.I_im, Complex.sub_im, Complex.add_im, Complex.mul_im, mul_zero, mul_one, add_zero,
    zero_add, sub_self] at hre him
  have hdiv := nat_div_lt (2 ^ (p + 1)) n.factorial (Nat.factorial_pos n)
  have key : ∀ (x : Rat) (c : ℝ), |c - (x : ℝ)| ≤ 2 / n.factorial →
      |(((x * 2 ^ p).floor : Int) : ℝ) - 2 ^ p * c| ≤ ((2 + 2 ^ (p + 1) / n.factorial : Nat) : ℝ) := by
    intro x c hc
    have f1 : (((x * 2 ^ p).floor : Int) : ℝ) ≤ (x : ℝ) * 2 ^ p := by
      have := Int.floor_le (x * 2 ^ p)
      exact_mod_cast this
    have f2 : (x : ℝ) * 2 ^ p < (((x * 2 ^ p).floor : Int) : ℝ) + 1 := by
      have := Int.lt_floor_add_one (x * 2 ^ p)
      exact_mod_cast this
    have hp : (0 : ℝ) < 2 ^ p := by positivity
    have hc' : |2 ^ p * c - (x : ℝ) * 2 ^ p| ≤ 2 ^ (p + 1) / n.factorial := by
      have : 2 ^ p * c - (x : ℝ) * 2 ^ p = 2 ^ p * (c - x) := by ring
      rw [this, abs_mul, abs_of_pos hp, pow_succ, mul_div_assoc]
      exact mul_le_mul_of_nonneg_left hc hp.le
    rw [abs_le] at hc' ⊢
    push_cast at hdiv ⊢
    constructor <;> linarith [hc'.1, hc'.2]
  exact ⟨key _ _ hre, key _ _ him⟩

/-- Doubling the angle keeps the values within their bound. -/
theorem trigDouble_bounds {p : Nat} {t : Trig} {x : ℝ} (h : t.Bounds p x) : (trigDouble p t).Bounds p (2 * x) := by
  obtain ⟨hc, hs⟩ := h
  have hp : (0 : ℝ) < 2 ^ p := by positivity
  have C1 := Real.abs_cos_le_one x
  have S1 := Real.abs_sin_le_one x
  obtain ⟨e1, he1⟩ : ∃ e, (t.cos : ℝ) = 2 ^ p * Real.cos x + e := ⟨_, (add_sub_cancel _ _).symm⟩
  obtain ⟨e2, he2⟩ : ∃ e, (t.sin : ℝ) = 2 ^ p * Real.sin x + e := ⟨_, (add_sub_cancel _ _).symm⟩
  rw [he1, add_sub_cancel_left] at hc
  rw [he2, add_sub_cancel_left] at hs
  set E : ℝ := (t.err : ℝ) with hE
  have hE0 : 0 ≤ E := by positivity
  have hdiv := nat_div_lt (2 * (t.err * t.err)) (2 ^ p) (by positivity)
  have floor_err : ∀ (a : Int) (y : ℝ), |(a : ℝ) / 2 ^ p - y| ≤ 4 * E + 2 * (E * E) / 2 ^ p →
      |((a / 2 ^ p : Int) : ℝ) - y| ≤ ((4 * t.err + 2 * (t.err * t.err) / 2 ^ p + 2 : Nat) : ℝ) := by
    intro a y hy
    have hpi : (0 : Int) < 2 ^ p := by positivity
    have g1 : (((a / 2 ^ p : Int)) : ℝ) ≤ (a : ℝ) / 2 ^ p := by
      rw [le_div_iff₀ hp]
      have := Int.ediv_mul_le a hpi.ne'
      exact_mod_cast this
    have g2 : (a : ℝ) / 2 ^ p < ((a / 2 ^ p : Int) : ℝ) + 1 := by
      rw [div_lt_iff₀ hp]
      have := Int.lt_ediv_add_one_mul_self a hpi
      exact_mod_cast this
    rw [abs_le] at hy ⊢
    push_cast at hdiv ⊢
    constructor <;> linarith [hy.1, hy.2]
  have b1 : ∀ u v e f : ℝ, |u| ≤ 1 → |v| ≤ 1 → |e| ≤ E → |f| ≤ E → |u * e + v * f| ≤ 2 * E := by
    intro u v e f hu hv he hf
    calc |u * e + v * f| ≤ |u * e| + |v * f| := abs_add_le _ _
      _ = |u| * |e| + |v| * |f| := by rw [abs_mul, abs_mul]
      _ ≤ 1 * E + 1 * E := add_le_add (mul_le_mul hu he (abs_nonneg _) zero_le_one)
          (mul_le_mul hv hf (abs_nonneg _) zero_le_one)
      _ = 2 * E := by ring
  have quad : ∀ e f : ℝ, |e| ≤ E → |f| ≤ E → |e * f| ≤ E * E := by
    intro e f he hf; rw [abs_mul]; exact mul_le_mul he hf (abs_nonneg _) hE0
  have fin : ∀ w z : ℝ, |w| ≤ 2 * E → |z| ≤ 2 * (E * E) → |2 * w + z / 2 ^ p| ≤ 4 * E + 2 * (E * E) / 2 ^ p := by
    intro w z hw hz
    calc |2 * w + z / 2 ^ p| ≤ |2 * w| + |z / 2 ^ p| := abs_add_le _ _
      _ = 2 * |w| + |z| / 2 ^ p := by rw [abs_mul, abs_div, abs_of_pos hp, abs_of_pos (two_pos (α := ℝ))]
      _ ≤ 2 * (2 * E) + 2 * (E * E) / 2 ^ p := by gcongr
      _ = _ := by ring
  refine ⟨floor_err _ _ ?_, floor_err _ _ ?_⟩
  · have hz : |e1 * e1 - e2 * e2| ≤ 2 * (E * E) := by
      calc |e1 * e1 - e2 * e2| ≤ |e1 * e1| + |e2 * e2| := abs_sub _ _
        _ ≤ E * E + E * E := add_le_add (quad _ _ hc hc) (quad _ _ hs hs)
        _ = _ := by ring
    have hw : |Real.cos x * e1 + (-Real.sin x) * e2| ≤ 2 * E := b1 _ _ _ _ C1 (by rwa [abs_neg]) hc hs
    have e : ((t.cos * t.cos - t.sin * t.sin : Int) : ℝ) / 2 ^ p - 2 ^ p * Real.cos (2 * x)
        = 2 * (Real.cos x * e1 + (-Real.sin x) * e2) + (e1 * e1 - e2 * e2) / 2 ^ p := by
      rw [Real.cos_two_mul']
      push_cast
      rw [he1, he2]
      field_simp
      ring
    rw [e]; exact fin _ _ hw hz
  · have hz : |2 * (e1 * e2)| ≤ 2 * (E * E) := by
      rw [abs_mul, abs_of_pos (two_pos (α := ℝ))]
      exact mul_le_mul_of_nonneg_left (quad _ _ hc hs) two_pos.le
    have hw : |Real.cos x * e2 + Real.sin x * e1| ≤ 2 * E := b1 _ _ _ _ C1 S1 hs hc
    have e : ((2 * t.cos * t.sin : Int) : ℝ) / 2 ^ p - 2 ^ p * Real.sin (2 * x)
        = 2 * (Real.cos x * e2 + Real.sin x * e1) + 2 * (e1 * e2) / 2 ^ p := by
      rw [Real.sin_two_mul]
      push_cast
      rw [he1, he2]
      field_simp
      ring
    rw [e]; exact fin _ _ hw hz

theorem trigDoubled_bounds {p : Nat} {t : Trig} {x : ℝ} (h : t.Bounds p x) (k : Nat) :
    (trigDoubled p t k).Bounds p (2 ^ k * x) := by
  induction k with
  | zero => simpa [trigDoubled] using h
  | succ k ih =>
    have := trigDouble_bounds ih
    rw [← mul_assoc, ← pow_succ'] at this
    exact this

/-- The values of an angle v · 2^−f are within their bound. -/
theorem trigOf_bounds (p f : Nat) (v : Int) : (trigOf p f v).Bounds p (v / 2 ^ f) := by
  have hlt : v.natAbs < 2 ^ (f + halvings f v) :=
    lt_of_lt_of_le Nat.lt_log2_self (Nat.pow_le_pow_right two_pos (by unfold halvings; omega))
  have hq : |(((v : Rat) / 2 ^ (f + halvings f v) : Rat) : ℝ)| ≤ 1 := by
    push_cast
    rw [abs_div, abs_of_pos (show (0 : ℝ) < 2 ^ (f + halvings f v) by positivity), div_le_one (by positivity)]
    have : |(v : ℝ)| = (v.natAbs : ℝ) := by rw [Nat.cast_natAbs]; simp
    rw [this]
    exact_mod_cast hlt.le
  have h := trigDoubled_bounds (trigSmall_bounds p (Nat.succ_le_succ (Nat.zero_le p)) hq) (halvings f v)
  have e : (2 : ℝ) ^ halvings f v * (((v : Rat) / 2 ^ (f + halvings f v) : Rat) : ℝ) = v / 2 ^ f := by
    push_cast
    rw [pow_add]
    field_simp
  rw [e] at h
  exact h

/-! No product is an integer. -/

open Polynomial in
/-- The even part of an integer polynomial at a purely imaginary rational, cleared of its denominator. -/
theorem clearedEvenPart (a : ℤ) (b N : ℕ) (hb : b ≠ 0) (g : ℤ[X]) (hg : g.natDegree < N) :
    ∃ M : ℤ, (b : ℂ) ^ N * (aeval ((a / b : ℂ) * Complex.I) g + aeval (-((a / b : ℂ) * Complex.I)) g) = M := by
  have hbc : (b : ℂ) ≠ 0 := by exact_mod_cast hb
  have term : ∀ i < N, ∃ z : ℤ, (b : ℂ) ^ N *
      ((g.coeff i : ℂ) * ((a / b : ℂ) * Complex.I) ^ i + (g.coeff i : ℂ) * (-((a / b : ℂ) * Complex.I)) ^ i) = z := by
    intro i hi
    obtain ⟨j, hj⟩ : ∃ j, N = j + i := ⟨N - i, by omega⟩
    have hp : (b : ℂ) ^ N * (a / b : ℂ) ^ i = b ^ j * a ^ i := by
      rw [hj, pow_add, div_pow]
      field_simp
    rcases Nat.even_or_odd i with he | ho
    · obtain ⟨l, hl⟩ := he
      refine ⟨2 * g.coeff i * (-1) ^ l * b ^ j * a ^ i, ?_⟩
      rw [Even.neg_pow ⟨l, hl⟩, mul_pow, ← two_mul]
      have hI : Complex.I ^ i = (-1) ^ l := by rw [hl, ← two_mul, pow_mul, Complex.I_sq]
      rw [hI]
      push_cast
      linear_combination (2 * (g.coeff i : ℂ) * (-1) ^ l) * hp
    · exact ⟨0, by rw [Odd.neg_pow ho]; push_cast; ring⟩
  choose! z hz using term
  refine ⟨∑ i ∈ Finset.range N, z i, ?_⟩
  rw [aeval_eq_sum_range' hg, aeval_eq_sum_range' hg, ← Finset.sum_add_distrib, Finset.mul_sum]
  push_cast
  refine Finset.sum_congr rfl fun i hi => ?_
  rw [← hz i (Finset.mem_range.mp hi)]
  simp only [zsmul_eq_mul]

open Polynomial in
/-- A nonzero rational angle has no nonzero rational cosine. -/
theorem cos_ne_ratio_of_ne_zero {a : ℤ} {b : ℕ} (ha : a ≠ 0) (hb : b ≠ 0) {m k : ℤ} (hk : k ≠ 0) :
    (m : ℝ) * Real.cos (a / b) ≠ k := by
  intro hcos
  have hbc : (b : ℂ) ≠ 0 := by exact_mod_cast hb
  have hac : (a : ℂ) ≠ 0 := by exact_mod_cast ha
  set f : ℤ[X] := C ((b : ℤ) ^ 2) * X ^ 2 + C (a ^ 2) with hf
  have hf0 : f.eval 0 = a ^ 2 := by simp [hf]
  have hdeg : f.natDegree ≤ 2 := by rw [hf]; compute_degree
  have hfne : f.map (algebraMap ℤ ℂ) ≠ 0 := by
    intro h
    have := congrArg (eval 0) h
    simp [hf] at this
    exact ha this
  obtain ⟨c, hc⟩ := LindemannWeierstrass.exp_polynomial_approx f (by rw [hf0]; positivity)
  have root : ∀ s : ℂ, s ^ 2 = -1 → (a / b : ℂ) * s ∈ f.aroots ℂ := by
    intro s hs
    rw [mem_aroots']
    refine ⟨hfne, ?_⟩
    have e : aeval ((a / b : ℂ) * s) f = (b : ℂ) ^ 2 * ((a / b : ℂ) * s) ^ 2 + (a : ℂ) ^ 2 := by simp [hf]
    rw [e, mul_pow, hs]
    field_simp
    ring
  have hI := root Complex.I Complex.I_sq
  have hnI := root (-Complex.I) (by rw [neg_sq, Complex.I_sq])
  have lim : Filter.Tendsto (fun n : ℕ => (2 * |(m : ℝ)| * (b ^ 2 * |c|)) * ((b ^ 2 * |c|) ^ n / (n.factorial : ℝ)))
      Filter.atTop (nhds 0) := by
    have := (FloorSemiring.tendsto_pow_div_factorial_atTop ((b : ℝ) ^ 2 * |c|)).const_mul
      (2 * |(m : ℝ)| * (b ^ 2 * |c|))
    simpa using this
  obtain ⟨N, hN⟩ := Filter.eventually_atTop.mp (lim.eventually (gt_mem_nhds one_pos))
  obtain ⟨p, hpge, hp⟩ := Nat.exists_infinite_primes (N + 3 + b + k.natAbs + (a ^ 2).natAbs)
  obtain ⟨n, hpn, gp, hgp, happ⟩ := hc p (by rw [hf0]; omega) hp
  have h1 := happ hI
  have h2 := happ hnI
  rw [mul_neg] at h2
  obtain ⟨M, hM⟩ := clearedEvenPart a b (2 * p) hb gp
    (by have := Nat.mul_le_mul_left p hdeg; have := hp.pos; omega)
  have hexp : Complex.exp ((a / b : ℂ) * Complex.I) + Complex.exp (-((a / b : ℂ) * Complex.I))
      = 2 * ((Real.cos (a / b) : ℝ) : ℂ) := by
    rw [Complex.ofReal_cos, Complex.two_cos]
    push_cast
    rw [neg_mul]
  have hmc : (m : ℂ) * ((Real.cos (a / b) : ℝ) : ℂ) = k := by
    have := congrArg (fun x : ℝ => (x : ℂ)) hcos
    push_cast at this ⊢
    exact this
  set L : ℤ := b ^ (2 * p) * n * (2 * k) - p * (m * M) with hL
  have hLc : (L : ℂ) = (m : ℂ) * b ^ (2 * p) *
      ((n • Complex.exp ((a / b : ℂ) * Complex.I) - p • aeval ((a / b : ℂ) * Complex.I) gp) +
       (n • Complex.exp (-((a / b : ℂ) * Complex.I)) - p • aeval (-((a / b : ℂ) * Complex.I)) gp)) := by
    rw [hL]
    simp only [zsmul_eq_mul, nsmul_eq_mul]
    push_cast
    rw [← hM]
    linear_combination (-(2 * (b : ℂ) ^ (2 * p) * n)) * hmc - ((m : ℂ) * b ^ (2 * p) * n) * hexp
  have hsmall : |L| < 1 := by
    have hpm := hN (p - 1) (by omega)
    have hn : ‖(L : ℂ)‖ ≤ |(m : ℝ)| * b ^ (2 * p) * (2 * (|c| ^ p / (p - 1).factorial)) := by
      rw [hLc, norm_mul, norm_mul, norm_pow]
      have e1 : ‖(m : ℂ)‖ = |(m : ℝ)| := by simp
      have e2 : ‖(b : ℂ)‖ = (b : ℝ) := by simp
      rw [e1, e2]
      have hcp : c ^ p / ((p - 1).factorial : ℝ) ≤ |c| ^ p / (p - 1).factorial :=
        div_le_div_of_nonneg_right ((le_abs_self _).trans (abs_pow c p).le) (by positivity)
      refine mul_le_mul_of_nonneg_left ?_ (by positivity)
      refine (norm_add_le _ _).trans ?_
      linarith [h1.trans hcp, h2.trans hcp]
    have he : |(m : ℝ)| * b ^ (2 * p) * (2 * (|c| ^ p / (p - 1).factorial))
        = (2 * |(m : ℝ)| * (b ^ 2 * |c|)) * ((b ^ 2 * |c|) ^ (p - 1) / ((p - 1).factorial : ℝ)) := by
      obtain ⟨q, rfl⟩ : ∃ q, p = q + 1 := ⟨p - 1, by have := hp.pos; omega⟩
      rw [Nat.add_sub_cancel, pow_mul, pow_succ, pow_succ, mul_pow]
      ring
    rw [he] at hn
    have := lt_of_le_of_lt hn hpm
    rw [Complex.norm_intCast] at this
    exact_mod_cast this
  have hL0 : L = 0 := Int.abs_lt_one_iff.mp hsmall
  have hdvd : (p : ℤ) ∣ b ^ (2 * p) * n * (2 * k) := ⟨m * M, by rw [hL] at hL0; linarith⟩
  have hpp : Prime (p : ℤ) := Nat.prime_iff_prime_int.mp hp
  have small : ∀ z : ℤ, z ≠ 0 → z.natAbs < p → ¬ (p : ℤ) ∣ z := by
    intro z hz hlt hd
    have := Nat.le_of_dvd (Int.natAbs_pos.mpr hz) (Int.natCast_dvd.mp hd)
    omega
  rcases hpp.dvd_or_dvd hdvd with h | h
  · rcases hpp.dvd_or_dvd h with h | h
    · exact small b (by exact_mod_cast hb) (by simp; omega) (hpp.dvd_of_dvd_pow h)
    · exact hpn h
  · rcases hpp.dvd_or_dvd h with h | h
    · exact small 2 (by norm_num) (by simp; omega) h
    · exact small k hk (by omega) h

/-- A nonzero multiple of the cosine of a nonzero rational angle is no integer. -/
theorem cos_ne_ratio {a : ℤ} {b : ℕ} (ha : a ≠ 0) (hb : b ≠ 0) {m : ℤ} (hm : m ≠ 0) (k : ℤ) :
    (m : ℝ) * Real.cos (a / b) ≠ k := by
  by_cases hk : k = 0
  · intro h
    have hc : Real.cos (a / b) = 0 := by
      rw [hk, Int.cast_zero] at h
      exact (mul_eq_zero.mp h).resolve_left (by exact_mod_cast hm)
    have h2 := Real.cos_two_mul ((a : ℝ) / b)
    rw [hc] at h2
    refine cos_ne_ratio_of_ne_zero (a := 2 * a) (b := b) (by omega) hb (m := 1) (k := -1) (by norm_num) ?_
    push_cast
    rw [mul_div_assoc, h2]
    norm_num
  · exact cos_ne_ratio_of_ne_zero ha hb hk

/-- A nonzero multiple of the sine of a nonzero rational angle is no integer. -/
theorem sin_ne_ratio {a : ℤ} {b : ℕ} (ha : a ≠ 0) (hb : b ≠ 0) {m : ℤ} (hm : m ≠ 0) (k : ℤ) :
    (m : ℝ) * Real.sin (a / b) ≠ k := by
  intro h
  refine cos_ne_ratio (a := 2 * a) (b := b) (by omega) hb (m := m ^ 2) (by positivity) (m ^ 2 - 2 * k ^ 2) ?_
  push_cast
  rw [mul_div_assoc, Real.cos_two_mul, ← h, Real.cos_sq']
  ring

/-! A large scale decides. -/

/-- A number strictly between two neighbouring multiples of `q` rounds toward zero to the one nearer to zero. -/
theorem tdiv_between {a m q : Int} (hq : 0 < q) (h1 : m * q < a) (h2 : a < (m + 1) * q) :
    a.tdiv q = if 0 ≤ m then m else m + 1 := by
  split_ifs with hm
  · have ha : 0 ≤ a := (mul_nonneg hm hq.le).trans h1.le
    rw [Int.tdiv_eq_ediv_of_nonneg ha]
    exact Int.ediv_eq_iff_of_pos hq |>.mpr ⟨h1.le, by linarith [add_mul m 1 q]⟩
  · have ha : 0 ≤ -a := by nlinarith
    have h : (-a).tdiv q = -(m + 1) := by
      rw [Int.tdiv_eq_ediv_of_nonneg ha]
      exact Int.ediv_eq_iff_of_pos hq |>.mpr ⟨by nlinarith, by nlinarith⟩
    rw [Int.neg_tdiv] at h
    omega

/-- A product that is no integer is decided by every large scale, where the error stays bounded. -/
theorem truncProduct_decides {r : Int} {y : ℝ} {c : Nat → Int} {err : Nat → Nat} {bound : Nat}
    (hb : ∀ p, err p ≤ bound) (hc : ∀ p, |(c p : ℝ) - 2 ^ p * y| ≤ err p) (hy : ∀ k : Int, (r : ℝ) * y ≠ k) :
    ∃ least, ∀ p, least ≤ p → ∃ n, truncProduct p r (c p) (err p) = some n := by
  set m : Int := ⌊(r : ℝ) * y⌋ with hm
  have lo : (m : ℝ) < r * y := lt_of_le_of_ne (Int.floor_le _) (fun h => hy m h.symm)
  have hi : (r : ℝ) * y < m + 1 := Int.lt_floor_add_one _
  set δ : ℝ := min (r * y - m) (m + 1 - r * y) with hδ
  have hδ0 : 0 < δ := lt_min (by linarith) (by linarith)
  obtain ⟨least, hl⟩ := pow_unbounded_of_one_lt (2 * (r.natAbs * bound) / δ) (one_lt_two (α := ℝ))
  refine ⟨least, fun p hp => ?_⟩
  have hpow : 2 * ((r.natAbs : ℝ) * bound) < δ * 2 ^ p := by
    rw [div_lt_iff₀ hδ0] at hl
    have : (2 : ℝ) ^ least ≤ 2 ^ p := pow_le_pow_right₀ one_le_two hp
    nlinarith
  have habs : |(r : ℝ)| = (r.natAbs : ℝ) := by rw [Nat.cast_natAbs]; simp
  have herr : (r.natAbs : ℝ) * err p ≤ r.natAbs * bound := by
    have : (err p : ℝ) ≤ bound := by exact_mod_cast hb p
    exact mul_le_mul_of_nonneg_left this (by positivity)
  have herr0 : (0 : ℝ) ≤ r.natAbs * err p := by positivity
  have hprod : |(r : ℝ) * c p - 2 ^ p * (r * y)| ≤ r.natAbs * err p := by
    have : (r : ℝ) * c p - 2 ^ p * (r * y) = r * (c p - 2 ^ p * y) := by ring
    rw [this, abs_mul, habs]
    exact mul_le_mul_of_nonneg_left (hc p) (by positivity)
  rw [abs_le] at hprod
  have hp0 : (0 : ℝ) < 2 ^ p := by positivity
  have d1 : δ * 2 ^ p ≤ (r * y - m) * 2 ^ p := mul_le_mul_of_nonneg_right (min_le_left _ _) hp0.le
  have d2 : δ * 2 ^ p ≤ (m + 1 - r * y) * 2 ^ p := mul_le_mul_of_nonneg_right (min_le_right _ _) hp0.le
  have hpi : (0 : Int) < 2 ^ p := by positivity
  have between : ∀ a : Int, |(a : ℝ) - r * c p| ≤ r.natAbs * err p →
      a.tdiv (2 ^ p) = if 0 ≤ m then m else m + 1 := by
    intro a ha
    rw [abs_le] at ha
    refine tdiv_between hpi ?_ ?_
    · have : (m : ℝ) * 2 ^ p < a := by nlinarith [ha.1, hprod.1]
      exact_mod_cast this
    · have : (a : ℝ) < (m + 1) * 2 ^ p := by nlinarith [ha.2, hprod.2]
      exact_mod_cast this
  refine ⟨if 0 ≤ m then m else m + 1, ?_⟩
  unfold truncProduct
  dsimp only
  rw [between (r * c p - r.natAbs * err p), between (r * c p + r.natAbs * err p), if_pos rfl]
  · push_cast
    rw [← habs, add_sub_cancel_left, abs_of_nonneg (by positivity)]
  · push_cast
    rw [← habs, sub_sub_cancel_left, abs_neg, abs_of_nonneg (by positivity)]

/-- The doublings of an angle multiply the error by a factor that no scale exceeds. -/
theorem trigDoubled_err_le (k : Nat) :
    ∃ bound, ∀ (p : Nat) (t : Trig), t.err ≤ 4 → (trigDoubled p t k).err ≤ bound := by
  induction k with
  | zero => exact ⟨4, fun _ _ h => h⟩
  | succ k ih =>
    obtain ⟨b, hb⟩ := ih
    refine ⟨4 * b + 2 * (b * b) + 2, fun p t h => ?_⟩
    have he := hb p t h
    have h1 := Nat.div_le_self (2 * ((trigDoubled p t k).err * (trigDoubled p t k).err)) (2 ^ p)
    have h2 := Nat.mul_le_mul he he
    show 4 * (trigDoubled p t k).err + 2 * ((trigDoubled p t k).err * (trigDoubled p t k).err) / 2 ^ p + 2 ≤ _
    omega

/-- The error of an angle's cosine and sine stays bounded as the scale grows. -/
theorem trigOf_err_le (f : Nat) (v : Int) : ∃ bound, ∀ p, (trigOf p f v).err ≤ bound := by
  obtain ⟨b, hb⟩ := trigDoubled_err_le (halvings f v)
  refine ⟨b, fun p => hb p _ ?_⟩
  have key : ∀ n : Nat, 2 ^ n ≤ 2 * n.factorial := by
    intro n
    induction n with
    | zero => decide
    | succ n ih =>
      rcases Nat.eq_zero_or_pos n with rfl | hn
      · decide
      · rw [Nat.factorial_succ, pow_succ]
        nlinarith [Nat.factorial_pos n]
  have h : 2 ^ (p + 1) / (p + 1).factorial ≤ 2 := by
    have := Nat.div_le_div_right (c := (p + 1).factorial) (key (p + 1))
    rwa [Nat.mul_div_cancel _ (Nat.factorial_pos _)] at this
  show 2 + 2 ^ (p + 1) / (p + 1).factorial ≤ 4
  omega

/-- Some scale decides both products of a nonzero radius and a nonzero angle. -/
theorem truncAt_decides (f : Nat) {r v : Int} (hr : r ≠ 0) (hv : v ≠ 0) : ∃ p, (truncAt p f r v).isSome = true := by
  obtain ⟨b, hb⟩ := trigOf_err_le f v
  have hf : (2 ^ f : Nat) ≠ 0 := by positivity
  have hang : ((v : ℝ) / (2 ^ f : Nat)) = v / 2 ^ f := by push_cast; rfl
  obtain ⟨pc, hpc⟩ := truncProduct_decides (r := r) hb (fun p => (trigOf_bounds p f v).1)
    (fun k => hang ▸ cos_ne_ratio hv hf hr k)
  obtain ⟨ps, hps⟩ := truncProduct_decides (r := r) hb (fun p => (trigOf_bounds p f v).2)
    (fun k => hang ▸ sin_ne_ratio hv hf hr k)
  obtain ⟨dx, hx⟩ := hpc (max pc ps) (le_max_left _ _)
  obtain ⟨dy, hy⟩ := hps (max pc ps) (le_max_right _ _)
  exact ⟨max pc ps, by simp [truncAt, hx, hy]⟩

end Sys2Proof.Machine
end

