-- ==== Sys2Proof/Machine/Projection.lean ====
section
/-! DEFINITION. The polar projection PROJECT (R104): the default rounds the exact real products r·cos θ and r·sin θ
toward zero, for every radius and angle. -/

namespace Sys2Proof.Machine

/-- `(trunc(r·cos(v·2^−f)), trunc(r·sin(v·2^−f)))` (R104, default), from the first scale tried, or from the least scale
that decides both products where that one does not: for a nonzero radius and angle there is one. -/
def truncProject (f : Nat) (r v : Int) : Delta :=
  if h : r ≠ 0 ∧ v ≠ 0 then
    match truncAt (trigScale f r v) f r v with
    | some d => d
    | none => (truncAt (Nat.find (truncAt_decides f h.1 h.2)) f r v).get (Nat.find_spec (truncAt_decides f h.1 h.2))
  else (r, 0)

/-- The value of a `PROJECT` argument: the row of the radius and the angle, else the free value (log 8). -/
def givenProject (rows : List ProjectionRow) (r v : Int) : Delta :=
  match rows.find? (fun row => row.radius == r && row.angle == v) with
  | some row => row.delta
  | none => Config.freeProject r v

/-- `PROJECT(r, v)` (R104). Of every configuration hold the required law PROJECT(r, 0) = (r, 0), and that radius 0 is
no move (R105, R106). -/
def project (c : Config) (r v : Int) : Delta :=
  if r = 0 ∨ v = 0 then (r, 0)
  else match c.projection with
    | .given rows => givenProject rows r v
    | .truncating => truncProject c.angleFracBits r v

end Sys2Proof.Machine
end

