-- ==== Sys2Proof/Machine/Rom.lean ====
section
/-! DEFINITION. The commutation ROM (20_memory.md R42, R43; 40_commutation.md R69 to R73). -/

namespace Sys2Proof.Machine

/-- The row of phase `p` (R69); only phases 0 to 3 are ever formed (R43). -/
def commRow {w : Nat} (rows : CommRows w) (p : Nat) : BitVec w :=
  match p % 4 with
  | 0 => rows.row0
  | 1 => rows.row1
  | 2 => rows.row2
  | _ => rows.row3

/-- `RomRead(w, p)`, the same as OUTPUTS_FOR(p, w): a read with no side effect (R43, R71). -/
def romRead (c : Config) (w : Winding) (p : Nat) : PinWord :=
  match w with
  | .twoWire => .two (commRow c.comm2 p)
  | .fourWire => .four (commRow c.comm4 p)

/-- The address of a ROM word in a realisation, {wsel, p[1:0]} (R42). -/
def romAddress (w : Winding) (p : BitVec 2) : BitVec 3 :=
  match w with
  | .twoWire => 0#1 ++ p
  | .fourWire => 1#1 ++ p

/-- The phase of a step index (R79): the pattern length is 4 for both windings. -/
def phase (index : Nat) : Nat := index % 4

end Sys2Proof.Machine
end

