-- ==== Sys2Proof/Machine/Ops.lean ====
section
/-! DEFINITION. The named operations over the registers that several commands share: reporting (R123 to R126), the
speed setter (R76, R77), the setup and the end of a move (R86 to R88, R91), the plan of a move (R101 to R103) and
the segments of an arc (R107 to R110). The block has no memory (R41). -/

namespace Sys2Proof.Machine

/-! Reporting. -/

/-- `raise <Kind>(<cause>)`: the one way an error is taken. `ERR` and `ERR_CAUSE` are written and nothing else
(R124, R126). There is no handler and no return (R127). -/
def raise (c : Cause) (s : State) : State :=
  { s with err := errCode (causeKind c), errCause := causeCode c }

/-- `ERR <- NONE; ERR_CAUSE <- 0`: the command passed its checks (R125). -/
def accepted (s : State) : State := { s with err := 0, errCause := 0 }

/-- The outcome of an operation that can only end in a model fault. -/
def toResult : Except Fault State → Result
  | .ok s => .next s
  | .error f => .fault f

/-- A command: its checks first, reading no state they change (R123); on an error `raise`; else the success report
and then its effect (R125). -/
def command {α : Type} (checks : Except Cause α) (effect : α → State → Except Fault State) (s : State) : Result :=
  match checks with
  | .error c => .next (raise c s)
  | .ok v => toResult (effect v (accepted s))

/-- Appends an event to the trace (R14). -/
def record (e : TraceEvent) (s : State) : State := { s with trace := s.trace ++ [e] }

/-! Speed. -/

/-- `DELAY(a, rpm) = (60000 / N_a) / rpm`, truncating, left to right (R77). -/
def delay (c : Config) (a : Axis) (rpm : Nat) : Nat := delayNumerator / stepsPerRev c a / rpm

/-- `SpeedCheck(a, rpm)`: the delay a requested speed gives, or why it gives none (R76). -/
def speedCheck (c : Config) (a : Axis) (rpm : Int) : Except Cause Nat :=
  if rpm ≤ 0 then .error .rpmNonpositive
  else if delay c a rpm.toNat = 0 then .error .delayZero
  else .ok (delay c a rpm.toNat)

/-- `STEP_DELAY[a] <- some d`. -/
def setDelay (a : Axis) (d : Nat) (s : State) : State :=
  s.setAxis a { s.axis a with stepDelay := some d }

/-- The speed write of a plan: none where the axis gets no speed (R103). -/
def planSpeed (a : Axis) (rpm : Option Nat) (s : State) : State :=
  match rpm with
  | none => s
  | some v => setDelay a (delay s.cfg a v) s

/-! The start of a move. -/

/-- `RunCheck(ys, xs)`: an axis with a nonzero count has a speed (R86). -/
def runCheck (s : State) (ys xs : Int) : Except Cause Unit :=
  if (ys ≠ 0 ∧ s.y.stepDelay = none) ∨ (xs ≠ 0 ∧ s.x.stepDelay = none) then .error .speedUnset else .ok ()

/-- The direction of a signed count; a zero count has none and leaves `DIR` as it was (R87). -/
def directionOf (count : Int) (old : Dir) : Dir :=
  if count = 0 then old else if 0 < count then .fwd else .rev

/-- The direction and count setup of one axis (R87, R88). -/
def setCount (count : Int) (r : AxisRegs) : AxisRegs :=
  { r with dir := directionOf count r.dir, left := count.natAbs }

/-- `StartRun(ys, xs, pdx, pdy)` up to its test: directions, counts and the pending position change (R87, R88). -/
def setupRun (ys xs pdx pdy : Int) (s : State) : State :=
  { s with y := setCount ys s.y, x := setCount xs s.x, pendX := pdx, pendY := pdy }

/-- Some axis has steps left. -/
def moving (s : State) : Bool := decide (0 < s.y.left ∨ 0 < s.x.left)

/-! The plan of a move. -/

/-- `Ratio(m, minor, major)`: truncating, with the guard the source asks for (R102, R115). -/
def ratio (m minor major : Nat) : Except Cause Nat :=
  if major = 0 then .error .majorZero else .ok (m * minor / major)

/-- The speed of the minor axis: none where it does not move, else the ratio, which must not truncate to 0 (R102). -/
def minorSpeed (m minor major : Nat) : Except Cause (Option Nat) :=
  if minor = 0 then .ok none
  else match ratio m minor major with
    | .error c => .error c
    | .ok v => if v = 0 then .error .minorSpeedZero else .ok (some v)

/-- The speeds a plan gives the two axes, X first; none where no speed is written (R102). -/
abbrev Speeds := Option Nat × Option Nat

/-- `PlanCheck(dx, dy)` at a top speed: the speeds of a planned move, or why there are none (R101, R102). A stored
MAX_SPEED is at least 1 (R27); the check of the major speed against 0 is that of the pseudocode's last test. -/
def planCheck (maxSpeed : Option Nat) (d : Delta) : Except Cause Speeds :=
  match maxSpeed with
  | none => .error .maxSpeedUnset
  | some m =>
    if majorMagnitude d = 0 then .ok (none, none)
    else match minorSpeed m (minorMagnitude d) (majorMagnitude d) with
      | .error c => .error c
      | .ok v =>
        if m = 0 then .error .minorSpeedZero
        else match majorAxis d with
          | .x => .ok (some m, v)
          | .y => .ok (v, some m)

/-- The speed writes of PlanLinear and the setup its StartRun(dy, dx, dx, dy) makes (R103). -/
def loadPlan (d : Delta) (speeds : Speeds) (s : State) : State :=
  setupRun d.2 d.1 d.1 d.2 (planSpeed .y speeds.2 (planSpeed .x speeds.1 s))

/-! Arc segments. -/

/-- `SegDelta(r, s, e, inc, K, k)`: the difference of two projected points (R108). -/
def segDelta (c : Config) (r s e inc : Int) (kmax k : Nat) : Delta :=
  let p := project c r (arcAngle s e inc kmax k)
  let q := project c r (arcAngle s e inc kmax (k - 1))
  (p.1 - q.1, p.2 - q.2)

/-- The delta of segment `k` of the arc the registers hold (R110). -/
def arcDelta (s : State) (k : Nat) : Delta :=
  segDelta s.cfg s.arc.radius s.arc.startAngle s.arc.endAngle s.arc.inc s.arc.kmax k

/-- The first part of `ArcSegment(k)`: the plan of the segment and its setup (R110). -/
def loadArcSegment (k : Nat) (s : State) : Except Fault State :=
  match planCheck s.maxSpeed (arcDelta s k) with
  | .error _ => .error .arcSegmentUnplanned
  | .ok speeds => .ok (loadPlan (arcDelta s k) speeds s)

/-! The end of a move. -/

/-- The pending position change is applied and cleared (R91). -/
def applyPending (s : State) : State :=
  { s with posX := s.posX + s.pendX, posY := s.posY + s.pendY, pendX := 0, pendY := 0 }

/-- The last segment is done: the arc registers are cleared and the mode is IDLE (R91). -/
def finishMove (s : State) : State := { s with arc := ArcRegs.cleared, mode := .idle }

/-- After a segment of a running arc: the next segments, `n` of them left. A segment without steps completes at once
and the next follows in the same transition (R88, R91, R110); the chain ends because `ARC_K` rises to `ARC_KMAX`. -/
def nextSegments : Nat → State → Except Fault State
  | 0, s => .ok (finishMove s)
  | n + 1, s =>
    let next := { s with arc := { s.arc with k := s.arc.k + 1 } }
    match loadArcSegment next.arc.k next with
    | .error f => .error f
    | .ok t => if moving t then .ok { t with mode := .run } else nextSegments n (applyPending t)

/-- `complete()`: the current segment ends (R91). -/
def complete (s : State) : Except Fault State :=
  let t := applyPending s
  if t.arc.active then nextSegments (t.arc.kmax - t.arc.k) t else .ok (finishMove t)

/-- The last part of StartRun: a move without steps completes in the same transition (R88). -/
def launch (s : State) : Except Fault State :=
  if moving s then .ok { s with mode := .run } else complete s

/-- `StartRun(ys, xs, pdx, pdy)` (R87, R88). -/
def startRun (ys xs pdx pdy : Int) (s : State) : Except Fault State := launch (setupRun ys xs pdx pdy s)

/-- `PlanLinear(dx, dy, sx, sy)` (R103). -/
def planLinear (d : Delta) (speeds : Speeds) (s : State) : Except Fault State := launch (loadPlan d speeds s)

/-- `ArcSegment(k)` (R110). -/
def arcSegment (k : Nat) (s : State) : Except Fault State :=
  match loadArcSegment k s with
  | .error f => .error f
  | .ok t => launch t

end Sys2Proof.Machine
end

