-- ==== Sys2Proof/Machine/Moves.lean ====
section
/-! DEFINITION. The moves at the axes' own speeds: RUN_MOVE (42_scheduler.md R85), MOVE_X and MOVE_Y
(43_planner.md R98, R99). -/

namespace Sys2Proof.Machine

/-- RUN_MOVE ys, xs: no position change (R85). -/
def execRunMove (ys xs : Int) (s : State) : Result :=
  command (runCheck s ys xs) (fun _ t => startRun ys xs 0 0 t) s

/-- MOVE_X l (R98). -/
def execMoveX (l : Int) (s : State) : Result :=
  command (runCheck s 0 l) (fun _ t => startRun 0 l l 0 t) s

/-- MOVE_Y l (R99). -/
def execMoveY (l : Int) (s : State) : Result :=
  command (runCheck s l 0) (fun _ t => startRun l 0 0 l t) s

end Sys2Proof.Machine
end

