-- ==== Sys2Proof/Machine/Planner.lean ====
section
/-! DEFINITION. The planned moves: LINEAR_TO, POLAR_TO and CIRCULAR_ARC (43_planner.md R100, R105, R106). -/

namespace Sys2Proof.Machine

/-- A coordinated straight move by a delta (R100, R105): the plan check, then PlanLinear. -/
def straightMove (d : Delta) (s : State) : Result :=
  command (planCheck s.maxSpeed d) (fun speeds t => planLinear d speeds t) s

/-- LINEAR_TO x1, y1, x2, y2: relative, by (x2 − x1, y2 − y1) (R100, R114). -/
def execLinearTo (x1 y1 x2 y2 : Int) (s : State) : Result := straightMove (x2 - x1, y2 - y1) s

/-- POLAR_TO r, theta (R105). -/
def execPolarTo (r theta : Int) (s : State) : Result := straightMove (project s.cfg r theta) s

/-- The plan checks of `n` consecutive segments from segment `k` on; the first error by segment number (R106, R109). -/
def segmentChecks (maxSpeed : Option Nat) (delta : Nat → Delta) : Nat → Nat → Except Cause Unit
  | 0, _ => .ok ()
  | n + 1, k =>
    match planCheck maxSpeed (delta k) with
    | .error c => .error c
    | .ok _ => segmentChecks maxSpeed delta n (k + 1)

/-- The checks of CIRCULAR_ARC in their order, giving the number of segments (R106, R109, R121). -/
def arcChecks (s : State) (r start stop inc : Int) : Except Cause Nat :=
  if s.maxSpeed = none then .error .maxSpeedUnset
  else if inc ≤ 0 then .error .arcIncNonpositive
  else
    let kmax := arcCount start stop inc
    match segmentChecks s.maxSpeed (segDelta s.cfg r start stop inc kmax) kmax 1 with
    | .error c => .error c
    | .ok _ => .ok kmax

/-- The arc registers at the start of an arc (R106). -/
def arcStarted (r start stop inc : Int) (kmax : Nat) : ArcRegs where
  active := true
  radius := r
  startAngle := start
  endAngle := stop
  inc := inc
  k := 1
  kmax := kmax

/-- CIRCULAR_ARC r, s, e, inc (R106): an arc without segments completes at once. -/
def execCircularArc (r start stop inc : Int) (s : State) : Result :=
  command (arcChecks s r start stop inc)
    (fun kmax t =>
      if kmax = 0 then .ok t else arcSegment 1 { t with arc := arcStarted r start stop inc kmax }) s

end Sys2Proof.Machine
end

