-- ==== Sys2Proof/Machine/Position.lean ====
section
/-! DEFINITION. READ_POS (43_planner.md R111). -/

namespace Sys2Proof.Machine

/-- READ_POS: it has no check, so it always succeeds (R111). -/
def execReadPos (s : State) : Result :=
  command (.ok ()) (fun _ t => .ok { t with resX := t.posX, resY := t.posY }) s

end Sys2Proof.Machine
end

