-- ==== Sys2Proof/Machine/Reserved.lean ====
section
/-! DEFINITION. The reserved opcodes (30_encoding.md R61, 60_exceptions.md R119): an Accept of one raises
IllegalCommand(RESERVED_OPCODE) and changes nothing else. -/

namespace Sys2Proof.Machine

/-- The Accept of a reserved opcode (R61). -/
def illegalOpcode (s : State) : Result :=
  command (α := Unit) (.error .reservedOpcode) (fun _ t => .ok t) s

/-- Opcode 0x0 (R61). -/
def execReserved0 (s : State) : Result := illegalOpcode s

/-- Opcode 0xA (R61). -/
def execReservedA (s : State) : Result := illegalOpcode s

/-- Opcode 0xB (R61). -/
def execReservedB (s : State) : Result := illegalOpcode s

/-- Opcode 0xC (R61). -/
def execReservedC (s : State) : Result := illegalOpcode s

/-- Opcode 0xD (R61). -/
def execReservedD (s : State) : Result := illegalOpcode s

/-- Opcode 0xE (R61). -/
def execReservedE (s : State) : Result := illegalOpcode s

/-- Opcode 0xF (R61). -/
def execReservedF (s : State) : Result := illegalOpcode s

end Sys2Proof.Machine
end

