-- ==== Sys2Proof/Machine/Speed.lean ====
section
/-! DEFINITION. The speed commands: SET_SPEED (41_axis_stepper.md R75) and INIT (43_planner.md R97). -/

namespace Sys2Proof.Machine

/-- The checks of SET_SPEED, the axis select first (R75, R121). -/
def setSpeedChecks (s : State) (sel rpm : Int) : Except Cause (Axis × Nat) :=
  match axisSelect sel with
  | none => .error .badAxis
  | some a =>
    match speedCheck s.cfg a rpm with
    | .error c => .error c
    | .ok d => .ok (a, d)

/-- SET_SPEED sel, rpm (R75). -/
def execSetSpeed (sel rpm : Int) (s : State) : Result :=
  command (setSpeedChecks s sel rpm) (fun v t => .ok (setDelay v.1 v.2 t)) s

/-- The checks of INIT: both axes before any write, X first (R97, R121). -/
def initChecks (s : State) (m : Int) : Except Cause (Nat × Nat) :=
  match speedCheck s.cfg .x m with
  | .error c => .error c
  | .ok dx =>
    match speedCheck s.cfg .y m with
    | .error c => .error c
    | .ok dy => .ok (dx, dy)

/-- INIT m (R97). -/
def execInit (m : Int) (s : State) : Result :=
  command (initChecks s m)
    (fun d t => .ok { setDelay .y d.2 (setDelay .x d.1 t) with maxSpeed := some m.toNat }) s

end Sys2Proof.Machine
end

