-- ==== Sys2Proof/Machine/Dispatch.lean ====
section
/-! DEFINITION. The Accept of each command, one arm per constructor. -/

namespace Sys2Proof.Machine

/-- The effect of the Accept of a command (R13), performed where an Accept is enabled. -/
def exec (i : Instr) (s : State) : Host.Outcome State Fault Refusal :=
  match i with
  | .init m => Sys2Proof.Machine.execInit m s
  | .moveX l => Sys2Proof.Machine.execMoveX l s
  | .moveY l => Sys2Proof.Machine.execMoveY l s
  | .linearTo x1 y1 x2 y2 => Sys2Proof.Machine.execLinearTo x1 y1 x2 y2 s
  | .polarTo r theta => Sys2Proof.Machine.execPolarTo r theta s
  | .circularArc r start stop inc => Sys2Proof.Machine.execCircularArc r start stop inc s
  | .readPos => Sys2Proof.Machine.execReadPos s
  | .setSpeed sel rpm => Sys2Proof.Machine.execSetSpeed sel rpm s
  | .runMove ys xs => Sys2Proof.Machine.execRunMove ys xs s
  | .reserved0 => Sys2Proof.Machine.execReserved0 s
  | .reservedA => Sys2Proof.Machine.execReservedA s
  | .reservedB => Sys2Proof.Machine.execReservedB s
  | .reservedC => Sys2Proof.Machine.execReservedC s
  | .reservedD => Sys2Proof.Machine.execReservedD s
  | .reservedE => Sys2Proof.Machine.execReservedE s
  | .reservedF => Sys2Proof.Machine.execReservedF s

end Sys2Proof.Machine
end

