-- ==== Sys2Proof/Decode.lean ====
section
/-! DEFINITION. Reading a command: from the port (R54 to R63) and from the packed word {a3, a2, a1, a0, op} of a
serialised or recorded command (R55). Then the encoder, written from the same tables (R58, R59; an ignored
operand is encoded as 0, R65). -/

namespace Sys2Proof

/-- `signed(Ak)`: an `n`-bit pattern as a two's-complement integer (R9, R56). -/
def signed (n : Nat) (pattern : Nat) : Int := (BitVec.ofNat n pattern).toInt

/-- The command on the port as an instruction. Total: every opcode has a meaning (R58), and `CMD_OP` alone
decides it (R63). `n` is OPERAND_BITS. -/
def decodeCommand (n : Nat) (c : Command) : Instr :=
  match c.op.toNat with
  | 0x0 => .reserved0
  | 0x1 => .init (signed n c.a0)
  | 0x2 => .moveX (signed n c.a0)
  | 0x3 => .moveY (signed n c.a0)
  | 0x4 => .linearTo (signed n c.a0) (signed n c.a1) (signed n c.a2) (signed n c.a3)
  | 0x5 => .polarTo (signed n c.a0) (signed n c.a1)
  | 0x6 => .circularArc (signed n c.a0) (signed n c.a1) (signed n c.a2) (signed n c.a3)
  | 0x7 => .readPos
  | 0x8 => .setSpeed (signed n c.a0) (signed n c.a1)
  | 0x9 => .runMove (signed n c.a0) (signed n c.a1)
  | 0xA => .reservedA
  | 0xB => .reservedB
  | 0xC => .reservedC
  | 0xD => .reservedD
  | 0xE => .reservedE
  | _ => .reservedF   -- the one value left of a four-bit opcode, 0xF

/-- The width of the packed word, `4 + 4·OPERAND_BITS` (R55). -/
def packedBits (n : Nat) : Nat := 4 + 4 * n

/-- `w[lo + len − 1 : lo]` (R9). -/
def bitField (w lo len : Nat) : Nat := w / 2 ^ lo % 2 ^ len

/-- The fields of the packed word: `op` in [3:0], operand k in [4 + (k+1)·n − 1 : 4 + k·n] (R55). -/
def unpack (n w : Nat) : Command where
  op := BitVec.ofNat 4 (bitField w 0 4)
  a0 := bitField w 4 n
  a1 := bitField w (4 + n) n
  a2 := bitField w (4 + 2 * n) n
  a3 := bitField w (4 + 3 * n) n

/-- Why a number is no packed command. -/
inductive DecodeError where
  /-- the word has a bit above the last operand (R55) -/
  | wordTooWide
  deriving DecidableEq, Repr

/-- Decoding a packed word: total, and rejecting by name a number that is wider than the format (R55). -/
def decodePacked (n w : Nat) : Except DecodeError Instr :=
  if w < 2 ^ packedBits n then .ok (decodeCommand n (unpack n w)) else .error .wordTooWide

/-- The bit pattern of a signed operand on an `n`-bit port (R56). -/
def operandPattern (n : Nat) (v : Int) : Nat := (BitVec.ofInt n v).toNat

/-- The opcode of an instruction (R58). -/
def Instr.opcode : Instr → Opcode
  | .init _ => 0x1
  | .moveX _ => 0x2
  | .moveY _ => 0x3
  | .linearTo _ _ _ _ => 0x4
  | .polarTo _ _ => 0x5
  | .circularArc _ _ _ _ => 0x6
  | .readPos => 0x7
  | .setSpeed _ _ => 0x8
  | .runMove _ _ => 0x9
  | .reserved0 => 0x0
  | .reservedA => 0xA
  | .reservedB => 0xB
  | .reservedC => 0xC
  | .reservedD => 0xD
  | .reservedE => 0xE
  | .reservedF => 0xF

/-- The operands in port order A0, A1, A2, A3 (R59), 0 on an ignored port (R65). -/
def Instr.operands : Instr → Int × Int × Int × Int
  | .init m => (m, 0, 0, 0)
  | .moveX l => (l, 0, 0, 0)
  | .moveY l => (l, 0, 0, 0)
  | .linearTo x1 y1 x2 y2 => (x1, y1, x2, y2)
  | .polarTo r v => (r, v, 0, 0)
  | .circularArc r s e inc => (r, s, e, inc)
  | .readPos => (0, 0, 0, 0)
  | .setSpeed sel rpm => (sel, rpm, 0, 0)
  | .runMove ys xs => (ys, xs, 0, 0)
  | .reserved0 => (0, 0, 0, 0)
  | .reservedA => (0, 0, 0, 0)
  | .reservedB => (0, 0, 0, 0)
  | .reservedC => (0, 0, 0, 0)
  | .reservedD => (0, 0, 0, 0)
  | .reservedE => (0, 0, 0, 0)
  | .reservedF => (0, 0, 0, 0)

/-- The command the host drives for an instruction. -/
def encodeCommand (n : Nat) (i : Instr) : Command where
  op := i.opcode
  a0 := operandPattern n i.operands.1
  a1 := operandPattern n i.operands.2.1
  a2 := operandPattern n i.operands.2.2.1
  a3 := operandPattern n i.operands.2.2.2

/-- The packed word {a3, a2, a1, a0, op} (R55). -/
def pack (n : Nat) (c : Command) : Nat :=
  c.op.toNat + 2 ^ 4 * (c.a0 + 2 ^ n * (c.a1 + 2 ^ n * (c.a2 + 2 ^ n * c.a3)))

/-- The packed word of an instruction. -/
def encode (n : Nat) (i : Instr) : Nat := pack n (encodeCommand n i)

/-- OPERAND_BITS of the default configuration (R6), which the table words are read with. -/
def tableOperandBits : Nat := 32

/-- The command whose packed word's bits are `w`, numbered as spec/opcode_table.json numbers them (bit 0 of `w` is
bit 0 of `op`), every bit from `nbits` on being 0. -/
def tableCommand (nbits w : Nat) : Command := unpack tableOperandBits (w % 2 ^ nbits)

/-- The instruction the decoder reads from such a word. -/
def decodeTableWord (nbits w : Nat) : Option Instr :=
  match decodePacked tableOperandBits (w % 2 ^ nbits) with
  | .ok i => some i
  | .error _ => none

end Sys2Proof
end

