-- ==== Sys2Proof/Machine/Stepper.lean ====
section
/-! DEFINITION. The axis stepper: the time gate and the advance (41_axis_stepper.md R78 to R83). An axis is probed
through its own registers alone, so neither axis can read or write the other's (R19, R92, R96). -/

namespace Sys2Proof.Machine

/-- `IncWrap(i, N)` (R81). -/
def incWrap (i n : Nat) : Nat := if i + 1 = n then 0 else i + 1

/-- `DecWrap(i, N)` (R82). -/
def decWrap (i n : Nat) : Nat := if i = 0 then n - 1 else i - 1

/-- The time since the last advance, modulo 2^TIME_BITS (R78, R145). -/
def elapsed (timeBits now last : Nat) : Nat := (((now : Int) - last) % (2 ^ timeBits : Int)).toNat

/-- The step index after one step in the given direction (R80). -/
def nextIndex (dir : Dir) (i n : Nat) : Nat :=
  match dir with
  | .fwd => incWrap i n
  | .rev => decWrap i n

/-- The word an advance to index `i` emits: the ROM row of the phase of the NEW index (R79, R80). -/
def emittedWord (c : Config) (a : Axis) (i : Nat) : PinWord := romRead c (winding c a) (phase i)

/-- `Advance(a, now)` on the axis's registers (R80). -/
def advance (c : Config) (a : Axis) (now : Nat) (r : AxisRegs) : AxisRegs :=
  let i := nextIndex r.dir r.stepIndex (stepsPerRev c a)
  { r with stepIndex := i, lastStepTime := now, out := some (emittedWord c a i) }

/-- `TryAdvance(a, now)`: the registers after the advance, or none where the gate is closed (R78). -/
def tryAdvance (c : Config) (a : Axis) (now : Nat) (r : AxisRegs) : Except Fault (Option AxisRegs) :=
  match r.stepDelay with
  | none => .error .stepDelayUnset
  | some d => if elapsed c.timeBits now r.lastStepTime < d then .ok none else .ok (some (advance c a now r))

/-- One line of the scheduler's loop: an axis with steps left is probed once, and an advance counts one step and
emits one event (R83, R89). -/
def probeAxis (a : Axis) (now : Nat) (s : State) : Except Fault State :=
  if (s.axis a).left = 0 then .ok s
  else match tryAdvance s.cfg a now (s.axis a) with
    | .error f => .error f
    | .ok none => .ok s
    | .ok (some r) =>
      .ok (record (.emit a (emittedWord s.cfg a r.stepIndex) now) (s.setAxis a { r with left := r.left - 1 }))

end Sys2Proof.Machine
end

