-- ==== Sys2Proof/Machine/Transitions.lean ====
section
/-! DEFINITION. The transitions the environment causes, Poll and Reset (R13), the host's moves on the command port
(R38, R93), and the handshake of Accept (R54). -/

namespace Sys2Proof.Machine

/-- The clock duty is broken: the value is lower than one already supplied (R139, R140). -/
def clockBroken (seen : Option Nat) (t : Nat) : Bool :=
  match seen with
  | none => false
  | some c => decide (t < c)

/-- One iteration of the scheduler's loop: Y is probed before X, with one clock value; when neither axis has a step
left the move's segment completes in the same Poll (R89). -/
def schedulerPass (now : Nat) (s : State) : Except Fault State :=
  match probeAxis .y now s with
  | .error f => .error f
  | .ok sy =>
    match probeAxis .x now sy with
    | .error f => .error f
    | .ok sx => if moving sx then .ok sx else complete sx

/-- The clock value the block sees (R31). -/
def nowOf (c : Config) (t : Nat) : Nat := t % 2 ^ c.timeBits

/-- `Poll(t)` (R89, R90): the clock duty first (R140), then one scheduler pass where a move runs. -/
def poll (t : Nat) (s : State) : Except Fault State :=
  if clockBroken s.clockSeen t then .error .clockNotMonotonic
  else
    let seen := { s with clockSeen := some t }
    match s.mode with
    | .idle => .ok seen
    | .run => schedulerPass (nowOf s.cfg t) seen

/-- The Reset transition: every register to its reset value, a Reset event in the trace; `CLOCK_SEEN` stays (R134,
R37), and so does what the environment presents (log 16) and does next (log 2). -/
def resetBlock (s : State) : State :=
  { State.initial s.cfg with
    clockSeen := s.clockSeen
    trace := s.trace ++ [.reset]
    port := s.port
    inputs := s.inputs }

/-- What one action of the environment does (R13, R38, R93). A command presented while another is held takes its place
(R93); the host does not wait (log 15). -/
def react (i : Input) (s : State) : Except Fault State :=
  match i with
  | .present c => .ok { s with port := some c }
  | .withdraw => .ok { s with port := none }
  | .poll t => poll t s
  | .reset => .ok (resetBlock s)

/-- The next action of the environment; where it supplies nothing there is no transition and nothing changes
(R95; log 3). -/
def environment (s : State) : Except Fault State :=
  match s.inputs with
  | [] => .ok s
  | i :: rest => react i { s with inputs := rest }

/-- An action of the environment that is a Reset. -/
def isReset : Input → Bool
  | .present _ => false
  | .withdraw => false
  | .poll _ => false
  | .reset => true

/-- The `RESET` input is asserted: the environment's next action is a Reset (R38). Reset is asynchronous and enabled in
every state (R134, D37), so it comes before an Accept; a command then on the port is accepted after it: DESIGN CHOICE
(log 16). -/
def resetAsserted (s : State) : Bool :=
  match s.inputs with
  | [] => false
  | i :: _ => isReset i

/-- The command taken by an Accept that happens now: `CMD_VALID = 1` and `CMD_READY = 1` (R54, R93), and no Reset is
asserted. -/
def fetch (s : State) : Option Instr :=
  if resetAsserted s then none
  else match s.mode, s.port with
    | .idle, some c => some (decodeCommand s.cfg.operandBits c)
    | .idle, none => none
    | .run, _ => none

/-- The port after the handshake: the command is consumed (R54). -/
def consume (s : State) : State := { s with port := none }

/-- The refusal of a configuration that has no machine (R122). -/
def constructionRefusal (c : Config) : Option Refusal :=
  match c.check with
  | none => none
  | some .stepsPerRevInvalid => some .stepsPerRevInvalid
  | some .windingUnsupported => some .windingUnsupported

/-- Construction: the initial state, or why there is no machine (R122, R135). -/
def construct (c : Config) : Except ConfigError State :=
  match c.check with
  | none => .ok (State.initial c)
  | some e => .error e

/-- The state in which the next step accepts this command: it stands on the port, the mode is the one an Accept needs
(R54), and no Reset comes first (R134). -/
def presenting (c : Command) (s : State) : State :=
  { s with port := some c, mode := .idle, inputs := s.inputs.dropWhile isReset }

end Sys2Proof.Machine
end

