-- ==== Sys2Proof/Machine/Step.lean ====
section
/-! DEFINITION. One step: a Reset where one is asserted (R134), else an Accept where one is enabled (R54), else the
environment's next action (R13). -/

namespace Sys2Proof.Machine

/-- One step of the machine. A configuration outside R5 has no machine and every step is refused (R122). Where a
command stands on the port and the mode is IDLE, it is accepted (R54), unless a Reset is asserted (R134, D37); while a
move runs it is held (R93). That an Accept comes before a Poll or a move of the host is DESIGN CHOICE (log 2). -/
def step (s : State) : Host.Outcome State Fault Refusal :=
  match constructionRefusal s.cfg with
  | some r => .refused r
  | none =>
    match fetch s with
    | some i => exec i (consume s)
    | none => toResult (environment s)

/-- The state in which the next step accepts the command with these bits: the command port stands where another
machine has its program counter. A mode of RUN is set to IDLE and a Reset about to happen is dropped, since an Accept
needs that (log 10). -/
def State.withFetchWord (s : State) (nbits w : Nat) : State :=
  presenting (unpack s.cfg.operandBits (w % 2 ^ nbits)) s

end Sys2Proof.Machine
end

