-- ==== Sys2Proof/Machine/Assembler.lean ====
section
/-! DEFINITION. The assembler's syntax (30_encoding.md R65 to R68): commands, pseudo-commands and the directives of
test programs, as actions of the environment. Text is a list of characters. Blanks around a mnemonic and around an
operand are skipped: DESIGN CHOICE (log 11). A directive's clock values are unsigned decimal: DESIGN CHOICE (log 14). -/

namespace Sys2Proof.Machine

/-- Why a line is rejected. -/
inductive AsmError where
  /-- no mnemonic, pseudo-command or directive of R58, R67, R68 -/
  | unknownMnemonic
  /-- another number of operands than R59 gives -/
  | operandCount
  /-- an operand that is no literal of R66 -/
  | badOperand
  /-- a literal outside the range of R56 (R66) -/
  | outOfRange
  deriving DecidableEq, Repr

/-- A blank. -/
def isBlank (c : Char) : Bool := c == ' ' || c == '\t'

/-- Without the blanks at both ends. -/
def trimBlanks (cs : List Char) : List Char := ((cs.dropWhile isBlank).reverse.dropWhile isBlank).reverse

/-- Without the comment, which runs from `;` to the end of the line (R65). -/
def stripComment (cs : List Char) : List Char := cs.takeWhile (fun c => c != ';')

/-- The parts of a line between commas (R65). -/
def splitCommas : List Char → List (List Char)
  | [] => [[]]
  | c :: cs =>
    match splitCommas cs with
    | [] => [[]]
    | p :: ps => if c == ',' then [] :: p :: ps else (c :: p) :: ps

/-- The value of a decimal digit. -/
def decDigit (c : Char) : Option Nat :=
  if '0'.toNat ≤ c.toNat ∧ c.toNat ≤ '9'.toNat then some (c.toNat - '0'.toNat) else none

/-- The value of a hexadecimal digit. -/
def hexDigit (c : Char) : Option Nat :=
  if 'a'.toNat ≤ c.toNat ∧ c.toNat ≤ 'f'.toNat then some (c.toNat - 'a'.toNat + 10)
  else if 'A'.toNat ≤ c.toNat ∧ c.toNat ≤ 'F'.toNat then some (c.toNat - 'A'.toNat + 10)
  else decDigit c

/-- Digits read after a value, most significant first. -/
def readDigits (digit : Char → Option Nat) (base : Nat) : List Char → Nat → Option Nat
  | [], acc => some acc
  | c :: cs, acc =>
    match digit c with
    | none => none
    | some d => readDigits digit base cs (acc * base + d)

/-- A number of at least one digit. -/
def readNat (digit : Char → Option Nat) (base : Nat) (cs : List Char) : Option Nat :=
  if cs.isEmpty then none else readDigits digit base cs 0

/-- A decimal literal with an optional sign, or a `0x` hexadecimal literal (R66). -/
def readInt (cs : List Char) : Option Int :=
  match cs with
  | '0' :: 'x' :: hs => (readNat hexDigit 16 hs).map Int.ofNat
  | '-' :: ds => (readNat decDigit 10 ds).map (fun v => -(v : Int))
  | '+' :: ds => (readNat decDigit 10 ds).map Int.ofNat
  | ds => (readNat decDigit 10 ds).map Int.ofNat

/-- An integer or angle operand in the range of an `n`-bit port (R66). -/
def readOperand (n : Nat) (cs : List Char) : Except AsmError Int :=
  match readInt cs with
  | none => .error .badOperand
  | some v => if operandFits n v then .ok v else .error .outOfRange

/-- The axis select of SET_SPEED: `X`, `Y` or a raw integer (R66). -/
def readAxis (n : Nat) (cs : List Char) : Except AsmError Int :=
  match cs with
  | ['X'] => .ok 0
  | ['Y'] => if operandFits n 1 then .ok 1 else .error .outOfRange
  | _ => readOperand n cs

/-- One operand. -/
def asm1 (n : Nat) (f : Int → Instr) : List (List Char) → Except AsmError Instr
  | [p] => (readOperand n p).map f
  | _ => .error .operandCount

/-- Two operands, the first read by `first`. -/
def asm2 (n : Nat) (first : List Char → Except AsmError Int) (f : Int → Int → Instr) :
    List (List Char) → Except AsmError Instr
  | [p, q] =>
    match first p, readOperand n q with
    | .ok a, .ok b => .ok (f a b)
    | .error e, _ => .error e
    | _, .error e => .error e
  | _ => .error .operandCount

/-- Four operands. -/
def asm4 (n : Nat) (f : Int → Int → Int → Int → Instr) : List (List Char) → Except AsmError Instr
  | [p, q, r, t] =>
    match readOperand n p, readOperand n q, readOperand n r, readOperand n t with
    | .ok a, .ok b, .ok c, .ok d => .ok (f a b c d)
    | .error e, _, _, _ => .error e
    | _, .error e, _, _ => .error e
    | _, _, .error e, _ => .error e
    | _, _, _, .error e => .error e
  | _ => .error .operandCount

/-- No operand. -/
def asm0 (i : Instr) : List (List Char) → Except AsmError Instr
  | [] => .ok i
  | _ => .error .operandCount

/-- The mnemonics of R58 and the pseudo-commands of R67. -/
inductive Mnemonic where
  | init
  | moveX
  | moveY
  | linearTo
  | polarTo
  | circularArc
  | readPos
  | setSpeed
  | runMove
  | runX
  | runY
  | linearBy
  deriving DecidableEq, Repr

/-- How a mnemonic is written, upper case (R65). -/
def Mnemonic.spelling : Mnemonic → List Char
  | .init => ['I', 'N', 'I', 'T']
  | .moveX => ['M', 'O', 'V', 'E', '_', 'X']
  | .moveY => ['M', 'O', 'V', 'E', '_', 'Y']
  | .linearTo => ['L', 'I', 'N', 'E', 'A', 'R', '_', 'T', 'O']
  | .polarTo => ['P', 'O', 'L', 'A', 'R', '_', 'T', 'O']
  | .circularArc => ['C', 'I', 'R', 'C', 'U', 'L', 'A', 'R', '_', 'A', 'R', 'C']
  | .readPos => ['R', 'E', 'A', 'D', '_', 'P', 'O', 'S']
  | .setSpeed => ['S', 'E', 'T', '_', 'S', 'P', 'E', 'E', 'D']
  | .runMove => ['R', 'U', 'N', '_', 'M', 'O', 'V', 'E']
  | .runX => ['R', 'U', 'N', '_', 'X']
  | .runY => ['R', 'U', 'N', '_', 'Y']
  | .linearBy => ['L', 'I', 'N', 'E', 'A', 'R', '_', 'B', 'Y']

/-- Every mnemonic once. -/
def allMnemonics : List Mnemonic :=
  [.init, .moveX, .moveY, .linearTo, .polarTo, .circularArc, .readPos, .setSpeed, .runMove, .runX, .runY, .linearBy]

/-- The mnemonic a word spells. -/
def readMnemonic (word : List Char) : Option Mnemonic := allMnemonics.find? (fun m => m.spelling == word)

/-- The instruction a mnemonic makes of its operands (R59, R65, R67). -/
def assembleAs (n : Nat) (m : Mnemonic) (ops : List (List Char)) : Except AsmError Instr :=
  match m with
  | .init => asm1 n .init ops
  | .moveX => asm1 n .moveX ops
  | .moveY => asm1 n .moveY ops
  | .linearTo => asm4 n .linearTo ops
  | .polarTo => asm2 n (readOperand n) .polarTo ops
  | .circularArc => asm4 n .circularArc ops
  | .readPos => asm0 .readPos ops
  | .setSpeed => asm2 n (readAxis n) .setSpeed ops
  | .runMove => asm2 n (readOperand n) .runMove ops
  | .runX => asm1 n (fun v => .runMove 0 v) ops
  | .runY => asm1 n (fun v => .runMove v 0) ops
  | .linearBy => asm2 n (readOperand n) (fun dx dy => .linearTo 0 0 dx dy) ops

/-- The command of a word with its operands; none where the word is no mnemonic. -/
def assembleCommand (n : Nat) (word : List Char) (ops : List (List Char)) : Option (Except AsmError Instr) :=
  (readMnemonic word).map (fun m => assembleAs n m ops)

/-- `t0..t1`, both inclusive (R68), in unsigned decimal (log 14). -/
def readRange (cs : List Char) : Option (Nat × Nat) :=
  let lo := cs.takeWhile (fun c => c != '.')
  match cs.dropWhile (fun c => c != '.') with
  | '.' :: '.' :: hi =>
    match readNat decDigit 10 lo, readNat decDigit 10 hi with
    | some a, some b => some (a, b)
    | _, _ => none
  | _ => none

/-- The directives of R68. -/
inductive Directive where
  | reset
  | poll
  | pollEach
  deriving DecidableEq, Repr

/-- The directive a word spells (R68). -/
def readDirective (word : List Char) : Option Directive :=
  if word = ['R', 'E', 'S', 'E', 'T'] then some .reset
  else if word = ['P', 'O', 'L', 'L'] then some .poll
  else if word = ['P', 'O', 'L', 'L', '_', 'E', 'A', 'C', 'H'] then some .pollEach
  else none

/-- A directive as actions of the environment (R68); a clock value is written in unsigned decimal (log 14). -/
def runDirective (d : Directive) (ops : List (List Char)) : Except AsmError (List Input) :=
  match d, ops with
  | .reset, [] => .ok [.reset]
  | .reset, _ :: _ => .error .operandCount
  | .poll, [p] =>
    match readNat decDigit 10 p with
    | some t => .ok [.poll t]
    | none => .error .badOperand
  | .pollEach, [p] =>
    match readRange p with
    | some (a, b) => .ok ((List.range' a (b + 1 - a)).map .poll)
    | none => .error .badOperand
  | .poll, _ => .error .operandCount
  | .pollEach, _ => .error .operandCount

/-- A line without its comment and the blanks at its ends (R65, log 11). -/
def lineText (line : List Char) : List Char := trimBlanks (stripComment line)

/-- The first word of a line: its mnemonic, pseudo-command or directive (R65). -/
def lineWord (line : List Char) : List Char := (lineText line).takeWhile (fun c => !isBlank c)

/-- The operands of a line: what stands between the commas after the first word (R65). -/
def lineOperands (line : List Char) : List (List Char) :=
  let rest := trimBlanks ((lineText line).dropWhile (fun c => !isBlank c))
  if rest.isEmpty then [] else (splitCommas rest).map trimBlanks

/-- One line of a program: a command is presented to the block (R54), a directive is what it stands for, and a line
that is blank or a comment is nothing. -/
def assembleLine (n : Nat) (line : List Char) : Except AsmError (List Input) :=
  if (lineText line).isEmpty then .ok []
  else match assembleCommand n (lineWord line) (lineOperands line) with
    | some (.ok i) => .ok [.present (encodeCommand n i)]
    | some (.error e) => .error e
    | none =>
      match readDirective (lineWord line) with
      | some d => runDirective d (lineOperands line)
      | none => .error .unknownMnemonic

/-- A program, one line after the other (R65, R68). The host does not wait for a line's command to be accepted before
it presents the next (log 15), nor before a RESET that follows: the Reset comes first and the command is performed
after it (log 16). Both are DESIGN CHOICE. -/
def assembleProgram (n : Nat) : List (List Char) → Except AsmError (List Input)
  | [] => .ok []
  | l :: ls =>
    match assembleLine n l, assembleProgram n ls with
    | .ok a, .ok b => .ok (a ++ b)
    | .error e, _ => .error e
    | _, .error e => .error e

end Sys2Proof.Machine
end

