-- ==== Sys2Proof/Machine/Ports.lean ====
section
/-! DEFINITION. The output ports as functions of the state (R39), and the register bits a realisation shows
(R21, R26). ERR, ERR_CAUSE, RES_X and RES_Y are the registers of those names. -/

namespace Sys2Proof.Machine

/-- The bit of `DIR` (R21). -/
def dirBit : Dir → BitVec 1
  | .rev => 0
  | .fwd => 1

/-- The bit of `MODE` (R26). -/
def modeBit : Mode → BitVec 1
  | .idle => 0
  | .run => 1

/-- `BUSY` (R26). -/
def busy (s : State) : Bool := decide (s.mode = .run)

/-- `CMD_READY = not BUSY` (R26, R39). -/
def cmdReady (s : State) : Bool := !busy s

/-- `CMD_VALID` (R38). -/
def cmdValid (s : State) : Bool := s.port.isSome

/-- `OUT_a_DRIVEN` (R39). -/
def outDriven (s : State) (a : Axis) : Bool := (s.axis a).out.isSome

/-- The levels on the motor pins of an axis. Until its first advance they are whatever the external GPIO collaborator
holds (R136), here the argument `held`, which nothing constrains. -/
def pinLevels (s : State) (a : Axis) (held : PinWord) : PinWord := ((s.axis a).out).getD held

/-- A signed register on a POS_BITS-wide port (R28, R39): the value itself where it fits (R28's premise), else its low
POS_BITS bits, a DESIGN CHOICE the spec leaves open (log 13). -/
def posPort (s : State) (v : Int) : BitVec s.cfg.posBits := BitVec.ofInt s.cfg.posBits v

/-- `POS_X_OUT`, at all times (R28, R111). -/
def posXOut (s : State) : BitVec s.cfg.posBits := posPort s s.posX

/-- `POS_Y_OUT`, at all times (R28, R111). -/
def posYOut (s : State) : BitVec s.cfg.posBits := posPort s s.posY

/-- `RES_X` on its port (R33, R39). -/
def resXOut (s : State) : BitVec s.cfg.posBits := posPort s s.resX

/-- `RES_Y` on its port (R33, R39). -/
def resYOut (s : State) : BitVec s.cfg.posBits := posPort s s.resY

end Sys2Proof.Machine
end

