-- ==== Sys2Proof/Safety.lean ====
section
/-! DEFINITION. What claims are stated in: the invariant of the reachable states (R34), the register widths of a
realisation (R40), reachability (R135), and the rules' own formulas for a step, a plan and a duration, written
apart from the machine's definitions. -/

namespace Sys2Proof.Machine

/-! Reading an outcome. -/

/-- The next state, where there is one. -/
def nextState? (r : Result) : Option State :=
  match r with
  | .next s => some s
  | .fault _ => none
  | .refused _ => none

/-- The fault, where there is one. -/
def fault? (r : Result) : Option Fault :=
  match r with
  | .next _ => none
  | .fault f => some f
  | .refused _ => none

/-- The refusal, where there is one. -/
def refusal? (r : Result) : Option Refusal :=
  match r with
  | .next _ => none
  | .fault _ => none
  | .refused f => some f

/-! The invariant of the reachable states. -/

/-- The invariants of one axis's registers (R34 items 1, 2, 6, 7, 8; R23). -/
structure AxisInv (c : Config) (a : Axis) (r : AxisRegs) : Prop where
  /-- R34 item 1 -/
  index_lt : r.stepIndex < stepsPerRev c a
  /-- R34 item 2 -/
  delay_range : ∀ d, r.stepDelay = some d → 1 ≤ d ∧ d ≤ 60000
  /-- R34 item 6 -/
  left_delay : 1 ≤ r.left → r.stepDelay ≠ none
  /-- R34 item 7 -/
  out_some : ∀ v, r.out = some v → v = romRead c (winding c a) (r.stepIndex % 4)
  /-- R34 item 8 -/
  out_none : r.out = none → r.stepIndex = 0 ∧ r.lastStepTime = 0
  /-- R23: the register holds TIME_BITS bits -/
  time_lt : r.lastStepTime < 2 ^ c.timeBits

/-- The registers while an arc runs (R30, R106 to R110): the segment now running is one of the arc's, the pending
change is its delta, and every later segment passes its plan check. -/
structure ArcRunning (s : State) : Prop where
  inc_pos : 1 ≤ s.arc.inc
  k_pos : 1 ≤ s.arc.k
  k_le : s.arc.k ≤ s.arc.kmax
  kmax_eq : s.arc.kmax = arcCount s.arc.startAngle s.arc.endAngle s.arc.inc
  pending : (s.pendX, s.pendY) = arcDelta s s.arc.k
  planned : ∀ j, s.arc.k < j → j ≤ s.arc.kmax → ∃ speeds, planCheck s.maxSpeed (arcDelta s j) = .ok speeds

/-- The status registers report success or a cause a command can raise (R116 to R120); MAJOR_ZERO is none of them
(R115). -/
def reportLegal (err : ErrCode) (cause : CauseCode) : Prop :=
  (err = 0 ∧ cause = 0) ∨ ∃ c : Cause, c ≠ .majorZero ∧ err = errCode (causeKind c) ∧ cause = causeCode c

/-- The invariant of every reachable state (R34), with the arc's and the report's. -/
structure State.Inv (s : State) : Prop where
  /-- a machine exists (R122) -/
  config : s.cfg.check = none
  axes : ∀ a, AxisInv s.cfg a (s.axis a)
  /-- R34 item 3, with the delay a top speed gives (R97) -/
  maxSpeed : ∀ m, s.maxSpeed = some m → 1 ≤ m ∧ ∀ a, 1 ≤ delay s.cfg a m ∧ (s.axis a).stepDelay ≠ none
  /-- R34 item 4 -/
  idle : s.mode = .idle → s.x.left = 0 ∧ s.y.left = 0 ∧ s.arc.active = false ∧ s.pendX = 0 ∧ s.pendY = 0
  /-- R34 item 5; a started move has been accepted without an error (R125) -/
  run : s.mode = .run → 1 ≤ s.x.left + s.y.left ∧ s.err = 0 ∧ s.errCause = 0
  /-- the arc registers are cleared when no arc runs (R91) -/
  arcOff : s.arc.active = false → s.arc = ArcRegs.cleared
  arcOn : s.arc.active = true → ArcRunning s
  report : reportLegal s.err s.errCause

/-! Widths of a realisation. -/

/-- `IDX_BITS_a` (R20). -/
def idxBits (n : Nat) : Nat := max 1 (Nat.clog 2 n)

/-- Every register whose width does not rest on a premise fits the width of R40: the step index, the delay and the
top speed, the time, the counts, the arc registers. -/
structure State.FitsWidths (s : State) : Prop where
  index : ∀ a, (s.axis a).stepIndex < 2 ^ idxBits (stepsPerRev s.cfg a)
  delay : ∀ a d, (s.axis a).stepDelay = some d → d < 2 ^ 16
  time : ∀ a, (s.axis a).lastStepTime < 2 ^ s.cfg.timeBits
  left : ∀ a, (s.axis a).left < 2 ^ (s.cfg.operandBits + 1)
  maxSpeed : ∀ m, s.maxSpeed = some m → m < 2 ^ 16
  radius : operandFits s.cfg.operandBits s.arc.radius = true
  startAngle : operandFits s.cfg.operandBits s.arc.startAngle = true
  endAngle : operandFits s.cfg.operandBits s.arc.endAngle = true
  inc : operandFits s.cfg.operandBits s.arc.inc = true
  k : s.arc.k < 2 ^ (s.cfg.operandBits + 1)
  kmax : s.arc.kmax < 2 ^ (s.cfg.operandBits + 1)

/-- The premise of a claim about the widths under a `PROJECT` argument: no component of a projection is longer than
the radius, which R25 takes for granted where it sizes LEFT. -/
def ProjectionBounded (c : Config) : Prop :=
  ∀ r v, (project c r v).1.natAbs ≤ r.natAbs ∧ (project c r v).2.natAbs ≤ r.natAbs

/-- The premise of a claim about a realisation's position registers (R28, D6). -/
def positionsFit (s : State) : Bool :=
  operandFits s.cfg.posBits s.posX && operandFits s.cfg.posBits s.posY

/-! Reachability. -/

/-- The states of a run: construction with a legal configuration (R135) and any script of the environment, then any
number of steps. -/
inductive Reachable : State → Prop where
  | constructed (c : Config) (port : Option Command) (inputs : List Input) (legal : c.check = none) :
      Reachable { State.initial c with port := port, inputs := inputs }
  | stepped (s t : State) (before : Reachable s) (stepped : step s = .next t) : Reachable t

/-- The environment keeps the clock duty in the next step (R139). -/
def clockDutyKept (s : State) : Prop :=
  ∀ t rest, s.inputs = .poll t :: rest → ∀ c, s.clockSeen = some c → c ≤ t

/-! The rules' formulas. -/

/-- The time since an axis's last advance, modulo 2^TIME_BITS (R78). -/
def gap (c : Config) (now : Nat) (r : AxisRegs) : Int := ((now : Int) - r.lastStepTime) % 2 ^ c.timeBits

/-- The axis advances in a Poll that shows the clock value `now` (R78, R89). -/
def due (c : Config) (now : Nat) (r : AxisRegs) : Bool :=
  match r.stepDelay with
  | none => false
  | some d => decide (1 ≤ r.left ∧ (d : Int) ≤ gap c now r)

/-- +1 forward, −1 reverse (R80). -/
def dirSign : Dir → Int
  | .fwd => 1
  | .rev => -1

/-- The index one step on, modulo N_a (R81, R82). -/
def steppedIndex (c : Config) (a : Axis) (r : AxisRegs) : Nat :=
  ((r.stepIndex + dirSign r.dir) % (stepsPerRev c a : Int)).toNat

/-- The word of the index one step on: the row of its phase in the axis's table (R79, R80). -/
def steppedWord (c : Config) (a : Axis) (r : AxisRegs) : PinWord :=
  romRead c (winding c a) (steppedIndex c a r % 4)

/-- The registers of an axis after one step (R80, R89). -/
def steppedAxis (c : Config) (a : Axis) (now : Nat) (r : AxisRegs) : AxisRegs :=
  { r with
    stepIndex := steppedIndex c a r
    lastStepTime := now
    out := some (steppedWord c a r)
    left := r.left - 1 }

/-- The registers of an axis after a Poll, before the segment's end is looked at (R83, R89). -/
def polledAxis (c : Config) (a : Axis) (now : Nat) (r : AxisRegs) : AxisRegs :=
  if due c now r then steppedAxis c a now r else r

/-- The events a Poll adds for an axis: one where it advances, else none (R14, R89). -/
def polledEvents (c : Config) (a : Axis) (now : Nat) (r : AxisRegs) : List TraceEvent :=
  if due c now r then [.emit a (steppedWord c a r) now] else []

/-- The state a Poll of a running move leaves before the segment's end is looked at: Y's event before X's, the clock
value seen, nothing else (R89, R140). -/
def polled (t : Nat) (s : State) : State :=
  { s with
    x := polledAxis s.cfg .x (t % 2 ^ s.cfg.timeBits) s.x
    y := polledAxis s.cfg .y (t % 2 ^ s.cfg.timeBits) s.y
    clockSeen := some t
    trace := s.trace ++ polledEvents s.cfg .y (t % 2 ^ s.cfg.timeBits) s.y
      ++ polledEvents s.cfg .x (t % 2 ^ s.cfg.timeBits) s.x }

/-- The speed of an axis in a coordinated move: none where it does not move, the top speed where it is the longer
one or as long, else the truncated ratio (R101, R102). -/
def plannedSpeed (m mine other : Nat) : Option Nat :=
  if mine = 0 then none else if other ≤ mine then some m else some (m * mine / other)

/-- The registers of an axis at the start of a coordinated move of `count` steps beside `other` steps of the other
axis (R87, R88, R102, R103). -/
def plannedAxis (c : Config) (a : Axis) (m : Nat) (count other : Int) (r : AxisRegs) : AxisRegs :=
  { r with
    dir := if 0 < count then .fwd else if count < 0 then .rev else r.dir
    left := count.natAbs
    stepDelay :=
      match plannedSpeed m count.natAbs other.natAbs with
      | none => r.stepDelay
      | some v => some (60000 / stepsPerRev c a / v) }

/-- The plan of a delta at top speed `m` passes: the minor axis does not move, or its truncated speed is at least 1
(R102). -/
def planPasses (m : Nat) (d : Delta) : Prop :=
  min d.1.natAbs d.2.natAbs = 0 ∨ max d.1.natAbs d.2.natAbs ≤ m * min d.1.natAbs d.2.natAbs

/-- What the Accept of a coordinated straight move by `d` answers (R100 to R103, R105): the two errors, the empty move
in a state a run reaches, and the start of the move. -/
structure StraightMoveRule (s : State) (d : Delta) (r : Result) : Prop where
  unset : s.maxSpeed = none → r = .next { s with err := 1, errCause := 4 }
  tooSlow : ∀ m, s.maxSpeed = some m → 1 ≤ m → ¬ planPasses m d → r = .next { s with err := 1, errCause := 5 }
  empty : ∀ m, s.maxSpeed = some m → d = (0, 0) → s.Inv → s.mode = .idle →
    r = .next { s with err := 0, errCause := 0 }
  start : ∀ m, s.maxSpeed = some m → 1 ≤ m → d ≠ (0, 0) → planPasses m d →
    r = .next { s with
      x := plannedAxis s.cfg .x m d.1 d.2 s.x
      y := plannedAxis s.cfg .y m d.2 d.1 s.y
      mode := .run
      pendX := d.1
      pendY := d.2
      err := 0
      errCause := 0 }

/-- The reports a command can leave: success, or a cause of its row in R120 (codes of R116 to R119). -/
def reportsOf : Instr → List (ErrCode × CauseCode)
  | .init _ => [(0, 0), (1, 1), (1, 2)]
  | .moveX _ => [(0, 0), (1, 3)]
  | .moveY _ => [(0, 0), (1, 3)]
  | .linearTo _ _ _ _ => [(0, 0), (1, 4), (1, 5)]
  | .polarTo _ _ => [(0, 0), (1, 4), (1, 5)]
  | .circularArc _ _ _ _ => [(0, 0), (1, 4), (1, 5), (2, 2)]
  | .readPos => [(0, 0)]
  | .setSpeed _ _ => [(0, 0), (1, 1), (1, 2), (3, 2)]
  | .runMove _ _ => [(0, 0), (1, 3)]
  | .reserved0 => [(3, 1)]
  | .reservedA => [(3, 1)]
  | .reservedB => [(3, 1)]
  | .reservedC => [(3, 1)]
  | .reservedD => [(3, 1)]
  | .reservedE => [(3, 1)]
  | .reservedF => [(3, 1)]

/-- The reserved instructions (R61). -/
def isReserved : Instr → Bool
  | .init _ => false
  | .moveX _ => false
  | .moveY _ => false
  | .linearTo _ _ _ _ => false
  | .polarTo _ _ => false
  | .circularArc _ _ _ _ => false
  | .readPos => false
  | .setSpeed _ _ => false
  | .runMove _ _ => false
  | .reserved0 => true
  | .reservedA => true
  | .reservedB => true
  | .reservedC => true
  | .reservedD => true
  | .reservedE => true
  | .reservedF => true

/-- The commands that write a step delay (R142): SET_SPEED, INIT and the planned moves. -/
def writesSpeed : Instr → Bool
  | .init _ => true
  | .moveX _ => false
  | .moveY _ => false
  | .linearTo _ _ _ _ => true
  | .polarTo _ _ => true
  | .circularArc _ _ _ _ => true
  | .readPos => false
  | .setSpeed _ _ => true
  | .runMove _ _ => false
  | .reserved0 => false
  | .reservedA => false
  | .reservedB => false
  | .reservedC => false
  | .reservedD => false
  | .reservedE => false
  | .reservedF => false

/-- An operand text is a literal of a value in the range of an `n`-bit port (R56, R66). -/
def OperandText (n : Nat) (text : List Char) (v : Int) : Prop := readInt text = some v ∧ operandFits n v = true

/-- The axis select of SET_SPEED: `X` for 0, `Y` for 1, or a raw integer (R66). -/
def AxisText (n : Nat) (text : List Char) (v : Int) : Prop :=
  (text = ['X'] ∧ v = 0) ∨ (text = ['Y'] ∧ v = 1 ∧ operandFits n 1 = true) ∨ OperandText n text v

/-- The instruction a mnemonic and its operand texts stand for, in the order of R59, and the expansions of the
pseudo-commands (R65, R66, R67). -/
inductive Assembles (n : Nat) : Mnemonic → List (List Char) → Instr → Prop where
  | init (p v) : OperandText n p v → Assembles n .init [p] (.init v)
  | moveX (p v) : OperandText n p v → Assembles n .moveX [p] (.moveX v)
  | moveY (p v) : OperandText n p v → Assembles n .moveY [p] (.moveY v)
  | linearTo (p q r t x1 y1 x2 y2) : OperandText n p x1 → OperandText n q y1 → OperandText n r x2 →
      OperandText n t y2 → Assembles n .linearTo [p, q, r, t] (.linearTo x1 y1 x2 y2)
  | polarTo (p q r theta) : OperandText n p r → OperandText n q theta → Assembles n .polarTo [p, q] (.polarTo r theta)
  | circularArc (p q r t radius start stop inc) : OperandText n p radius → OperandText n q start →
      OperandText n r stop → OperandText n t inc →
      Assembles n .circularArc [p, q, r, t] (.circularArc radius start stop inc)
  | readPos : Assembles n .readPos [] .readPos
  | setSpeed (p q sel rpm) : AxisText n p sel → OperandText n q rpm → Assembles n .setSpeed [p, q] (.setSpeed sel rpm)
  | runMove (p q ys xs) : OperandText n p ys → OperandText n q xs → Assembles n .runMove [p, q] (.runMove ys xs)
  | runX (p v) : OperandText n p v → Assembles n .runX [p] (.runMove 0 v)
  | runY (p v) : OperandText n p v → Assembles n .runY [p] (.runMove v 0)
  | linearBy (p q dx dy) : OperandText n p dx → OperandText n q dy → Assembles n .linearBy [p, q] (.linearTo 0 0 dx dy)

/-- The number of advances an axis has made of `n`, once Polls at every integer time from `t0` up to but not
including `t0 + polls` are done: they come at `first + j·d` (R148). -/
def advancesMade (t0 polls : Nat) (r : AxisRegs) : Nat :=
  let first := max t0 (r.lastStepTime + r.stepDelay.getD 0)
  if t0 + polls ≤ first then 0 else min r.left ((t0 + polls - 1 - first) / r.stepDelay.getD 0 + 1)

/-- The integer `n` is the real `x` rounded toward zero (R104). -/
def truncates (x : ℝ) (n : Int) : Prop := (0 ≤ x ∧ n = ⌊x⌋) ∨ (x < 0 ∧ n = ⌈x⌉)

/-- The Poll at which an axis with steps left makes its last one, where Polls come at every integer time from `t0`
(R148). -/
def lastAdvance (t0 : Nat) (r : AxisRegs) : Nat :=
  max t0 (r.lastStepTime + r.stepDelay.getD 0) + (r.left - 1) * r.stepDelay.getD 0

/-- The Poll at which a move completes: the last of the last advances of the axes that have steps (R148). -/
def moveEnd (t0 : Nat) (s : State) : Nat :=
  max (if s.x.left = 0 then 0 else lastAdvance t0 s.x) (if s.y.left = 0 then 0 else lastAdvance t0 s.y)

/-- Polls at every integer time from `t0`, `n` of them (R148). -/
def pollsFrom (t0 n : Nat) : List Input := (List.range' t0 n).map Input.poll

end Sys2Proof.Machine
end

