-- ==== Sys2Proof/Certificates/Slice0/Obligations.lean ====
section
/-! DEFINITION. The statements for the provers. Each docstring names the rules it formalises. -/

open Sys2Proof Sys2Proof.Machine

/-! Encoding. -/

/-- Decoding the packed word of any instruction whose operands fit the ports gives the instruction back, at every
operand width (R55, R56, R58, R59). -/
def Obligations.DecodeEncodeRoundTrip : Prop :=
  ∀ (n : Nat) (i : Instr), i.wf n = true → decodePacked n (encode n i) = .ok i

/-- The packed word is {a3, a2, a1, a0, op}: the opcode in bits [3:0], operand k, in two's complement, in the n bits
from 4 + k·n on (R55, R56). -/
def Obligations.PackedWordLayout : Prop :=
  ∀ (n : Nat) (i : Instr),
    encode n i < 2 ^ (4 + 4 * n) ∧
    encode n i % 2 ^ 4 = i.opcode.toNat ∧
    ((encode n i / 2 ^ 4 % 2 ^ n : Nat) : Int) = i.operands.1 % 2 ^ n ∧
    ((encode n i / 2 ^ (4 + n) % 2 ^ n : Nat) : Int) = i.operands.2.1 % 2 ^ n ∧
    ((encode n i / 2 ^ (4 + 2 * n) % 2 ^ n : Nat) : Int) = i.operands.2.2.1 % 2 ^ n ∧
    ((encode n i / 2 ^ (4 + 3 * n) % 2 ^ n : Nat) : Int) = i.operands.2.2.2 % 2 ^ n

/-- Packed words written out in 95_test_vectors.md (programs P1 to P4) decode to the commands they stand for. -/
def Obligations.SpecWordsDecode : Prop :=
  decodePacked 32 0x0000000000000000000000000000000a1 = .ok (.init 10) ∧
  decodePacked 32 0x000000040000000300000000000000004 = .ok (.linearTo 0 0 3 4) ∧
  decodePacked 32 0x00000000000000000000012c000000008 = .ok (.setSpeed 0 300) ∧
  decodePacked 32 0x0000000000000000fffffffe000000009 = .ok (.runMove 0 (-2)) ∧
  decodePacked 32 0x0001000000020000000000000000000a6 = .ok (.circularArc 10 0 131072 65536) ∧
  decodePacked 32 0x00000000000000000000000000000000f = .ok .reservedF

/-- Every operand pattern reads as the signed value of its residue (R56). -/
def Obligations.OperandsReadSigned : Prop :=
  ∀ (n p : Nat),
    -(2 ^ n : Int) ≤ 2 * signed n p ∧ 2 * signed n p < (2 ^ n : Int) ∧ (2 ^ n : Int) ∣ signed n p - p

/-- A port the table of R59 marks "–" has no effect on any state or result (R60): the Accepts are the same; and where a
Reset comes before the Accept, so is the Reset. That the Reset leaves the port as it stands is the model's choice
(log 16). -/
def Obligations.IgnoredOperandsHaveNoEffect : Prop :=
  ∀ (s : State) (c c' : Command), s.mode = .idle → c.op = c'.op →
    (c.op ∈ [0x1#4, 0x2#4, 0x3#4, 0x4#4, 0x5#4, 0x6#4, 0x8#4, 0x9#4] → c.a0 = c'.a0) →
    (c.op ∈ [0x4#4, 0x5#4, 0x6#4, 0x8#4, 0x9#4] → c.a1 = c'.a1) →
    (c.op ∈ [0x4#4, 0x6#4] → c.a2 = c'.a2 ∧ c.a3 = c'.a3) →
    (resetAsserted s = false → step { s with port := some c } = step { s with port := some c' }) ∧
    (resetAsserted s = true → ∀ u, step { s with port := some c } = .next u →
      step { s with port := some c' } = .next { u with port := some c' })

/-- The three pseudo-commands expand to one command each (R67), with every operand text. How an operand text is split
off is the model's choice (log 11). -/
def Obligations.PseudoCommandsExpand : Prop :=
  ∀ (n : Nat) (p q : List Char),
    assembleAs n .runX [p] = assembleAs n .runMove [['0'], p] ∧
    assembleAs n .runY [p] = assembleAs n .runMove [p, ['0']] ∧
    assembleAs n .linearBy [p, q] = assembleAs n .linearTo [['0'], ['0'], p, q]

/-- A line is assembled as its mnemonic and operands say (R59, R65, R66, R67): a line that becomes one presented
command has a word that spells a mnemonic, assembleAs makes a well-formed instruction of its operands, and the
command encodes it and decodes to it; a line whose word spells a mnemonic becomes the command of the instruction
made, or is rejected with its error; the instruction made is exactly the one Assembles gives for each mnemonic; every
mnemonic is spelled by one word; and an operand that is out of range makes the line be rejected. Where blanks may
stand in a line is the model's choice (log 11). -/
def Obligations.AssembledLinesDecode : Prop :=
  (∀ (n : Nat) (line : List Char) (c : Command), assembleLine n line = .ok [.present c] →
    ∃ (m : Mnemonic) (i : Instr), readMnemonic (lineWord line) = some m ∧
      assembleAs n m (lineOperands line) = .ok i ∧ i.wf n = true ∧ c = encodeCommand n i ∧ decodeCommand n c = i) ∧
  (∀ (n : Nat) (line : List Char) (m : Mnemonic), readMnemonic (lineWord line) = some m →
    (∀ i, assembleAs n m (lineOperands line) = .ok i → assembleLine n line = .ok [.present (encodeCommand n i)]) ∧
    (∀ e, assembleAs n m (lineOperands line) = .error e → assembleLine n line = .error e)) ∧
  (∀ (n : Nat) (m : Mnemonic) (ops : List (List Char)) (i : Instr),
    assembleAs n m ops = .ok i ↔ Assembles n m ops i) ∧
  (∀ (m : Mnemonic) (word : List Char), readMnemonic word = some m ↔ word = m.spelling) ∧
  (∀ (n : Nat) (m : Mnemonic) (ops : List (List Char)) (p : List Char) (v : Int),
    p ∈ ops → readInt p = some v → operandFits n v = false → ∃ e, assembleAs n m ops = .error e)

/-! The step. -/

/-- Where a legal block is IDLE, a command stands on the port and no Reset is asserted, the step is the Accept of the
decoded command, the port being freed; so it is for the command that encodes a well-formed instruction (R54, R58).
That the step takes the Accept before a Poll or a move of the host is the model's choice (log 2). -/
def Obligations.StepRunsDecodedCommand : Prop :=
  ∀ (s : State), s.cfg.check = none → s.mode = .idle → resetAsserted s = false →
    (∀ c : Command, s.port = some c →
      step s = exec (decodeCommand s.cfg.operandBits c) { s with port := none }) ∧
    (∀ i : Instr, i.wf s.cfg.operandBits = true → s.port = some (encodeCommand s.cfg.operandBits i) →
      step s = exec i { s with port := none })

/-- Accept happens exactly when CMD_VALID = 1 and CMD_READY = 1, that is, when MODE = IDLE (R54), unless a Reset,
enabled in every state, is asserted (R134). That a step's first act is otherwise the Accept, where both hold, is the
model's choice (log 2). -/
def Obligations.AcceptNeedsValidAndReady : Prop :=
  ∀ (s : State),
    ((fetch s).isSome = true ↔ cmdValid s = true ∧ cmdReady s = true ∧ ¬ ∃ rest, s.inputs = .reset :: rest) ∧
    (cmdReady s = true ↔ s.mode = .idle) ∧
    (busy s = true ↔ s.mode = .run)

/-- A presented command is accepted once: with the port free and the block IDLE, presenting it and the step after are
its Accept, unless a Reset comes next, and the port is free again (R54). The port as a slot that the Accept empties
is the model's choice (log 2). -/
def Obligations.PresentedCommandAcceptedOnce : Prop :=
  ∀ (s : State) (c : Command) (rest : List Input),
    s.cfg.check = none → s.mode = .idle → s.port = none → s.inputs = .present c :: rest →
    step s = .next { s with port := some c, inputs := rest } ∧
    ((∀ later, rest ≠ .reset :: later) →
      step { s with port := some c, inputs := rest }
        = exec (decodeCommand s.cfg.operandBits c) { s with inputs := rest })

/-- While MODE = RUN a command on the port has no effect and stays there: the Poll does the same whatever stands on
the port (R93). The port as a field of State is the model's choice (log 2). -/
def Obligations.HeldCommandHasNoEffect : Prop :=
  ∀ (s u : State) (t : Nat) (rest : List Input) (p : Option Command),
    s.mode = .run → s.inputs = .poll t :: rest → step s = .next u →
    u.port = s.port ∧ step { s with port := p } = .next { u with port := p }

/-- A configuration with a step count below 1 or a winding width that is not 2 or 4 has no machine: construction is
refused by a cause that applies, and so is every step; every other is constructed (R5, R122, R135). Which cause is named
where several apply is the model's choice (log 7); the claim leaves it open. -/
def Obligations.IllegalConfigurationsRefused : Prop :=
  ∀ (c : Config),
    ((1 ≤ c.stepsX ∧ 1 ≤ c.stepsY ∧ (c.windingX = 2 ∨ c.windingX = 4) ∧ (c.windingY = 2 ∨ c.windingY = 4)) →
      construct c = .ok (State.initial c)) ∧
    (¬ (1 ≤ c.stepsX ∧ 1 ≤ c.stepsY ∧ (c.windingX = 2 ∨ c.windingX = 4) ∧ (c.windingY = 2 ∨ c.windingY = 4)) →
      (((c.stepsX < 1 ∨ c.stepsY < 1) ∧ construct c = .error .stepsPerRevInvalid) ∨
        (¬ ((c.windingX = 2 ∨ c.windingX = 4) ∧ (c.windingY = 2 ∨ c.windingY = 4)) ∧
          construct c = .error .windingUnsupported)) ∧
      (∀ s : State, s.cfg = c →
        ((c.stepsX < 1 ∨ c.stepsY < 1) ∧ step s = .refused .stepsPerRevInvalid) ∨
        (¬ ((c.windingX = 2 ∨ c.windingX = 4) ∧ (c.windingY = 2 ∨ c.windingY = 4)) ∧
          step s = .refused .windingUnsupported)))

/-- No transition changes the configuration (R35). That State carries the configuration is the model's choice (log
1). -/
def Obligations.ConfigurationNeverChanges : Prop :=
  ∀ (s u : State), step s = .next u → u.cfg = s.cfg

/-! Speed. -/

/-- The delay function (R77). That it is 0 exactly there, and does not increase, are sentences R77 marks as derived. -/
def Obligations.DelayFunction : Prop :=
  ∀ (c : Config) (a : Axis) (rpm : Nat), 1 ≤ stepsPerRev c a → 1 ≤ rpm →
    delay c a rpm = 60000 / stepsPerRev c a / rpm ∧
    delay c a rpm = 60000 / (stepsPerRev c a * rpm) ∧
    delay c a rpm ≤ 60000 ∧
    (delay c a rpm = 0 ↔ 60000 < stepsPerRev c a * rpm) ∧
    ∀ rpm', rpm ≤ rpm' → delay c a rpm' ≤ delay c a rpm

/-- SET_SPEED (R75, R76): its encoding, its three errors in their order, and its effect. Nothing else changes. -/
def Obligations.SetSpeedRule : Prop :=
  (∀ (n : Nat) (c : Command), c.op = 0x8 → decodeCommand n c = .setSpeed (signed n c.a0) (signed n c.a1)) ∧
  ∀ (s : State) (sel rpm : Int),
    (sel ≠ 0 → sel ≠ 1 → exec (.setSpeed sel rpm) s = .next { s with err := 3, errCause := 2 }) ∧
    ∀ a : Axis, sel = (if a = .x then 0 else 1) →
      (rpm ≤ 0 → exec (.setSpeed sel rpm) s = .next { s with err := 1, errCause := 1 }) ∧
      (0 < rpm → 60000 / stepsPerRev s.cfg a / rpm.toNat = 0 →
        exec (.setSpeed sel rpm) s = .next { s with err := 1, errCause := 2 }) ∧
      (0 < rpm → 60000 / stepsPerRev s.cfg a / rpm.toNat ≠ 0 →
        exec (.setSpeed sel rpm) s = .next { s.setAxis a { s.axis a with
          stepDelay := some (60000 / stepsPerRev s.cfg a / rpm.toNat) } with err := 0, errCause := 0 })

/-- INIT (R97): its encoding, its errors, and its effect on both delays and the top speed. Nothing else changes. -/
def Obligations.InitRule : Prop :=
  (∀ (n : Nat) (c : Command), c.op = 0x1 → decodeCommand n c = .init (signed n c.a0)) ∧
  ∀ (s : State) (m : Int),
    (m ≤ 0 → exec (.init m) s = .next { s with err := 1, errCause := 1 }) ∧
    (0 < m → (60000 / stepsPerRev s.cfg .x / m.toNat = 0 ∨ 60000 / stepsPerRev s.cfg .y / m.toNat = 0) →
      exec (.init m) s = .next { s with err := 1, errCause := 2 }) ∧
    (0 < m → 60000 / stepsPerRev s.cfg .x / m.toNat ≠ 0 → 60000 / stepsPerRev s.cfg .y / m.toNat ≠ 0 →
      exec (.init m) s = .next { s with
        x := { s.x with stepDelay := some (60000 / stepsPerRev s.cfg .x / m.toNat) }
        y := { s.y with stepDelay := some (60000 / stepsPerRev s.cfg .y / m.toNat) }
        maxSpeed := some m.toNat
        err := 0
        errCause := 0 })

/-! The axis stepper. -/

/-- The index updates are ±1 modulo N, and stay in range (R81, R82). -/
def Obligations.IndexUpdateWraps : Prop :=
  ∀ (i n : Nat), i < n →
    incWrap i n = (i + 1) % n ∧ decWrap i n = (i + (n - 1)) % n ∧ incWrap i n < n ∧ decWrap i n < n

/-- The phase machine (R84): ±1 modulo 4 where 4 divides N; at the wrap of any other N the phase jumps between (N −
1) mod 4 and 0. The case of a multiple of 4 is a sentence R84 marks as derived. -/
def Obligations.PhaseMachine : Prop :=
  ∀ (i n : Nat), i < n →
    (n % 4 = 0 → phase (incWrap i n) = (phase i + 1) % 4 ∧ phase (decWrap i n) = (phase i + 3) % 4) ∧
    (phase (incWrap (n - 1) n) = 0 ∧ phase (decWrap 0 n) = (n - 1) % 4) ∧
    (i + 1 < n → phase (incWrap i n) = (phase i + 1) % 4) ∧
    (1 ≤ i → phase (decWrap i n) = (phase i + 3) % 4)

/-- Where 4 divides N, four forward steps from phase 0 emit rows 1, 2, 3, 0 of the axis's own table, and four reverse
steps rows 3, 2, 1, 0, for both windings (R72). -/
def Obligations.FullCycleEmitsTheTable : Prop :=
  ∀ (c : Config) (a : Axis) (r : AxisRegs) (t1 t2 t3 t4 : Nat),
    r.stepIndex < stepsPerRev c a → stepsPerRev c a % 4 = 0 → r.stepIndex % 4 = 0 →
    let r1 := advance c a t1 r
    let r2 := advance c a t2 r1
    let r3 := advance c a t3 r2
    let r4 := advance c a t4 r3
    (r.dir = .fwd → windingWidth c a = 2 →
      [r1.out, r2.out, r3.out, r4.out]
        = [some (.two c.comm2.row1), some (.two c.comm2.row2), some (.two c.comm2.row3), some (.two c.comm2.row0)]) ∧
    (r.dir = .fwd → windingWidth c a = 4 →
      [r1.out, r2.out, r3.out, r4.out]
        = [some (.four c.comm4.row1), some (.four c.comm4.row2), some (.four c.comm4.row3), some (.four c.comm4.row0)]) ∧
    (r.dir = .rev → windingWidth c a = 2 →
      [r1.out, r2.out, r3.out, r4.out]
        = [some (.two c.comm2.row3), some (.two c.comm2.row2), some (.two c.comm2.row1), some (.two c.comm2.row0)]) ∧
    (r.dir = .rev → windingWidth c a = 4 →
      [r1.out, r2.out, r3.out, r4.out]
        = [some (.four c.comm4.row3), some (.four c.comm4.row2), some (.four c.comm4.row1), some (.four c.comm4.row0)])

/-- The default ROM (R69): its words, and the properties of cyclically adjacent rows (R74). In the 2-wire table one
pin changes; in the 4-wire table the two pins of one pair change, the pairs alternating, and each pair is
complementary. The default contents are general knowledge, not of the source (log 9), and R74 marks its properties as
derived. -/
def Obligations.DefaultTableAndItsAdjacentRows : Prop :=
  (List.range 4).map (romRead defaultConfig .twoWire) = [.two 0x2, .two 0x3, .two 0x1, .two 0x0] ∧
  (List.range 4).map (romRead defaultConfig .fourWire) = [.four 0x5, .four 0x6, .four 0xA, .four 0x9] ∧
  ∀ p, p < 4 →
    (commRow defaultConfig.comm2 p ^^^ commRow defaultConfig.comm2 ((p + 1) % 4) = 0b01 ∨
      commRow defaultConfig.comm2 p ^^^ commRow defaultConfig.comm2 ((p + 1) % 4) = 0b10) ∧
    commRow defaultConfig.comm4 p ^^^ commRow defaultConfig.comm4 ((p + 1) % 4)
      = (if p % 2 = 0 then 0b0011 else 0b1100) ∧
    (commRow defaultConfig.comm4 p).getLsbD 0 ≠ (commRow defaultConfig.comm4 p).getLsbD 1 ∧
    (commRow defaultConfig.comm4 p).getLsbD 2 ≠ (commRow defaultConfig.comm4 p).getLsbD 3

/-- The gate measures a gap shorter than the clock's period exactly, across a wrap too; a longer one by its remainder
(R78, R145). -/
def Obligations.GateMeasuresTheGap : Prop :=
  ∀ (bits last t : Nat), last ≤ t →
    elapsed bits (t % 2 ^ bits) (last % 2 ^ bits) = (t - last) % 2 ^ bits ∧
    (t - last < 2 ^ bits → elapsed bits (t % 2 ^ bits) (last % 2 ^ bits) = t - last)

/-! Poll. -/

/-- A Poll in IDLE changes nothing but CLOCK_SEEN (R90). That a free port is a premise is the model's choice: a
presented command is accepted first (log 2). -/
def Obligations.PollInIdleChangesNothing : Prop :=
  ∀ (s : State) (t : Nat) (rest : List Input),
    s.cfg.check = none → s.mode = .idle → s.port = none → s.inputs = .poll t :: rest → clockDutyKept s →
    step s = .next { s with clockSeen := some t, inputs := rest }

/-- The clock duty (R140): a lower clock value is the model fault ClockNotMonotonic, in IDLE and in RUN; any other is
the one seen from then on. That a Poll in IDLE needs a free port is the model's choice (log 2). -/
def Obligations.ClockDutyChecked : Prop :=
  ∀ (s : State) (t : Nat) (rest : List Input),
    s.cfg.check = none → (s.mode = .run ∨ s.port = none) → s.inputs = .poll t :: rest →
    (∀ c, s.clockSeen = some c → t < c → step s = .fault .clockNotMonotonic) ∧
    ((∀ c, s.clockSeen = some c → c ≤ t) →
      step s ≠ .fault .clockNotMonotonic ∧ ∀ u, step s = .next u → u.clockSeen = some t)

/-- A Poll of a running move steps each axis that has steps left and whose gate is open, once, and no other: the
index moves by one, the time is the Poll's, the word is the new index's; one event for each, Y's before X's (R78,
R80, R83, R89). It holds whether or not the move or an arc's segment ends in the Poll. That an event's time is the
clock value modulo 2^TIME_BITS, where R14 writes t, is the model's reading (log 12, DEDUCED). -/
def Obligations.PollStepsTheDueAxes : Prop :=
  ∀ (s : State) (t : Nat) (rest : List Input),
    s.Inv → s.mode = .run → s.inputs = .poll t :: rest → clockDutyKept s →
    ∃ u, step s = .next u ∧ u.trace = (polled t s).trace ∧
      ∀ a, (u.axis a).stepIndex = ((polled t s).axis a).stepIndex ∧
        (u.axis a).lastStepTime = ((polled t s).axis a).lastStepTime ∧
        (u.axis a).out = ((polled t s).axis a).out

/-- Where steps remain after the Poll, the stepped axes count down and nothing else changes (R89). That an event's
time is the clock value modulo 2^TIME_BITS, where R14 writes t, is the model's reading (log 12, DEDUCED). -/
def Obligations.PollWhileStepsRemain : Prop :=
  ∀ (s : State) (t : Nat) (rest : List Input),
    s.Inv → s.mode = .run → s.inputs = .poll t :: rest → clockDutyKept s →
    1 ≤ (polled t s).x.left + (polled t s).y.left →
    step s = .next { polled t s with inputs := rest }

/-- The Poll that uses up the last step adds the pending change to the position (R89, R91). Where the move is no arc,
it is complete: the pending change is cleared, MODE is IDLE, nothing else changes. Where an arc runs and a later
segment has steps, the first such segment starts in the same Poll (R110): both axes get the registers of a planned
move by its delta, their indexes, step times and outputs being those the Poll's steps left; the delta is pending, the
segment's number stands in ARC_K, and MODE stays RUN. Where no later segment has steps, the arc is complete and its
registers are cleared too. That an event's time is the clock value modulo 2^TIME_BITS, where R14 writes t, is the
model's reading (log 12, DEDUCED). -/
def Obligations.PollCompletesTheMove : Prop :=
  ∀ (s : State) (t : Nat) (rest : List Input),
    s.Inv → s.mode = .run → s.inputs = .poll t :: rest → clockDutyKept s →
    (polled t s).x.left + (polled t s).y.left = 0 →
    (s.arc.active = false →
      step s = .next { polled t s with
        posX := s.posX + s.pendX
        posY := s.posY + s.pendY
        pendX := 0
        pendY := 0
        mode := .idle
        inputs := rest }) ∧
    (s.arc.active = true → ∀ m j, s.maxSpeed = some m → s.arc.k < j → j ≤ s.arc.kmax → arcDelta s j ≠ (0, 0) →
      (∀ i, s.arc.k < i → i < j → arcDelta s i = (0, 0)) →
      step s = .next { polled t s with
        x := plannedAxis s.cfg .x m (arcDelta s j).1 (arcDelta s j).2 (polled t s).x
        y := plannedAxis s.cfg .y m (arcDelta s j).2 (arcDelta s j).1 (polled t s).y
        posX := s.posX + s.pendX
        posY := s.posY + s.pendY
        pendX := (arcDelta s j).1
        pendY := (arcDelta s j).2
        arc := { s.arc with k := j }
        inputs := rest }) ∧
    (s.arc.active = true → (∀ j, s.arc.k < j → j ≤ s.arc.kmax → arcDelta s j = (0, 0)) →
      step s = .next { polled t s with
        posX := s.posX + s.pendX
        posY := s.posY + s.pendY
        pendX := 0
        pendY := 0
        arc := ⟨false, 0, 0, 0, 0, 0, 0⟩
        mode := .idle
        inputs := rest })

/-- complete() (R91): the pending change is applied; a running arc goes on with its next segment, any other move and
an arc's last segment end. -/
def Obligations.CompletionRule : Prop :=
  ∀ (s : State), complete s =
    (if s.arc.active = true ∧ s.arc.k < s.arc.kmax then
      arcSegment (s.arc.k + 1) { s with
        posX := s.posX + s.pendX
        posY := s.posY + s.pendY
        pendX := 0
        pendY := 0
        arc := { s.arc with k := s.arc.k + 1 } }
    else
      .ok { s with
        posX := s.posX + s.pendX
        posY := s.posY + s.pendY
        pendX := 0
        pendY := 0
        arc := ⟨false, 0, 0, 0, 0, 0, 0⟩
        mode := .idle })

/-- Within one move the axes are independent: what a Poll does to the stepper of an axis depends on that axis's
registers and the clock alone, and while steps remain so does its count (R92). R92 is marked as derived. -/
def Obligations.AxesAreIndependent : Prop :=
  ∀ (s s' u u' : State) (a : Axis) (t : Nat) (rest rest' : List Input),
    s.Inv → s'.Inv → s.mode = .run → s'.mode = .run → s.cfg = s'.cfg → s.axis a = s'.axis a →
    s.inputs = .poll t :: rest → s'.inputs = .poll t :: rest' →
    step s = .next u → step s' = .next u' →
    (u.axis a).stepIndex = (u'.axis a).stepIndex ∧
    (u.axis a).lastStepTime = (u'.axis a).lastStepTime ∧
    (u.axis a).out = (u'.axis a).out ∧
    (1 ≤ (polled t s).x.left + (polled t s).y.left → 1 ≤ (polled t s').x.left + (polled t s').y.left →
      u.axis a = u'.axis a)

/-- No step writes OUT[a] but an advance of axis a (R96), which writes the word of the new phase (R79, R80), and
Reset, which clears it (R134). -/
def Obligations.OnlyItsAdvanceWritesAnOutput : Prop :=
  ∀ (s u : State) (a : Axis), s.Inv → step s = .next u → (u.axis a).out ≠ (s.axis a).out →
    (fetch s = none ∧ (u.axis a).out = none ∧ ∃ rest, s.inputs = .reset :: rest) ∨
    ∃ t rest, s.inputs = .poll t :: rest ∧ s.mode = .run ∧
      due s.cfg (t % 2 ^ s.cfg.timeBits) (s.axis a) = true ∧
      (u.axis a).out = some (steppedWord s.cfg a (s.axis a))

/-- No Poll reports an error or writes a result (R123, R32). -/
def Obligations.PollReportsNoError : Prop :=
  ∀ (s u : State) (t : Nat) (rest : List Input),
    s.mode = .run ∨ s.port = none → s.inputs = .poll t :: rest → step s = .next u →
    u.err = s.err ∧ u.errCause = s.errCause ∧ u.resX = s.resX ∧ u.resY = s.resY ∧ u.maxSpeed = s.maxSpeed

/-- Every step of a state that meets the invariant has a next state, unless the environment breaks the clock duty: no
command is ever stuck, and no Poll raises a fault of its own (R34, R109, R123). That a step without input answers is
the model's choice (log 3), and that it accepts first (log 2). -/
def Obligations.StepNeverSticks : Prop :=
  ∀ (s : State), s.Inv → (fetch s ≠ none ∨ clockDutyKept s) → ∃ u, step s = .next u

/-! Moves. -/

/-- RUN_MOVE (R85 to R88): its encoding, its error, the empty move, and the start of a move with no position change. -/
def Obligations.RunMoveRule : Prop :=
  (∀ (n : Nat) (c : Command), c.op = 0x9 → decodeCommand n c = .runMove (signed n c.a0) (signed n c.a1)) ∧
  ∀ (s : State) (ys xs : Int),
    ((ys ≠ 0 ∧ s.y.stepDelay = none) ∨ (xs ≠ 0 ∧ s.x.stepDelay = none) →
      exec (.runMove ys xs) s = .next { s with err := 1, errCause := 3 }) ∧
    (ys = 0 → xs = 0 → s.Inv → s.mode = .idle →
      exec (.runMove ys xs) s = .next { s with err := 0, errCause := 0 }) ∧
    ((ys ≠ 0 → s.y.stepDelay ≠ none) → (xs ≠ 0 → s.x.stepDelay ≠ none) → (ys ≠ 0 ∨ xs ≠ 0) →
      exec (.runMove ys xs) s = .next { s with
        y := { s.y with dir := if 0 < ys then .fwd else if ys < 0 then .rev else s.y.dir, left := ys.natAbs }
        x := { s.x with dir := if 0 < xs then .fwd else if xs < 0 then .rev else s.x.dir, left := xs.natAbs }
        pendX := 0
        pendY := 0
        mode := .run
        err := 0
        errCause := 0 })

/-- MOVE_X (R98): its encoding, its error, the empty move, and the start at X's own speed. -/
def Obligations.MoveXRule : Prop :=
  (∀ (n : Nat) (c : Command), c.op = 0x2 → decodeCommand n c = .moveX (signed n c.a0)) ∧
  ∀ (s : State) (l : Int),
    (l ≠ 0 → s.x.stepDelay = none → exec (.moveX l) s = .next { s with err := 1, errCause := 3 }) ∧
    (l = 0 → s.Inv → s.mode = .idle → exec (.moveX l) s = .next { s with err := 0, errCause := 0 }) ∧
    (l ≠ 0 → s.x.stepDelay ≠ none →
      exec (.moveX l) s = .next { s with
        x := { s.x with dir := if 0 < l then .fwd else .rev, left := l.natAbs }
        y := { s.y with left := 0 }
        pendX := l
        pendY := 0
        mode := .run
        err := 0
        errCause := 0 })

/-- MOVE_Y (R99): the same with the axes exchanged. -/
def Obligations.MoveYRule : Prop :=
  (∀ (n : Nat) (c : Command), c.op = 0x3 → decodeCommand n c = .moveY (signed n c.a0)) ∧
  ∀ (s : State) (l : Int),
    (l ≠ 0 → s.y.stepDelay = none → exec (.moveY l) s = .next { s with err := 1, errCause := 3 }) ∧
    (l = 0 → s.Inv → s.mode = .idle → exec (.moveY l) s = .next { s with err := 0, errCause := 0 }) ∧
    (l ≠ 0 → s.y.stepDelay ≠ none →
      exec (.moveY l) s = .next { s with
        y := { s.y with dir := if 0 < l then .fwd else .rev, left := l.natAbs }
        x := { s.x with left := 0 }
        pendX := 0
        pendY := l
        mode := .run
        err := 0
        errCause := 0 })

/-- LINEAR_TO (R100 to R103, R114): its encoding, and the rule of a straight move by (x2 − x1, y2 − y1). -/
def Obligations.LinearToRule : Prop :=
  (∀ (n : Nat) (c : Command), c.op = 0x4 →
    decodeCommand n c = .linearTo (signed n c.a0) (signed n c.a1) (signed n c.a2) (signed n c.a3)) ∧
  ∀ (s : State) (x1 y1 x2 y2 : Int),
    StraightMoveRule s (x2 - x1, y2 - y1) (exec (.linearTo x1 y1 x2 y2) s)

/-- POLAR_TO (R105): its encoding, the rule of a straight move by the projection, the same as the equivalent
LINEAR_TO, and the law of the projection (R104). What a nonzero angle projects to is left open. -/
def Obligations.PolarToRule : Prop :=
  (∀ (n : Nat) (c : Command), c.op = 0x5 → decodeCommand n c = .polarTo (signed n c.a0) (signed n c.a1)) ∧
  ∀ (s : State) (r theta : Int),
    StraightMoveRule s (project s.cfg r theta) (exec (.polarTo r theta) s) ∧
    exec (.polarTo r theta) s
      = exec (.linearTo 0 0 (project s.cfg r theta).1 (project s.cfg r theta).2) s ∧
    project s.cfg r 0 = (r, 0)

/-- The planner's guard (R115): Ratio answers MAJOR_ZERO for a divisor of 0, and no plan ever meets it. -/
def Obligations.MajorZeroNeverReported : Prop :=
  (∀ m minor, ratio m minor 0 = .error .majorZero) ∧
  (∀ m minor major, major ≠ 0 → ratio m minor major = .ok (m * minor / major)) ∧
  ∀ (maxSpeed : Option Nat) (d : Delta), planCheck maxSpeed d ≠ .error .majorZero

/-- After a plan passes at a top speed whose delays are at least 1, every speed it gives is between 1 and the top
speed and has a delay of at least 1, and an axis gets a speed exactly where it moves (R97, R102, R103). R103 marks
this as derived. -/
def Obligations.PlannedSpeedsHaveDelays : Prop :=
  ∀ (c : Config) (m : Nat) (d : Delta) (speeds : Speeds),
    1 ≤ m → 1 ≤ delay c .x m → 1 ≤ delay c .y m → planCheck (some m) d = .ok speeds →
    (speeds.1 = none ↔ d.1 = 0) ∧ (speeds.2 = none ↔ d.2 = 0) ∧
    (∀ v, speeds.1 = some v → 1 ≤ v ∧ v ≤ m ∧ 1 ≤ delay c .x v) ∧
    (∀ v, speeds.2 = some v → 1 ≤ v ∧ v ≤ m ∧ 1 ≤ delay c .y v)

/-! Arcs. -/

/-- The arc's angle schedule (R107). -/
def Obligations.ArcAngleSchedule : Prop :=
  ∀ (s e inc : Int), 1 ≤ inc →
    (arcCount s e inc = 0 ↔ s = e) ∧
    ((e - s).natAbs : Int) ≤ arcCount s e inc * inc ∧
    (s ≠ e → ((arcCount s e inc : Int) - 1) * inc < (e - s).natAbs) ∧
    arcAngle s e inc (arcCount s e inc) 0 = s ∧
    arcAngle s e inc (arcCount s e inc) (arcCount s e inc) = e ∧
    (∀ k, k ≤ arcCount s e inc →
      min s e ≤ arcAngle s e inc (arcCount s e inc) k ∧ arcAngle s e inc (arcCount s e inc) k ≤ max s e) ∧
    (∀ k, k + 1 < arcCount s e inc →
      ((arcAngle s e inc (arcCount s e inc) (k + 1) - arcAngle s e inc (arcCount s e inc) k).natAbs : Int) = inc) ∧
    (∀ k, k + 1 = arcCount s e inc →
      1 ≤ (e - arcAngle s e inc (arcCount s e inc) k).natAbs ∧
      ((e - arcAngle s e inc (arcCount s e inc) k).natAbs : Int) ≤ inc)

/-- The errors of CIRCULAR_ARC in their order, and its encoding; nothing else is written (R106, R109, R121). -/
def Obligations.ArcErrorsRule : Prop :=
  (∀ (n : Nat) (c : Command), c.op = 0x6 →
    decodeCommand n c = .circularArc (signed n c.a0) (signed n c.a1) (signed n c.a2) (signed n c.a3)) ∧
  ∀ (s : State) (r start stop inc : Int),
    (s.maxSpeed = none → exec (.circularArc r start stop inc) s = .next { s with err := 1, errCause := 4 }) ∧
    (s.maxSpeed ≠ none → inc ≤ 0 →
      exec (.circularArc r start stop inc) s = .next { s with err := 2, errCause := 2 }) ∧
    (∀ m k, s.maxSpeed = some m → 1 ≤ m → 1 ≤ inc → 1 ≤ k → k ≤ arcCount start stop inc →
      ¬ planPasses m (segDelta s.cfg r start stop inc (arcCount start stop inc) k) →
      exec (.circularArc r start stop inc) s = .next { s with err := 1, errCause := 5 })

/-- CIRCULAR_ARC whose segments all pass starts the first one that has steps, in its Accept (R106, R108 to R110): the
arc registers hold the arc and the segment's number, both axes are set up as for a straight move by the segment's
delta, and the position has not changed. -/
def Obligations.ArcStartsItsFirstSegment : Prop :=
  ∀ (s : State) (r start stop inc : Int) (m k : Nat),
    let K := arcCount start stop inc
    let D := segDelta s.cfg r start stop inc K
    s.maxSpeed = some m → 1 ≤ m → 1 ≤ inc → (∀ j, 1 ≤ j → j ≤ K → planPasses m (D j)) →
    1 ≤ k → k ≤ K → D k ≠ (0, 0) → (∀ j, 1 ≤ j → j < k → D j = (0, 0)) →
    exec (.circularArc r start stop inc) s = .next { s with
      x := plannedAxis s.cfg .x m (D k).1 (D k).2 s.x
      y := plannedAxis s.cfg .y m (D k).2 (D k).1 s.y
      mode := .run
      pendX := (D k).1
      pendY := (D k).2
      arc := ⟨true, r, start, stop, inc, k, K⟩
      err := 0
      errCause := 0 }

/-- An arc none of whose segments has steps (start angle equal to end angle, or radius 0, or every rounded delta
zero) completes in its Accept and changes nothing but the report (R106). That a radius of 0 gives deltas of 0 is
marked as derived in R106; that it does so under every PROJECT is the model's reading (log 8). -/
def Obligations.EmptyArcCompletes : Prop :=
  ∀ (s : State) (r start stop inc : Int) (m : Nat),
    s.Inv → s.mode = .idle → s.maxSpeed = some m → 1 ≤ inc →
    (start = stop ∨ r = 0 ∨ ∀ j, 1 ≤ j → j ≤ arcCount start stop inc →
      segDelta s.cfg r start stop inc (arcCount start stop inc) j = (0, 0)) →
    exec (.circularArc r start stop inc) s = .next { s with err := 0, errCause := 0 }

/-- While an arc runs the carriage stays on the arc's points (R108): over a Poll the position moves by the difference
of the projected points at which the segment running before and the one running after begin; and when the arc ends,
by the difference to the point of the end angle. R108 marks this as derived. -/
def Obligations.ArcPositionFollowsThePoints : Prop :=
  ∀ (s u : State) (t : Nat) (rest : List Input),
    let P := fun j => project s.cfg s.arc.radius
      (arcAngle s.arc.startAngle s.arc.endAngle s.arc.inc s.arc.kmax j)
    s.Inv → s.mode = .run → s.arc.active = true → s.inputs = .poll t :: rest → step s = .next u →
    (u.arc.active = true → u.mode = .run ∧ s.arc.k ≤ u.arc.k ∧
      u.arc = { s.arc with k := u.arc.k } ∧
      u.posX - s.posX = (P (u.arc.k - 1)).1 - (P (s.arc.k - 1)).1 ∧
      u.posY - s.posY = (P (u.arc.k - 1)).2 - (P (s.arc.k - 1)).2) ∧
    (u.arc.active = false → u.mode = .idle ∧
      u.posX - s.posX = (project s.cfg s.arc.radius s.arc.endAngle).1 - (P (s.arc.k - 1)).1 ∧
      u.posY - s.posY = (project s.cfg s.arc.radius s.arc.endAngle).2 - (P (s.arc.k - 1)).2)

/-- The default projection is the exact real products r·cos θ and r·sin θ rounded toward zero, for every radius and
angle (R104); and every projection keeps the law at angle 0. -/
def Obligations.DefaultProjectionTruncates : Prop :=
  (∀ (c : Config) (r v : Int), c.projection = .truncating →
    truncates (r * Real.cos (v / 2 ^ c.angleFracBits)) (project c r v).1 ∧
    truncates (r * Real.sin (v / 2 ^ c.angleFracBits)) (project c r v).2) ∧
  ∀ (c : Config) (r : Int), project c r 0 = (r, 0)

/-! Position and status. -/

/-- READ_POS (R111): its encoding and its effect; the position ports show the position at all times, where it fits
them (R28, D6), and the result ports what READ_POS copied. -/
def Obligations.ReadPosRule : Prop :=
  (∀ (n : Nat) (c : Command), c.op = 0x7 → decodeCommand n c = .readPos) ∧
  (∀ (s : State),
    exec .readPos s = .next { s with resX := s.posX, resY := s.posY, err := 0, errCause := 0 }) ∧
  ∀ (s : State), positionsFit s = true →
    (posXOut s).toInt = s.posX ∧ (posYOut s).toInt = s.posY ∧
    ∃ u, exec .readPos s = .next u ∧ (resXOut u).toInt = s.posX ∧ (resYOut u).toInt = s.posY

/-- An Accept of a reserved opcode raises IllegalCommand(RESERVED_OPCODE) and makes no other state change, and these
seven opcodes are all that do (R61, R58). -/
def Obligations.ReservedOpcodesAreIllegal : Prop :=
  (∀ (i : Instr) (s : State), isReserved i = true → exec i s = .next { s with err := 3, errCause := 1 }) ∧
  ∀ (n : Nat) (c : Command),
    isReserved (decodeCommand n c) = true ↔
      c.op ∈ [0x0#4, 0xA#4, 0xB#4, 0xC#4, 0xD#4, 0xE#4, 0xF#4]

/-- Errors are precise (R126): after an error every register but ERR and ERR_CAUSE holds what it held, and the trace
has gained no event. R126 is marked as derived. -/
def Obligations.ErrorsArePrecise : Prop :=
  ∀ (i : Instr) (s u : State), exec i s = .next u → u.err ≠ 0 →
    u = { s with err := u.err, errCause := u.errCause }

/-- Each command can report the errors of its row in the matrix of R120, and no other. R120 is marked as derived. -/
def Obligations.ErrorMatrix : Prop :=
  ∀ (i : Instr) (s u : State), exec i s = .next u → (u.err, u.errCause) ∈ reportsOf i

/-- No command writes a pin or samples the clock when its Accept performs it: indexes, times, outputs, trace and
CLOCK_SEEN stay (R13, R123). The function exec is what the Accept does once the handshake has taken the command off the port, as
AcceptNeedsValidAndReady and StepRunsDecodedCommand have it; that from there on it leaves the port and the script
alone is the model's choice (log 2), and so is the configuration in State, which it leaves alone too (log 1). -/
def Obligations.AcceptWritesNoPin : Prop :=
  ∀ (i : Instr) (s u : State), exec i s = .next u →
    u.trace = s.trace ∧ u.clockSeen = s.clockSeen ∧ u.cfg = s.cfg ∧ u.port = s.port ∧ u.inputs = s.inputs ∧
    ∀ a, (u.axis a).stepIndex = (s.axis a).stepIndex ∧
      (u.axis a).lastStepTime = (s.axis a).lastStepTime ∧
      (u.axis a).out = (s.axis a).out

/-- The position changes only when a move or an arc segment completes, that is, in the Poll that uses up its last
step, and by Reset: no Accept changes it, nor a Poll that leaves steps (R112, R134, R143). R143 is marked as derived. -/
def Obligations.PositionChangesOnlyAtCompletion : Prop :=
  ∀ (s u : State), s.Inv → step s = .next u → u.posX ≠ s.posX ∨ u.posY ≠ s.posY →
    (fetch s = none ∧ u.posX = 0 ∧ u.posY = 0 ∧ ∃ rest, s.inputs = .reset :: rest) ∨
    ∃ t rest, s.inputs = .poll t :: rest ∧ s.mode = .run ∧ (polled t s).x.left = 0 ∧ (polled t s).y.left = 0

/-- Of the commands, INIT alone writes MAX_SPEED and READ_POS alone writes RES (R27, R33); and a step that changes
one of them is the Accept of that command, which leaves there what it writes, or a Reset, which clears it (R134). -/
def Obligations.SpecialRegistersHaveOneWriter : Prop :=
  (∀ (i : Instr) (s u : State), exec i s = .next u →
    (u.maxSpeed ≠ s.maxSpeed → ∃ m, i = .init m) ∧
    (u.resX ≠ s.resX ∨ u.resY ≠ s.resY → i = .readPos)) ∧
  ∀ (s u : State), step s = .next u →
    (u.maxSpeed ≠ s.maxSpeed →
      (∃ m, fetch s = some (.init m) ∧ u.maxSpeed = some m.toNat) ∨
      (fetch s = none ∧ u.maxSpeed = none ∧ ∃ rest, s.inputs = .reset :: rest)) ∧
    (u.resX ≠ s.resX ∨ u.resY ≠ s.resY →
      (fetch s = some .readPos ∧ u.resX = s.posX ∧ u.resY = s.posY) ∨
      (fetch s = none ∧ u.resX = 0 ∧ u.resY = 0 ∧ ∃ rest, s.inputs = .reset :: rest))

/-- Speeds persist (R142): a step changes a delay only by accepting SET_SPEED, INIT or a planned move, by starting
the next segment of an arc, or by Reset. R142 is marked as derived. -/
def Obligations.SpeedsPersist : Prop :=
  ∀ (s u : State) (a : Axis), s.Inv → step s = .next u → (u.axis a).stepDelay ≠ (s.axis a).stepDelay →
    (∃ i, fetch s = some i ∧ writesSpeed i = true) ∨
    (∃ t rest, s.inputs = .poll t :: rest ∧ s.mode = .run ∧ s.arc.active = true) ∨
    (fetch s = none ∧ (u.axis a).stepDelay = none ∧ ∃ rest, s.inputs = .reset :: rest)

/-! Whole-machine rules. -/

/-- Reset is enabled in every state, whatever stands on the port: where it is asserted the step sets every register
to the value of R40 and leaves CLOCK_SEEN and the earlier trace (R134, R37). That it leaves the port (log 16) and
the rest of the script (log 2) is the model's choice. -/
def Obligations.ResetSetsEveryRegister : Prop :=
  ∀ (s : State) (rest : List Input),
    s.cfg.check = none → s.inputs = .reset :: rest →
    step s = .next {
      cfg := s.cfg
      x := ⟨0, .fwd, none, 0, none, 0⟩
      y := ⟨0, .fwd, none, 0, none, 0⟩
      mode := .idle
      maxSpeed := none
      posX := 0
      posY := 0
      pendX := 0
      pendY := 0
      arc := ⟨false, 0, 0, 0, 0, 0, 0⟩
      err := 0
      errCause := 0
      resX := 0
      resY := 0
      clockSeen := s.clockSeen
      trace := s.trace ++ [.reset]
      port := s.port
      inputs := rest }

/-- A running move cannot be cancelled (R94): MODE leaves RUN only by Reset, or by the Poll that uses up the last step
of the move, an arc's later segments having none. -/
def Obligations.OnlyCompletionOrResetEndsAMove : Prop :=
  ∀ (s u : State), s.Inv → s.mode = .run → step s = .next u → u.mode = .idle →
    (∃ rest, s.inputs = .reset :: rest) ∨
    ∃ t rest, s.inputs = .poll t :: rest ∧ u.x.left = 0 ∧ u.y.left = 0 ∧
      (polled t s).x.left = 0 ∧ (polled t s).y.left = 0 ∧
      (s.arc.active = true → ∀ j, s.arc.k < j → j ≤ s.arc.kmax → arcDelta s j = (0, 0))

/-- The trace is never rewritten: a step appends to it (R14, R37). -/
def Obligations.TraceOnlyGrows : Prop :=
  ∀ (s u : State), step s = .next u → ∃ events, u.trace = s.trace ++ events

/-- The invariant holds of State.reset and of every state construction leaves, whatever the environment presents
(R34, R40, R135). -/
def Obligations.ConstructionMeetsTheInvariant : Prop :=
  State.reset.Inv ∧ State.reset.FitsWidths ∧
  ∀ (c : Config) (port : Option Command) (inputs : List Input), c.check = none →
    State.Inv { State.initial c with port := port, inputs := inputs } ∧
    State.FitsWidths { State.initial c with port := port, inputs := inputs }

/-- Every step keeps the invariant (R34 with the arc's and the report's), from every state that meets it. -/
def Obligations.StepKeepsTheInvariant : Prop :=
  ∀ (s u : State), s.Inv → step s = .next u → u.Inv

/-- Every step keeps the registers within the widths of a realisation (R40), from every state that meets them and the
invariant, under every projection none of whose components is longer than the radius, which R25 takes for granted;
the default projection is one. -/
def Obligations.StepKeepsTheWidths : Prop :=
  (∀ c : Config, c.projection = .truncating → ProjectionBounded c) ∧
  ∀ (s u : State), s.Inv → s.FitsWidths → ProjectionBounded s.cfg → step s = .next u → u.FitsWidths

/-- The eight invariants of R34 hold in every state a run reaches. R34 marks them as derived. -/
def Obligations.ReachableStatesMeetR34 : Prop :=
  ∀ (s : State), Reachable s →
    (∀ a, (s.axis a).stepIndex < stepsPerRev s.cfg a) ∧
    (∀ a d, (s.axis a).stepDelay = some d → 1 ≤ d ∧ d ≤ 60000) ∧
    (∀ m, s.maxSpeed = some m → 1 ≤ m ∧ s.x.stepDelay ≠ none ∧ s.y.stepDelay ≠ none) ∧
    (s.mode = .idle → s.x.left = 0 ∧ s.y.left = 0 ∧ s.arc.active = false ∧ s.pendX = 0 ∧ s.pendY = 0) ∧
    (s.mode = .run → 1 ≤ s.x.left + s.y.left) ∧
    (∀ a, 1 ≤ (s.axis a).left → (s.axis a).stepDelay ≠ none) ∧
    (∀ a v, (s.axis a).out = some v → v = romRead s.cfg (winding s.cfg a) ((s.axis a).stepIndex % 4)) ∧
    (∀ a, (s.axis a).out = none → (s.axis a).stepIndex = 0 ∧ (s.axis a).lastStepTime = 0)

/-- The duration of a move (R148): with Polls at every integer time from t0, no clock wrap, and no axis's last
advance after t0, each axis makes its advances at f + j·d with f = max(t0, L + d), the move runs until the Poll at
the last of them, and completes in that Poll. R148 is marked as derived. -/
def Obligations.MoveDuration : Prop :=
  ∀ (s : State) (t0 : Nat) (rest : List Input),
    s.Inv → s.mode = .run → s.arc.active = false →
    (∀ c, s.clockSeen = some c → c ≤ t0) → (∀ a, (s.axis a).lastStepTime ≤ t0) →
    moveEnd t0 s < 2 ^ s.cfg.timeBits →
    s.inputs = pollsFrom t0 (moveEnd t0 s + 1 - t0) ++ rest →
    (∀ j, j ≤ moveEnd t0 s - t0 → ∃ u, core.run j s = .next u ∧ u.mode = .run ∧
      ∀ a, (u.axis a).left = (s.axis a).left - advancesMade t0 j (s.axis a)) ∧
    ∃ u, core.run (moveEnd t0 s + 1 - t0) s = .next u ∧ u.mode = .idle ∧
      u.x.left = 0 ∧ u.y.left = 0 ∧
      u.posX = s.posX + s.pendX ∧ u.posY = s.posY + s.pendY ∧ u.inputs = rest
end

