-- ==== Sys2Proof/Laws/Assembler.lean ====
section
/-! SUPPORT. What the assembler's readers and operand shapes answer (R59, R66). -/

namespace Sys2Proof.Machine

/-- An operand is read exactly where its text is a literal in range (R66). -/
theorem readOperand_ok (n : Nat) (p : List Char) (v : Int) : readOperand n p = .ok v ↔ OperandText n p v := by
  unfold readOperand OperandText
  cases readInt p with
  | none => simp
  | some w =>
    simp only [Option.some.injEq]
    split
    · rename_i h
      simp only [Except.ok.injEq]
      exact ⟨fun e => ⟨e, e ▸ h⟩, fun e => e.1⟩
    · rename_i h
      simp only [reduceCtorEq, false_iff]
      rintro ⟨rfl, h'⟩; exact h h'

/-- An axis select is read exactly where its text is `X`, `Y` or a literal in range (R66). -/
theorem readAxis_ok (n : Nat) (p : List Char) (v : Int) : readAxis n p = .ok v ↔ AxisText n p v := by
  have nx : ∀ w, ¬ OperandText n ['X'] w := fun w h => by
    have := h.1
    simp [readInt, readNat, readDigits, decDigit] at this
  have ny : ∀ w, ¬ OperandText n ['Y'] w := fun w h => by
    have := h.1
    simp [readInt, readNat, readDigits, decDigit] at this
  unfold readAxis AxisText
  split
  · simp only [Except.ok.injEq, nx, or_false, true_and]
    constructor
    · rintro rfl; exact .inl rfl
    · rintro (rfl | ⟨h, -⟩)
      · rfl
      · simp at h
  · split
    · rename_i h
      simp only [Except.ok.injEq, ny, or_false, true_and, h, and_true]
      constructor
      · rintro rfl; exact .inr rfl
      · rintro (⟨h, -⟩ | rfl)
        · simp at h
        · rfl
    · rename_i h
      simp only [reduceCtorEq, ny, or_false, false_iff, h, and_false]
      rintro ⟨h, -⟩
      simp at h
  · rename_i h1 h2
    rw [readOperand_ok]
    constructor
    · intro h; exact .inr (.inr h)
    · rintro (⟨rfl, -⟩ | ⟨rfl, -⟩ | h)
      · exact absurd rfl h1
      · exact absurd rfl h2
      · exact h

/-- What a command without operands assembles to. -/
theorem asm0_ok (f : Instr) (ops i) : asm0 f ops = .ok i ↔ ops = [] ∧ i = f := by
  unfold asm0; split <;> simp_all [eq_comm]

/-- What a command of one operand assembles to. -/
theorem asm1_ok (n : Nat) (f : Int → Instr) (ops i) :
    asm1 n f ops = .ok i ↔ ∃ p v, ops = [p] ∧ OperandText n p v ∧ i = f v := by
  unfold asm1
  split
  · rename_i p
    simp only [← readOperand_ok]
    cases h : readOperand n p with
    | error e => simp [Except.map, h]
    | ok v => simp [Except.map, h, eq_comm]
  · rename_i h
    simp only [reduceCtorEq, false_iff]
    rintro ⟨p, v, rfl, -⟩; exact h p rfl

/-- What a command of two operands assembles to, the first read as `F` says. -/
theorem asm2_ok (n : Nat) (first) (F : List Char → Int → Prop) (hF : ∀ p v, first p = .ok v ↔ F p v)
    (f : Int → Int → Instr) (ops i) :
    asm2 n first f ops = .ok i ↔ ∃ p q v w, ops = [p, q] ∧ F p v ∧ OperandText n q w ∧ i = f v w := by
  unfold asm2
  split
  · rename_i p q
    simp only [← readOperand_ok, ← hF]
    cases h : first p <;> cases h2 : readOperand n q <;> simp [h, h2, eq_comm]
  · rename_i h
    simp only [reduceCtorEq, false_iff]
    rintro ⟨p, q, v, w, rfl, -⟩; exact h p q rfl

/-- What a command of four operands assembles to. -/
theorem asm4_ok (n : Nat) (f : Int → Int → Int → Int → Instr) (ops i) :
    asm4 n f ops = .ok i ↔ ∃ p q r t a b c d, ops = [p, q, r, t] ∧ OperandText n p a ∧ OperandText n q b ∧
      OperandText n r c ∧ OperandText n t d ∧ i = f a b c d := by
  unfold asm4
  split
  · rename_i p q r t
    simp only [← readOperand_ok]
    cases h : readOperand n p <;> cases h2 : readOperand n q <;> cases h3 : readOperand n r <;>
      cases h4 : readOperand n t <;> simp [h, h2, h3, h4, eq_comm]
  · rename_i h
    simp only [reduceCtorEq, false_iff]
    rintro ⟨p, q, r, t, a, b, c, d, rfl, -⟩; exact h p q r t rfl

end Sys2Proof.Machine
end

