-- ==== Sys2Proof/Laws/Encoding.lean ====
section
/-! SUPPORT. The operand patterns and the fields of the packed word (R55, R56). -/

namespace Sys2Proof

theorem operandPattern_lt (n : Nat) (v : Int) : operandPattern n v < 2 ^ n := BitVec.isLt _

/-- The pattern of an operand is its residue (R56). -/
theorem operandPattern_eq (n : Nat) (v : Int) : (operandPattern n v : Int) = v % 2 ^ n := by
  have h : (0 : Int) ≤ v % 2 ^ n := Int.emod_nonneg _ (by positivity)
  simp [operandPattern, BitVec.toNat_ofInt, h]

theorem operandFits_iff (n : Nat) (v : Int) :
    operandFits n v = true ↔ -(2 ^ n : Int) ≤ 2 * v ∧ 2 * v < (2 ^ n : Int) := by simp [operandFits]

/-- An operand that fits is read back from its pattern (R56). -/
theorem signed_operandPattern {n : Nat} {v : Int} (h : operandFits n v = true) :
    signed n (operandPattern n v) = v := by
  obtain ⟨h1, h2⟩ := (operandFits_iff n v).mp h
  simp only [signed, operandPattern, BitVec.ofNat_toNat, BitVec.setWidth_eq, BitVec.toInt_ofInt]
  have hp : (0 : Int) < 2 ^ n := by positivity
  rw [Int.bmod_eq_of_le] <;> push_cast <;> omega

/-- The value read from any pattern fits the port (R56). -/
theorem signed_fits (n p : Nat) : operandFits n (signed n p) = true := by
  rw [operandFits_iff]
  unfold signed
  have h1 := BitVec.le_two_mul_toInt (x := BitVec.ofNat n p)
  have h2 := BitVec.two_mul_toInt_lt (x := BitVec.ofNat n p)
  exact ⟨by exact_mod_cast h1, by exact_mod_cast h2⟩

/-- The packed word of a command whose patterns fit is within the format, and each field is where R55 puts it. -/
theorem pack_fields {n : Nat} {c : Command} (h : c.wf n = true) :
    pack n c < 2 ^ (4 + 4 * n) ∧ pack n c % 2 ^ 4 = c.op.toNat ∧ pack n c / 2 ^ 4 % 2 ^ n = c.a0 ∧
      pack n c / 2 ^ (4 + n) % 2 ^ n = c.a1 ∧ pack n c / 2 ^ (4 + 2 * n) % 2 ^ n = c.a2 ∧
      pack n c / 2 ^ (4 + 3 * n) % 2 ^ n = c.a3 := by
  obtain ⟨op, a0, a1, a2, a3⟩ := c
  simp only [Command.wf, decide_eq_true_eq] at h
  obtain ⟨h0, h1, h2, h3⟩ := h
  have hop : op.toNat < 2 ^ 4 := op.isLt
  have hp : 0 < 2 ^ n := by positivity
  have e1 : (2 : Nat) ^ (4 + n) = 2 ^ 4 * 2 ^ n := by rw [pow_add]
  have e2 : (2 : Nat) ^ (4 + 2 * n) = 2 ^ 4 * 2 ^ n * 2 ^ n := by ring
  have e3 : (2 : Nat) ^ (4 + 3 * n) = 2 ^ 4 * 2 ^ n * 2 ^ n * 2 ^ n := by ring
  have e4 : (2 : Nat) ^ (4 + 4 * n) = 2 ^ 4 * (2 ^ n * (2 ^ n * (2 ^ n * 2 ^ n))) := by ring
  have q : ∀ {m x y : Nat}, x < m → (x + m * y) / m = y ∧ (x + m * y) % m = x := by
    intro m x y hx
    have hm : 0 < m := by omega
    exact ⟨by rw [Nat.add_mul_div_left _ _ hm, Nat.div_eq_of_lt hx, Nat.zero_add],
      by rw [Nat.add_mul_mod_self_left, Nat.mod_eq_of_lt hx]⟩
  have lt : ∀ {m k x y : Nat}, x < m → y < k → x + m * y < m * k := by
    intro m k x y hx hy
    calc x + m * y < m + m * y := by omega
      _ = m * (y + 1) := by ring
      _ ≤ m * k := Nat.mul_le_mul_left _ hy
  simp only [pack]
  refine ⟨?_, (q hop).2, ?_, ?_, ?_, ?_⟩
  · rw [e4]; exact lt hop (lt h0 (lt h1 (lt h2 h3)))
  · rw [(q hop).1, (q h0).2]
  · rw [e1, ← Nat.div_div_eq_div_mul, (q hop).1, (q h0).1, (q h1).2]
  · rw [e2, ← Nat.div_div_eq_div_mul, ← Nat.div_div_eq_div_mul, (q hop).1, (q h0).1, (q h1).1, (q h2).2]
  · rw [e3, ← Nat.div_div_eq_div_mul, ← Nat.div_div_eq_div_mul, ← Nat.div_div_eq_div_mul, (q hop).1, (q h0).1,
      (q h1).1, (q h2).1, Nat.mod_eq_of_lt h3]

/-- Unpacking the packed word of a command whose patterns fit gives the command back (R55). -/
theorem unpack_pack {n : Nat} {c : Command} (h : c.wf n = true) : unpack n (pack n c) = c := by
  obtain ⟨_, hop, h0, h1, h2, h3⟩ := pack_fields h
  obtain ⟨op, a0, a1, a2, a3⟩ := c
  simp only [unpack, bitField, pow_zero, Nat.div_one, Command.mk.injEq]
  exact ⟨by rw [hop]; simp, h0, h1, h2, h3⟩

theorem encodeCommand_wf (n : Nat) (i : Instr) : (encodeCommand n i).wf n = true := by
  simp [Command.wf, encodeCommand, operandPattern_lt]

end Sys2Proof
end

