-- ==== Sys2Proof/Laws/State.lean ====
section
/-! SUPPORT. One lemma per field per update of the state, so that no proof unfolds a record update. -/

namespace Sys2Proof.Machine

/-! Reading and writing the registers of an axis. -/

@[simp] theorem axis_x (s : State) : s.axis .x = s.x := rfl
@[simp] theorem axis_y (s : State) : s.axis .y = s.y := rfl
@[simp] theorem setAxis_x (s : State) (r : AxisRegs) : s.setAxis .x r = { s with x := r } := rfl
@[simp] theorem setAxis_y (s : State) (r : AxisRegs) : s.setAxis .y r = { s with y := r } := rfl
@[simp] theorem axis_setAxis_same (s : State) (a : Axis) (r : AxisRegs) : (s.setAxis a r).axis a = r := by
  cases a <;> rfl
theorem axis_setAxis_other (s : State) (a b : Axis) (r : AxisRegs) (h : b ≠ a) :
    (s.setAxis a r).axis b = s.axis b := by
  cases a <;> cases b <;> first | rfl | exact absurd rfl h


/-! `setAxis` -/

@[simp] theorem setAxis_cfg (s : State) (a : Axis) (r : AxisRegs) : (s.setAxis a r).cfg = s.cfg := by cases a <;> rfl
@[simp] theorem setAxis_mode (s : State) (a : Axis) (r : AxisRegs) : (s.setAxis a r).mode = s.mode := by cases a <;> rfl
@[simp] theorem setAxis_maxSpeed (s : State) (a : Axis) (r : AxisRegs) : (s.setAxis a r).maxSpeed = s.maxSpeed := by cases a <;> rfl
@[simp] theorem setAxis_posX (s : State) (a : Axis) (r : AxisRegs) : (s.setAxis a r).posX = s.posX := by cases a <;> rfl
@[simp] theorem setAxis_posY (s : State) (a : Axis) (r : AxisRegs) : (s.setAxis a r).posY = s.posY := by cases a <;> rfl
@[simp] theorem setAxis_pendX (s : State) (a : Axis) (r : AxisRegs) : (s.setAxis a r).pendX = s.pendX := by cases a <;> rfl
@[simp] theorem setAxis_pendY (s : State) (a : Axis) (r : AxisRegs) : (s.setAxis a r).pendY = s.pendY := by cases a <;> rfl
@[simp] theorem setAxis_arc (s : State) (a : Axis) (r : AxisRegs) : (s.setAxis a r).arc = s.arc := by cases a <;> rfl
@[simp] theorem setAxis_err (s : State) (a : Axis) (r : AxisRegs) : (s.setAxis a r).err = s.err := by cases a <;> rfl
@[simp] theorem setAxis_errCause (s : State) (a : Axis) (r : AxisRegs) : (s.setAxis a r).errCause = s.errCause := by cases a <;> rfl
@[simp] theorem setAxis_resX (s : State) (a : Axis) (r : AxisRegs) : (s.setAxis a r).resX = s.resX := by cases a <;> rfl
@[simp] theorem setAxis_resY (s : State) (a : Axis) (r : AxisRegs) : (s.setAxis a r).resY = s.resY := by cases a <;> rfl
@[simp] theorem setAxis_clockSeen (s : State) (a : Axis) (r : AxisRegs) : (s.setAxis a r).clockSeen = s.clockSeen := by cases a <;> rfl
@[simp] theorem setAxis_trace (s : State) (a : Axis) (r : AxisRegs) : (s.setAxis a r).trace = s.trace := by cases a <;> rfl
@[simp] theorem setAxis_port (s : State) (a : Axis) (r : AxisRegs) : (s.setAxis a r).port = s.port := by cases a <;> rfl
@[simp] theorem setAxis_inputs (s : State) (a : Axis) (r : AxisRegs) : (s.setAxis a r).inputs = s.inputs := by cases a <;> rfl

/-! `raise` -/

@[simp] theorem raise_cfg (c : Cause) (s : State) : (raise c s).cfg = s.cfg := rfl
@[simp] theorem raise_x (c : Cause) (s : State) : (raise c s).x = s.x := rfl
@[simp] theorem raise_y (c : Cause) (s : State) : (raise c s).y = s.y := rfl
@[simp] theorem raise_mode (c : Cause) (s : State) : (raise c s).mode = s.mode := rfl
@[simp] theorem raise_maxSpeed (c : Cause) (s : State) : (raise c s).maxSpeed = s.maxSpeed := rfl
@[simp] theorem raise_posX (c : Cause) (s : State) : (raise c s).posX = s.posX := rfl
@[simp] theorem raise_posY (c : Cause) (s : State) : (raise c s).posY = s.posY := rfl
@[simp] theorem raise_pendX (c : Cause) (s : State) : (raise c s).pendX = s.pendX := rfl
@[simp] theorem raise_pendY (c : Cause) (s : State) : (raise c s).pendY = s.pendY := rfl
@[simp] theorem raise_arc (c : Cause) (s : State) : (raise c s).arc = s.arc := rfl
@[simp] theorem raise_err (c : Cause) (s : State) : (raise c s).err = errCode (causeKind c) := rfl
@[simp] theorem raise_errCause (c : Cause) (s : State) : (raise c s).errCause = causeCode c := rfl
@[simp] theorem raise_resX (c : Cause) (s : State) : (raise c s).resX = s.resX := rfl
@[simp] theorem raise_resY (c : Cause) (s : State) : (raise c s).resY = s.resY := rfl
@[simp] theorem raise_clockSeen (c : Cause) (s : State) : (raise c s).clockSeen = s.clockSeen := rfl
@[simp] theorem raise_trace (c : Cause) (s : State) : (raise c s).trace = s.trace := rfl
@[simp] theorem raise_port (c : Cause) (s : State) : (raise c s).port = s.port := rfl
@[simp] theorem raise_inputs (c : Cause) (s : State) : (raise c s).inputs = s.inputs := rfl

/-! `accepted` -/

@[simp] theorem accepted_cfg (s : State) : (accepted s).cfg = s.cfg := rfl
@[simp] theorem accepted_x (s : State) : (accepted s).x = s.x := rfl
@[simp] theorem accepted_y (s : State) : (accepted s).y = s.y := rfl
@[simp] theorem accepted_mode (s : State) : (accepted s).mode = s.mode := rfl
@[simp] theorem accepted_maxSpeed (s : State) : (accepted s).maxSpeed = s.maxSpeed := rfl
@[simp] theorem accepted_posX (s : State) : (accepted s).posX = s.posX := rfl
@[simp] theorem accepted_posY (s : State) : (accepted s).posY = s.posY := rfl
@[simp] theorem accepted_pendX (s : State) : (accepted s).pendX = s.pendX := rfl
@[simp] theorem accepted_pendY (s : State) : (accepted s).pendY = s.pendY := rfl
@[simp] theorem accepted_arc (s : State) : (accepted s).arc = s.arc := rfl
@[simp] theorem accepted_err (s : State) : (accepted s).err = 0 := rfl
@[simp] theorem accepted_errCause (s : State) : (accepted s).errCause = 0 := rfl
@[simp] theorem accepted_resX (s : State) : (accepted s).resX = s.resX := rfl
@[simp] theorem accepted_resY (s : State) : (accepted s).resY = s.resY := rfl
@[simp] theorem accepted_clockSeen (s : State) : (accepted s).clockSeen = s.clockSeen := rfl
@[simp] theorem accepted_trace (s : State) : (accepted s).trace = s.trace := rfl
@[simp] theorem accepted_port (s : State) : (accepted s).port = s.port := rfl
@[simp] theorem accepted_inputs (s : State) : (accepted s).inputs = s.inputs := rfl

/-! `record` -/

@[simp] theorem record_cfg (e : TraceEvent) (s : State) : (record e s).cfg = s.cfg := rfl
@[simp] theorem record_x (e : TraceEvent) (s : State) : (record e s).x = s.x := rfl
@[simp] theorem record_y (e : TraceEvent) (s : State) : (record e s).y = s.y := rfl
@[simp] theorem record_mode (e : TraceEvent) (s : State) : (record e s).mode = s.mode := rfl
@[simp] theorem record_maxSpeed (e : TraceEvent) (s : State) : (record e s).maxSpeed = s.maxSpeed := rfl
@[simp] theorem record_posX (e : TraceEvent) (s : State) : (record e s).posX = s.posX := rfl
@[simp] theorem record_posY (e : TraceEvent) (s : State) : (record e s).posY = s.posY := rfl
@[simp] theorem record_pendX (e : TraceEvent) (s : State) : (record e s).pendX = s.pendX := rfl
@[simp] theorem record_pendY (e : TraceEvent) (s : State) : (record e s).pendY = s.pendY := rfl
@[simp] theorem record_arc (e : TraceEvent) (s : State) : (record e s).arc = s.arc := rfl
@[simp] theorem record_err (e : TraceEvent) (s : State) : (record e s).err = s.err := rfl
@[simp] theorem record_errCause (e : TraceEvent) (s : State) : (record e s).errCause = s.errCause := rfl
@[simp] theorem record_resX (e : TraceEvent) (s : State) : (record e s).resX = s.resX := rfl
@[simp] theorem record_resY (e : TraceEvent) (s : State) : (record e s).resY = s.resY := rfl
@[simp] theorem record_clockSeen (e : TraceEvent) (s : State) : (record e s).clockSeen = s.clockSeen := rfl
@[simp] theorem record_trace (e : TraceEvent) (s : State) : (record e s).trace = s.trace ++ [e] := rfl
@[simp] theorem record_port (e : TraceEvent) (s : State) : (record e s).port = s.port := rfl
@[simp] theorem record_inputs (e : TraceEvent) (s : State) : (record e s).inputs = s.inputs := rfl

/-! `setDelay` -/

@[simp] theorem setDelay_cfg (a : Axis) (d : Nat) (s : State) : (setDelay a d s).cfg = s.cfg := by cases a <;> rfl
@[simp] theorem setDelay_mode (a : Axis) (d : Nat) (s : State) : (setDelay a d s).mode = s.mode := by cases a <;> rfl
@[simp] theorem setDelay_maxSpeed (a : Axis) (d : Nat) (s : State) : (setDelay a d s).maxSpeed = s.maxSpeed := by cases a <;> rfl
@[simp] theorem setDelay_posX (a : Axis) (d : Nat) (s : State) : (setDelay a d s).posX = s.posX := by cases a <;> rfl
@[simp] theorem setDelay_posY (a : Axis) (d : Nat) (s : State) : (setDelay a d s).posY = s.posY := by cases a <;> rfl
@[simp] theorem setDelay_pendX (a : Axis) (d : Nat) (s : State) : (setDelay a d s).pendX = s.pendX := by cases a <;> rfl
@[simp] theorem setDelay_pendY (a : Axis) (d : Nat) (s : State) : (setDelay a d s).pendY = s.pendY := by cases a <;> rfl
@[simp] theorem setDelay_arc (a : Axis) (d : Nat) (s : State) : (setDelay a d s).arc = s.arc := by cases a <;> rfl
@[simp] theorem setDelay_err (a : Axis) (d : Nat) (s : State) : (setDelay a d s).err = s.err := by cases a <;> rfl
@[simp] theorem setDelay_errCause (a : Axis) (d : Nat) (s : State) : (setDelay a d s).errCause = s.errCause := by cases a <;> rfl
@[simp] theorem setDelay_resX (a : Axis) (d : Nat) (s : State) : (setDelay a d s).resX = s.resX := by cases a <;> rfl
@[simp] theorem setDelay_resY (a : Axis) (d : Nat) (s : State) : (setDelay a d s).resY = s.resY := by cases a <;> rfl
@[simp] theorem setDelay_clockSeen (a : Axis) (d : Nat) (s : State) : (setDelay a d s).clockSeen = s.clockSeen := by cases a <;> rfl
@[simp] theorem setDelay_trace (a : Axis) (d : Nat) (s : State) : (setDelay a d s).trace = s.trace := by cases a <;> rfl
@[simp] theorem setDelay_port (a : Axis) (d : Nat) (s : State) : (setDelay a d s).port = s.port := by cases a <;> rfl
@[simp] theorem setDelay_inputs (a : Axis) (d : Nat) (s : State) : (setDelay a d s).inputs = s.inputs := by cases a <;> rfl

/-! `planSpeed` -/

@[simp] theorem planSpeed_cfg (a : Axis) (v : Option Nat) (s : State) : (planSpeed a v s).cfg = s.cfg := by cases v <;> cases a <;> rfl
@[simp] theorem planSpeed_mode (a : Axis) (v : Option Nat) (s : State) : (planSpeed a v s).mode = s.mode := by cases v <;> cases a <;> rfl
@[simp] theorem planSpeed_maxSpeed (a : Axis) (v : Option Nat) (s : State) : (planSpeed a v s).maxSpeed = s.maxSpeed := by cases v <;> cases a <;> rfl
@[simp] theorem planSpeed_posX (a : Axis) (v : Option Nat) (s : State) : (planSpeed a v s).posX = s.posX := by cases v <;> cases a <;> rfl
@[simp] theorem planSpeed_posY (a : Axis) (v : Option Nat) (s : State) : (planSpeed a v s).posY = s.posY := by cases v <;> cases a <;> rfl
@[simp] theorem planSpeed_pendX (a : Axis) (v : Option Nat) (s : State) : (planSpeed a v s).pendX = s.pendX := by cases v <;> cases a <;> rfl
@[simp] theorem planSpeed_pendY (a : Axis) (v : Option Nat) (s : State) : (planSpeed a v s).pendY = s.pendY := by cases v <;> cases a <;> rfl
@[simp] theorem planSpeed_arc (a : Axis) (v : Option Nat) (s : State) : (planSpeed a v s).arc = s.arc := by cases v <;> cases a <;> rfl
@[simp] theorem planSpeed_err (a : Axis) (v : Option Nat) (s : State) : (planSpeed a v s).err = s.err := by cases v <;> cases a <;> rfl
@[simp] theorem planSpeed_errCause (a : Axis) (v : Option Nat) (s : State) : (planSpeed a v s).errCause = s.errCause := by cases v <;> cases a <;> rfl
@[simp] theorem planSpeed_resX (a : Axis) (v : Option Nat) (s : State) : (planSpeed a v s).resX = s.resX := by cases v <;> cases a <;> rfl
@[simp] theorem planSpeed_resY (a : Axis) (v : Option Nat) (s : State) : (planSpeed a v s).resY = s.resY := by cases v <;> cases a <;> rfl
@[simp] theorem planSpeed_clockSeen (a : Axis) (v : Option Nat) (s : State) : (planSpeed a v s).clockSeen = s.clockSeen := by cases v <;> cases a <;> rfl
@[simp] theorem planSpeed_trace (a : Axis) (v : Option Nat) (s : State) : (planSpeed a v s).trace = s.trace := by cases v <;> cases a <;> rfl
@[simp] theorem planSpeed_port (a : Axis) (v : Option Nat) (s : State) : (planSpeed a v s).port = s.port := by cases v <;> cases a <;> rfl
@[simp] theorem planSpeed_inputs (a : Axis) (v : Option Nat) (s : State) : (planSpeed a v s).inputs = s.inputs := by cases v <;> cases a <;> rfl

/-! `setupRun` -/

@[simp] theorem setupRun_cfg (ys xs px py : Int) (s : State) : (setupRun ys xs px py s).cfg = s.cfg := rfl
@[simp] theorem setupRun_x (ys xs px py : Int) (s : State) : (setupRun ys xs px py s).x = setCount xs s.x := rfl
@[simp] theorem setupRun_y (ys xs px py : Int) (s : State) : (setupRun ys xs px py s).y = setCount ys s.y := rfl
@[simp] theorem setupRun_mode (ys xs px py : Int) (s : State) : (setupRun ys xs px py s).mode = s.mode := rfl
@[simp] theorem setupRun_maxSpeed (ys xs px py : Int) (s : State) : (setupRun ys xs px py s).maxSpeed = s.maxSpeed := rfl
@[simp] theorem setupRun_posX (ys xs px py : Int) (s : State) : (setupRun ys xs px py s).posX = s.posX := rfl
@[simp] theorem setupRun_posY (ys xs px py : Int) (s : State) : (setupRun ys xs px py s).posY = s.posY := rfl
@[simp] theorem setupRun_pendX (ys xs px py : Int) (s : State) : (setupRun ys xs px py s).pendX = px := rfl
@[simp] theorem setupRun_pendY (ys xs px py : Int) (s : State) : (setupRun ys xs px py s).pendY = py := rfl
@[simp] theorem setupRun_arc (ys xs px py : Int) (s : State) : (setupRun ys xs px py s).arc = s.arc := rfl
@[simp] theorem setupRun_err (ys xs px py : Int) (s : State) : (setupRun ys xs px py s).err = s.err := rfl
@[simp] theorem setupRun_errCause (ys xs px py : Int) (s : State) : (setupRun ys xs px py s).errCause = s.errCause := rfl
@[simp] theorem setupRun_resX (ys xs px py : Int) (s : State) : (setupRun ys xs px py s).resX = s.resX := rfl
@[simp] theorem setupRun_resY (ys xs px py : Int) (s : State) : (setupRun ys xs px py s).resY = s.resY := rfl
@[simp] theorem setupRun_clockSeen (ys xs px py : Int) (s : State) : (setupRun ys xs px py s).clockSeen = s.clockSeen := rfl
@[simp] theorem setupRun_trace (ys xs px py : Int) (s : State) : (setupRun ys xs px py s).trace = s.trace := rfl
@[simp] theorem setupRun_port (ys xs px py : Int) (s : State) : (setupRun ys xs px py s).port = s.port := rfl
@[simp] theorem setupRun_inputs (ys xs px py : Int) (s : State) : (setupRun ys xs px py s).inputs = s.inputs := rfl

/-! `applyPending` -/

@[simp] theorem applyPending_cfg (s : State) : (applyPending s).cfg = s.cfg := rfl
@[simp] theorem applyPending_x (s : State) : (applyPending s).x = s.x := rfl
@[simp] theorem applyPending_y (s : State) : (applyPending s).y = s.y := rfl
@[simp] theorem applyPending_mode (s : State) : (applyPending s).mode = s.mode := rfl
@[simp] theorem applyPending_maxSpeed (s : State) : (applyPending s).maxSpeed = s.maxSpeed := rfl
@[simp] theorem applyPending_posX (s : State) : (applyPending s).posX = s.posX + s.pendX := rfl
@[simp] theorem applyPending_posY (s : State) : (applyPending s).posY = s.posY + s.pendY := rfl
@[simp] theorem applyPending_pendX (s : State) : (applyPending s).pendX = 0 := rfl
@[simp] theorem applyPending_pendY (s : State) : (applyPending s).pendY = 0 := rfl
@[simp] theorem applyPending_arc (s : State) : (applyPending s).arc = s.arc := rfl
@[simp] theorem applyPending_err (s : State) : (applyPending s).err = s.err := rfl
@[simp] theorem applyPending_errCause (s : State) : (applyPending s).errCause = s.errCause := rfl
@[simp] theorem applyPending_resX (s : State) : (applyPending s).resX = s.resX := rfl
@[simp] theorem applyPending_resY (s : State) : (applyPending s).resY = s.resY := rfl
@[simp] theorem applyPending_clockSeen (s : State) : (applyPending s).clockSeen = s.clockSeen := rfl
@[simp] theorem applyPending_trace (s : State) : (applyPending s).trace = s.trace := rfl
@[simp] theorem applyPending_port (s : State) : (applyPending s).port = s.port := rfl
@[simp] theorem applyPending_inputs (s : State) : (applyPending s).inputs = s.inputs := rfl

/-! `finishMove` -/

@[simp] theorem finishMove_cfg (s : State) : (finishMove s).cfg = s.cfg := rfl
@[simp] theorem finishMove_x (s : State) : (finishMove s).x = s.x := rfl
@[simp] theorem finishMove_y (s : State) : (finishMove s).y = s.y := rfl
@[simp] theorem finishMove_mode (s : State) : (finishMove s).mode = .idle := rfl
@[simp] theorem finishMove_maxSpeed (s : State) : (finishMove s).maxSpeed = s.maxSpeed := rfl
@[simp] theorem finishMove_posX (s : State) : (finishMove s).posX = s.posX := rfl
@[simp] theorem finishMove_posY (s : State) : (finishMove s).posY = s.posY := rfl
@[simp] theorem finishMove_pendX (s : State) : (finishMove s).pendX = s.pendX := rfl
@[simp] theorem finishMove_pendY (s : State) : (finishMove s).pendY = s.pendY := rfl
@[simp] theorem finishMove_arc (s : State) : (finishMove s).arc = ArcRegs.cleared := rfl
@[simp] theorem finishMove_err (s : State) : (finishMove s).err = s.err := rfl
@[simp] theorem finishMove_errCause (s : State) : (finishMove s).errCause = s.errCause := rfl
@[simp] theorem finishMove_resX (s : State) : (finishMove s).resX = s.resX := rfl
@[simp] theorem finishMove_resY (s : State) : (finishMove s).resY = s.resY := rfl
@[simp] theorem finishMove_clockSeen (s : State) : (finishMove s).clockSeen = s.clockSeen := rfl
@[simp] theorem finishMove_trace (s : State) : (finishMove s).trace = s.trace := rfl
@[simp] theorem finishMove_port (s : State) : (finishMove s).port = s.port := rfl
@[simp] theorem finishMove_inputs (s : State) : (finishMove s).inputs = s.inputs := rfl

/-! `consume` -/

@[simp] theorem consume_cfg (s : State) : (consume s).cfg = s.cfg := rfl
@[simp] theorem consume_x (s : State) : (consume s).x = s.x := rfl
@[simp] theorem consume_y (s : State) : (consume s).y = s.y := rfl
@[simp] theorem consume_mode (s : State) : (consume s).mode = s.mode := rfl
@[simp] theorem consume_maxSpeed (s : State) : (consume s).maxSpeed = s.maxSpeed := rfl
@[simp] theorem consume_posX (s : State) : (consume s).posX = s.posX := rfl
@[simp] theorem consume_posY (s : State) : (consume s).posY = s.posY := rfl
@[simp] theorem consume_pendX (s : State) : (consume s).pendX = s.pendX := rfl
@[simp] theorem consume_pendY (s : State) : (consume s).pendY = s.pendY := rfl
@[simp] theorem consume_arc (s : State) : (consume s).arc = s.arc := rfl
@[simp] theorem consume_err (s : State) : (consume s).err = s.err := rfl
@[simp] theorem consume_errCause (s : State) : (consume s).errCause = s.errCause := rfl
@[simp] theorem consume_resX (s : State) : (consume s).resX = s.resX := rfl
@[simp] theorem consume_resY (s : State) : (consume s).resY = s.resY := rfl
@[simp] theorem consume_clockSeen (s : State) : (consume s).clockSeen = s.clockSeen := rfl
@[simp] theorem consume_trace (s : State) : (consume s).trace = s.trace := rfl
@[simp] theorem consume_port (s : State) : (consume s).port = none := rfl
@[simp] theorem consume_inputs (s : State) : (consume s).inputs = s.inputs := rfl

/-! `presenting` -/

@[simp] theorem presenting_cfg (c : Command) (s : State) : (presenting c s).cfg = s.cfg := rfl
@[simp] theorem presenting_x (c : Command) (s : State) : (presenting c s).x = s.x := rfl
@[simp] theorem presenting_y (c : Command) (s : State) : (presenting c s).y = s.y := rfl
@[simp] theorem presenting_mode (c : Command) (s : State) : (presenting c s).mode = .idle := rfl
@[simp] theorem presenting_maxSpeed (c : Command) (s : State) : (presenting c s).maxSpeed = s.maxSpeed := rfl
@[simp] theorem presenting_posX (c : Command) (s : State) : (presenting c s).posX = s.posX := rfl
@[simp] theorem presenting_posY (c : Command) (s : State) : (presenting c s).posY = s.posY := rfl
@[simp] theorem presenting_pendX (c : Command) (s : State) : (presenting c s).pendX = s.pendX := rfl
@[simp] theorem presenting_pendY (c : Command) (s : State) : (presenting c s).pendY = s.pendY := rfl
@[simp] theorem presenting_arc (c : Command) (s : State) : (presenting c s).arc = s.arc := rfl
@[simp] theorem presenting_err (c : Command) (s : State) : (presenting c s).err = s.err := rfl
@[simp] theorem presenting_errCause (c : Command) (s : State) : (presenting c s).errCause = s.errCause := rfl
@[simp] theorem presenting_resX (c : Command) (s : State) : (presenting c s).resX = s.resX := rfl
@[simp] theorem presenting_resY (c : Command) (s : State) : (presenting c s).resY = s.resY := rfl
@[simp] theorem presenting_clockSeen (c : Command) (s : State) : (presenting c s).clockSeen = s.clockSeen := rfl
@[simp] theorem presenting_trace (c : Command) (s : State) : (presenting c s).trace = s.trace := rfl
@[simp] theorem presenting_port (c : Command) (s : State) : (presenting c s).port = some c := rfl
@[simp] theorem presenting_inputs (c : Command) (s : State) :
    (presenting c s).inputs = s.inputs.dropWhile isReset := rfl
theorem presenting_resetAsserted (c : Command) (s : State) : resetAsserted (presenting c s) = false := by
  show resetAsserted { presenting c s with inputs := s.inputs.dropWhile isReset } = false
  induction s.inputs with
  | nil => rfl
  | cons i rest ih =>
    cases h : isReset i
    · simp [resetAsserted, h]
    · simpa [List.dropWhile_cons, h] using ih

/-! `loadPlan` -/

@[simp] theorem loadPlan_cfg (d : Delta) (v : Speeds) (s : State) : (loadPlan d v s).cfg = s.cfg := by simp [loadPlan]
@[simp] theorem loadPlan_mode (d : Delta) (v : Speeds) (s : State) : (loadPlan d v s).mode = s.mode := by simp [loadPlan]
@[simp] theorem loadPlan_maxSpeed (d : Delta) (v : Speeds) (s : State) : (loadPlan d v s).maxSpeed = s.maxSpeed := by simp [loadPlan]
@[simp] theorem loadPlan_posX (d : Delta) (v : Speeds) (s : State) : (loadPlan d v s).posX = s.posX := by simp [loadPlan]
@[simp] theorem loadPlan_posY (d : Delta) (v : Speeds) (s : State) : (loadPlan d v s).posY = s.posY := by simp [loadPlan]
@[simp] theorem loadPlan_pendX (d : Delta) (v : Speeds) (s : State) : (loadPlan d v s).pendX = d.1 := by simp [loadPlan]
@[simp] theorem loadPlan_pendY (d : Delta) (v : Speeds) (s : State) : (loadPlan d v s).pendY = d.2 := by simp [loadPlan]
@[simp] theorem loadPlan_arc (d : Delta) (v : Speeds) (s : State) : (loadPlan d v s).arc = s.arc := by simp [loadPlan]
@[simp] theorem loadPlan_err (d : Delta) (v : Speeds) (s : State) : (loadPlan d v s).err = s.err := by simp [loadPlan]
@[simp] theorem loadPlan_errCause (d : Delta) (v : Speeds) (s : State) : (loadPlan d v s).errCause = s.errCause := by simp [loadPlan]
@[simp] theorem loadPlan_resX (d : Delta) (v : Speeds) (s : State) : (loadPlan d v s).resX = s.resX := by simp [loadPlan]
@[simp] theorem loadPlan_resY (d : Delta) (v : Speeds) (s : State) : (loadPlan d v s).resY = s.resY := by simp [loadPlan]
@[simp] theorem loadPlan_clockSeen (d : Delta) (v : Speeds) (s : State) : (loadPlan d v s).clockSeen = s.clockSeen := by simp [loadPlan]
@[simp] theorem loadPlan_trace (d : Delta) (v : Speeds) (s : State) : (loadPlan d v s).trace = s.trace := by simp [loadPlan]
@[simp] theorem loadPlan_port (d : Delta) (v : Speeds) (s : State) : (loadPlan d v s).port = s.port := by simp [loadPlan]
@[simp] theorem loadPlan_inputs (d : Delta) (v : Speeds) (s : State) : (loadPlan d v s).inputs = s.inputs := by simp [loadPlan]

/-! The registers of an axis after the updates that write them. -/

@[simp] theorem raise_axis (c : Cause) (s : State) (a : Axis) : (raise c s).axis a = s.axis a := by cases a <;> rfl
@[simp] theorem accepted_axis (s : State) (a : Axis) : (accepted s).axis a = s.axis a := by cases a <;> rfl
@[simp] theorem record_axis (e : TraceEvent) (s : State) (a : Axis) : (record e s).axis a = s.axis a := by
  cases a <;> rfl
@[simp] theorem applyPending_axis (s : State) (a : Axis) : (applyPending s).axis a = s.axis a := by cases a <;> rfl
@[simp] theorem finishMove_axis (s : State) (a : Axis) : (finishMove s).axis a = s.axis a := by cases a <;> rfl
@[simp] theorem consume_axis (s : State) (a : Axis) : (consume s).axis a = s.axis a := by cases a <;> rfl

/-- The registers of an axis after the speed write of a plan. -/
def withSpeed (c : Config) (a : Axis) (v : Option Nat) (r : AxisRegs) : AxisRegs :=
  match v with
  | none => r
  | some w => { r with stepDelay := some (delay c a w) }

@[simp] theorem withSpeed_stepIndex (c : Config) (a : Axis) (v : Option Nat) (r : AxisRegs) :
    (withSpeed c a v r).stepIndex = r.stepIndex := by cases v <;> rfl
@[simp] theorem withSpeed_dir (c : Config) (a : Axis) (v : Option Nat) (r : AxisRegs) :
    (withSpeed c a v r).dir = r.dir := by cases v <;> rfl
@[simp] theorem withSpeed_lastStepTime (c : Config) (a : Axis) (v : Option Nat) (r : AxisRegs) :
    (withSpeed c a v r).lastStepTime = r.lastStepTime := by cases v <;> rfl
@[simp] theorem withSpeed_out (c : Config) (a : Axis) (v : Option Nat) (r : AxisRegs) :
    (withSpeed c a v r).out = r.out := by cases v <;> rfl
@[simp] theorem withSpeed_left (c : Config) (a : Axis) (v : Option Nat) (r : AxisRegs) :
    (withSpeed c a v r).left = r.left := by cases v <;> rfl

@[simp] theorem setCount_stepIndex (n : Int) (r : AxisRegs) : (setCount n r).stepIndex = r.stepIndex := rfl
@[simp] theorem setCount_stepDelay (n : Int) (r : AxisRegs) : (setCount n r).stepDelay = r.stepDelay := rfl
@[simp] theorem setCount_lastStepTime (n : Int) (r : AxisRegs) : (setCount n r).lastStepTime = r.lastStepTime := rfl
@[simp] theorem setCount_out (n : Int) (r : AxisRegs) : (setCount n r).out = r.out := rfl
@[simp] theorem setCount_left (n : Int) (r : AxisRegs) : (setCount n r).left = n.natAbs := rfl
@[simp] theorem setCount_dir (n : Int) (r : AxisRegs) : (setCount n r).dir = directionOf n r.dir := rfl

@[simp] theorem setDelay_x (a : Axis) (d : Nat) (s : State) :
    (setDelay a d s).x = if a = .x then { s.x with stepDelay := some d } else s.x := by cases a <;> rfl
@[simp] theorem setDelay_y (a : Axis) (d : Nat) (s : State) :
    (setDelay a d s).y = if a = .y then { s.y with stepDelay := some d } else s.y := by cases a <;> rfl

@[simp] theorem planSpeed_x (a : Axis) (v : Option Nat) (s : State) :
    (planSpeed a v s).x = if a = .x then withSpeed s.cfg .x v s.x else s.x := by
  cases v <;> cases a <;> rfl
@[simp] theorem planSpeed_y (a : Axis) (v : Option Nat) (s : State) :
    (planSpeed a v s).y = if a = .y then withSpeed s.cfg .y v s.y else s.y := by
  cases v <;> cases a <;> rfl

@[simp] theorem loadPlan_x (d : Delta) (v : Speeds) (s : State) :
    (loadPlan d v s).x = setCount d.1 (withSpeed s.cfg .x v.1 s.x) := by simp [loadPlan]
@[simp] theorem loadPlan_y (d : Delta) (v : Speeds) (s : State) :
    (loadPlan d v s).y = setCount d.2 (withSpeed s.cfg .y v.2 s.y) := by simp [loadPlan]

/-- Setting up a segment writes the two axes and the pending change, and nothing else. -/
theorem loadPlan_eq (d : Delta) (v : Speeds) (s : State) :
    loadPlan d v s = { s with
      x := setCount d.1 (withSpeed s.cfg .x v.1 s.x)
      y := setCount d.2 (withSpeed s.cfg .y v.2 s.y)
      pendX := d.1
      pendY := d.2 } := by
  obtain ⟨v1, v2⟩ := v
  cases v1 <;> cases v2 <;> rfl

end Sys2Proof.Machine
end

