-- ==== Sys2Proof/Laws/Ops.lean ====
section
/-! SUPPORT. One lemma for each shared operation that says what it can do: cite these instead of unfolding. -/

namespace Sys2Proof.Machine

/-! Commands. -/

/-- Everything a command can answer with a next state: the report of its error, or its effect after the success
report. -/
theorem command_next {α : Type} (checks : Except Cause α) (effect : α → State → Except Fault State) (s t : State) :
    command checks effect s = .next t ↔
      (∃ c, checks = .error c ∧ t = raise c s) ∨ (∃ v, checks = .ok v ∧ effect v (accepted s) = .ok t) := by
  cases checks with
  | error c => simp [command, eq_comm]
  | ok v =>
    cases h : effect v (accepted s) with
    | error f => simp [command, h, toResult]
    | ok u => simp [command, h, toResult]

/-- A command whose checks fail reports the cause and does nothing else. -/
theorem command_error {α : Type} {checks : Except Cause α} {c : Cause} (h : checks = .error c)
    (effect : α → State → Except Fault State) (s : State) : command checks effect s = .next (raise c s) := by
  simp [command, h]

/-- A command whose checks pass has its effect after the success report. -/
theorem command_ok {α : Type} {checks : Except Cause α} {v : α} (h : checks = .ok v)
    (effect : α → State → Except Fault State) (s : State) :
    command checks effect s = toResult (effect v (accepted s)) := by
  simp [command, h]

theorem toResult_next (r : Except Fault State) (t : State) : toResult r = .next t ↔ r = .ok t := by
  cases r <;> simp [toResult]

/-! Speed. -/

/-- DELAY is the numerator divided by the product (R77). -/
theorem delay_eq (c : Config) (a : Axis) (rpm : Nat) : delay c a rpm = 60000 / (stepsPerRev c a * rpm) := by
  simp [delay, delayNumerator, Nat.div_div_eq_div_mul]

theorem delay_le (c : Config) (a : Axis) (rpm : Nat) : delay c a rpm ≤ 60000 := by
  rw [delay_eq]
  exact Nat.div_le_self _ _

/-- DELAY does not increase with the speed (R77). -/
theorem delay_antitone (c : Config) (a : Axis) {v w : Nat} (hv : 1 ≤ v) (h : v ≤ w) : delay c a w ≤ delay c a v :=
  Nat.div_le_div_left h hv

/-! Plans. -/

/-- A plan that passes gives each axis the speed of the rule (R101, R102). -/
theorem planCheck_passes {m : Nat} (hm : 1 ≤ m) {d : Delta} (h : planPasses m d) :
    planCheck (some m) d
      = .ok (plannedSpeed m d.1.natAbs d.2.natAbs, plannedSpeed m d.2.natAbs d.1.natAbs) := by
  obtain ⟨dx, dy⟩ := d
  unfold planPasses at h
  unfold planCheck majorMagnitude minorMagnitude minorSpeed ratio majorAxis plannedSpeed
  dsimp only at *
  generalize dx.natAbs = ax at *
  generalize dy.natAbs = ay at *
  by_cases h0 : ax = 0 ∧ ay = 0
  · obtain ⟨rfl, rfl⟩ := h0; simp
  have hm0 : m ≠ 0 := by omega
  rcases le_total ay ax with hle | hle
  · simp only [max_eq_left hle, min_eq_right hle] at *
    have hax : ax ≠ 0 := by omega
    by_cases hy : ay = 0
    · simp [hy, hax, hm0]
    · have hge : ax ≤ m * ay := h.resolve_left hy
      have hq : m * ay / ax ≠ 0 := (Nat.div_pos hge (by omega)).ne'
      by_cases heq : ax ≤ ay
      · obtain rfl : ax = ay := by omega
        simp [hax, hm0, Nat.mul_div_cancel _ (Nat.pos_of_ne_zero hy)]
      · simp [hy, hax, hm0, hq, hle, heq]
  · simp only [max_eq_right hle, min_eq_left hle] at *
    have hay : ay ≠ 0 := by omega
    by_cases hx : ax = 0
    · simp [hx, hay, hm0]
    · have hge : ay ≤ m * ax := h.resolve_left hx
      have hq : m * ax / ay ≠ 0 := (Nat.div_pos hge (by omega)).ne'
      by_cases heq : ay ≤ ax
      · obtain rfl : ax = ay := by omega
        simp [hay, hm0, Nat.mul_div_cancel _ (Nat.pos_of_ne_zero hx)]
      · simp [hx, hay, hm0, hq, hle, heq]

/-- A plan that does not pass is the error MINOR_SPEED_ZERO (R102). -/
theorem planCheck_fails {m : Nat} {d : Delta} (h : ¬ planPasses m d) :
    planCheck (some m) d = .error .minorSpeedZero := by
  obtain ⟨dx, dy⟩ := d
  unfold planPasses at h
  unfold planCheck majorMagnitude minorMagnitude minorSpeed ratio
  dsimp only at *
  generalize dx.natAbs = ax at *
  generalize dy.natAbs = ay at *
  obtain ⟨h1, h2⟩ := not_or.mp h
  have hmax : max ax ay ≠ 0 := by omega
  simp [h1, hmax, Nat.div_eq_of_lt (Nat.not_le.mp h2)]

/-- The only error of a plan at a top speed is MINOR_SPEED_ZERO: the guard of R102 never answers (R115). -/
theorem planCheck_error {m : Nat} {d : Delta} {c : Cause} (h : planCheck (some m) d = .error c) :
    c = .minorSpeedZero := by
  by_cases h0 : majorMagnitude d = 0
  · simp [planCheck, h0] at h
  · by_cases hz : minorMagnitude d = 0 ∨ m * minorMagnitude d / majorMagnitude d ≠ 0
    · have hs : ∃ v, minorSpeed m (minorMagnitude d) (majorMagnitude d) = .ok v := by
        unfold minorSpeed ratio
        rcases hz with hz | hz
        · exact ⟨none, by simp [hz]⟩
        · by_cases hn : minorMagnitude d = 0
          · exact ⟨none, by simp [hn]⟩
          · exact ⟨some (m * minorMagnitude d / majorMagnitude d), by rw [if_neg hn, if_neg h0]; dsimp only; rw [if_neg hz]⟩
      obtain ⟨v, hv⟩ := hs
      simp only [planCheck, if_neg h0, hv] at h
      split_ifs at h
      · simpa using h.symm
      · cases hm : majorAxis d <;> simp [hm] at h
    · have hs : minorSpeed m (minorMagnitude d) (majorMagnitude d) = .error .minorSpeedZero := by
        unfold minorSpeed ratio
        rw [if_neg (fun h => hz (.inl h)), if_neg h0]
        dsimp only
        rw [if_pos (by by_contra h; exact hz (.inr h))]
      simp only [planCheck, if_neg h0, hs, Except.error.injEq] at h
      exact h.symm

theorem planCheck_none (d : Delta) : planCheck none d = .error .maxSpeedUnset := rfl

/-- The speeds of a plan that passes, and that it passes. -/
theorem planCheck_next {m : Nat} {d : Delta} {v : Speeds} (hm : 1 ≤ m) (h : planCheck (some m) d = .ok v) :
    planPasses m d ∧ v = (plannedSpeed m d.1.natAbs d.2.natAbs, plannedSpeed m d.2.natAbs d.1.natAbs) := by
  by_cases hp : planPasses m d
  · rw [planCheck_passes hm hp] at h; cases h; exact ⟨hp, rfl⟩
  · rw [planCheck_fails hp] at h; cases h

theorem plannedSpeed_none (m a b : Nat) : plannedSpeed m a b = none ↔ a = 0 := by
  unfold plannedSpeed; split_ifs <;> simp_all

/-- A planned speed is at least 1 and at most the top speed (R103). -/
theorem plannedSpeed_range {m a b v : Nat} (hm : 1 ≤ m) (hp : min a b = 0 ∨ max a b ≤ m * min a b)
    (h : plannedSpeed m a b = some v) : 1 ≤ v ∧ v ≤ m := by
  unfold plannedSpeed at h
  split_ifs at h with h1 h2
  · cases h; omega
  · cases h
    have e1 : max a b = b := by omega
    have e2 : min a b = a := by omega
    have hle : b ≤ m * a := by rw [e1, e2] at hp; omega
    exact ⟨Nat.div_pos hle (by omega), Nat.div_le_of_le_mul (by nlinarith)⟩

/-- The speed check answers the delay of a positive speed where that is no 0, else one of two causes (R76). -/
theorem speedCheck_next {c : Config} {a : Axis} {rpm : Int} {d : Nat} (h : speedCheck c a rpm = .ok d) :
    0 < rpm ∧ d = delay c a rpm.toNat ∧ 1 ≤ d := by
  unfold speedCheck at h
  split_ifs at h with h1 h2
  cases h
  exact ⟨by omega, rfl, by omega⟩

theorem runCheck_next {s : State} {ys xs : Int} {u : Unit} (h : runCheck s ys xs = .ok u) :
    (ys ≠ 0 → s.y.stepDelay ≠ none) ∧ (xs ≠ 0 → s.x.stepDelay ≠ none) := by
  unfold runCheck at h
  split_ifs at h with h1
  tauto

end Sys2Proof.Machine
end

