-- ==== Sys2Proof/Laws/Segments.lean ====
section
/-! SUPPORT. What the end of a segment can do (R91, R110): one lemma for each of nextSegments, complete, launch and
arcSegment. The chain of empty segments is gone from these statements. -/

namespace Sys2Proof.Machine

theorem moving_eq_false (s : State) : moving s = false ↔ s.x.left = 0 ∧ s.y.left = 0 := by
  simp [moving]; omega

theorem moving_eq_true (s : State) : moving s = true ↔ 1 ≤ s.x.left + s.y.left := by
  simp [moving]; omega

/-- A planned delta leaves no steps exactly where it is the zero delta. -/
theorem moving_loadPlan (d : Delta) (v : Speeds) (s : State) : moving (loadPlan d v s) = true ↔ d ≠ (0, 0) := by
  obtain ⟨dx, dy⟩ := d
  simp [moving]; omega

/-- The zero delta passes its plan with no speed (R102). -/
theorem planCheck_zero {maxSpeed : Option Nat} {v : Speeds} (h : planCheck maxSpeed (0, 0) = .ok v) :
    v = (none, none) := by
  cases maxSpeed <;> simp_all [planCheck, majorMagnitude]

/-- The segment number of the arc registers is set to `j`. -/
def atSegment (j : Nat) (s : State) : State := { s with arc := { s.arc with k := j } }

/-- The segment `j` with these speeds is set up and runs (R103, R110). -/
def startSegment (j : Nat) (v : Speeds) (s : State) : State :=
  { loadPlan (arcDelta s j) v (atSegment j s) with mode := .run }

/-- An empty segment leaves a state without steps and without a pending change as it was, but for its number. -/
theorem loadPlan_zero_applied {s : State} (hx : s.x.left = 0) (hy : s.y.left = 0) (px : s.pendX = 0)
    (py : s.pendY = 0) : applyPending (loadPlan (0, 0) (none, none) s) = s := by
  obtain ⟨cfg, ⟨_, _, _, _, _, lx⟩, ⟨_, _, _, _, _, ly⟩, _, _, _, _, _, _, _⟩ := s
  simp only at hx hy px py
  subst hx hy px py
  simp [applyPending, loadPlan, planSpeed, setupRun, setCount, directionOf]

/-- After a segment without steps or pending change: either some later segment is the first with steps and it runs,
or none has and the move is finished. -/
theorem nextSegments_next {n : Nat} {s t : State} (hx : s.x.left = 0) (hy : s.y.left = 0) (px : s.pendX = 0)
    (py : s.pendY = 0) (h : nextSegments n s = .ok t) :
    (∃ j v, s.arc.k < j ∧ j ≤ s.arc.k + n ∧ (∀ i, s.arc.k < i → i < j → arcDelta s i = (0, 0)) ∧
      arcDelta s j ≠ (0, 0) ∧ planCheck s.maxSpeed (arcDelta s j) = .ok v ∧ t = startSegment j v s) ∨
    ((∀ i, s.arc.k < i → i ≤ s.arc.k + n → arcDelta s i = (0, 0)) ∧ t = finishMove s) := by
  induction n generalizing s with
  | zero =>
    simp only [nextSegments, Except.ok.injEq] at h
    exact .inr ⟨fun i _ _ => by omega, h.symm⟩
  | succ n ih =>
    simp only [nextSegments, loadArcSegment] at h
    cases hp : planCheck s.maxSpeed (arcDelta s (s.arc.k + 1)) with
    | error c =>
      have : planCheck s.maxSpeed (arcDelta (atSegment (s.arc.k + 1) s) (s.arc.k + 1)) = .error c := hp
      simp only [atSegment] at this
      simp [this] at h
    | ok v =>
      have hp' : planCheck s.maxSpeed (arcDelta (atSegment (s.arc.k + 1) s) (s.arc.k + 1)) = .ok v := hp
      simp only [atSegment] at hp'
      simp only [hp'] at h
      by_cases hd : arcDelta s (s.arc.k + 1) = (0, 0)
      · have hd' : arcDelta (atSegment (s.arc.k + 1) s) (s.arc.k + 1) = (0, 0) := hd
        simp only [atSegment] at hd'
        rw [hd] at hp
        have hv := planCheck_zero hp
        subst hv
        simp only [hd'] at h
        have hmv : moving (loadPlan (0, 0) (none, none) (atSegment (s.arc.k + 1) s)) = false := by
          have := moving_loadPlan (0, 0) (none, none) (atSegment (s.arc.k + 1) s)
          simpa using this
        simp only [atSegment] at hmv
        simp only [hmv] at h
        have hz := loadPlan_zero_applied (s := atSegment (s.arc.k + 1) s) hx hy px py
        simp only [atSegment] at hz
        rw [hz] at h
        rcases ih (s := atSegment (s.arc.k + 1) s) hx hy px py h with ⟨j, w, h1, h2, h3, h4, h5, h6⟩ | ⟨h1, h2⟩
        · refine .inl ⟨j, w, ?_, ?_, ?_, h4, h5, h6⟩
          · have : s.arc.k + 1 < j := h1
            omega
          · have : j ≤ s.arc.k + 1 + n := h2
            omega
          · intro i hi hij
            rcases Nat.lt_or_ge (s.arc.k + 1) i with h' | h'
            · exact h3 i h' hij
            · obtain rfl : i = s.arc.k + 1 := by omega
              exact hd
        · refine .inr ⟨?_, h2⟩
          intro i hi hij
          rcases Nat.lt_or_ge (s.arc.k + 1) i with h' | h'
          · exact h1 i h' (by have : i ≤ s.arc.k + 1 + n := by omega
                              exact this)
          · obtain rfl : i = s.arc.k + 1 := by omega
            exact hd
      · have hmv : moving (loadPlan (arcDelta s (s.arc.k + 1)) v (atSegment (s.arc.k + 1) s)) = true :=
          (moving_loadPlan _ _ _).mpr hd
        have hmv' : moving (loadPlan (arcDelta (atSegment (s.arc.k + 1) s) (s.arc.k + 1)) v
          (atSegment (s.arc.k + 1) s)) = true := hmv
        simp only [atSegment] at hmv'
        simp only [hmv', if_true, Except.ok.injEq] at h
        exact .inl ⟨s.arc.k + 1, v, by omega, by omega, fun i _ _ => by omega, hd, hp, h.symm⟩

/-- Where every later segment passes its plan, the chain ends in a state. -/
theorem nextSegments_ok {n : Nat} {s : State} 
    (planned : ∀ j, s.arc.k < j → j ≤ s.arc.k + n → ∃ v, planCheck s.maxSpeed (arcDelta s j) = .ok v) :
    ∃ t, nextSegments n s = .ok t := by
  induction n generalizing s with
  | zero => exact ⟨_, rfl⟩
  | succ n ih =>
    obtain ⟨v, hv⟩ := planned (s.arc.k + 1) (by omega) (by omega)
    have hv' : planCheck s.maxSpeed (arcDelta (atSegment (s.arc.k + 1) s) (s.arc.k + 1)) = .ok v := hv
    simp only [atSegment] at hv'
    simp only [nextSegments, loadArcSegment, hv']
    split
    · exact ⟨_, rfl⟩
    · refine ih ?_
      intro j h1 h2
      simp only [applyPending_arc, loadPlan_arc, applyPending_maxSpeed, loadPlan_maxSpeed] at h1 h2 ⊢
      have := planned j (by omega) (by omega)
      simpa [arcDelta] using this

/-- complete() of a segment without steps left: the move is finished, or a running arc's first later segment with
steps runs (R91). -/
theorem complete_next {s t : State} (hm : moving s = false) (h : complete s = .ok t) :
    (t = finishMove (applyPending s) ∧
      (s.arc.active = true → ∀ i, s.arc.k < i → i ≤ s.arc.kmax → arcDelta s i = (0, 0))) ∨
    (s.arc.active = true ∧ ∃ j v, s.arc.k < j ∧ j ≤ s.arc.kmax ∧
      (∀ i, s.arc.k < i → i < j → arcDelta s i = (0, 0)) ∧ arcDelta s j ≠ (0, 0) ∧
      planCheck s.maxSpeed (arcDelta s j) = .ok v ∧ t = startSegment j v (applyPending s)) := by
  obtain ⟨hx, hy⟩ := (moving_eq_false s).mp hm
  simp only [complete, applyPending_arc] at h
  cases ha : s.arc.active with
  | false =>
    simp only [ha, Bool.false_eq_true, if_false, Except.ok.injEq] at h
    exact .inl ⟨h.symm, by simp⟩
  | true =>
    simp only [ha, if_true] at h
    rcases nextSegments_next (s := applyPending s) hx hy rfl rfl h with ⟨j, v, h1, h2, h3, h4, h5, h6⟩ | ⟨h1, h2⟩
    · simp only [applyPending_arc] at h1 h2 h3
      exact .inr ⟨rfl, j, v, h1, by omega, h3, h4, h5, h6⟩
    · simp only [applyPending_arc] at h1
      refine .inl ⟨h2, fun _ i hi hk => h1 i hi (by omega)⟩

/-- complete() ends in a state where no arc runs or every later segment of it passes its plan. -/
theorem complete_ok {s : State}
    (planned : s.arc.active = true → ∀ j, s.arc.k < j → j ≤ s.arc.kmax →
      ∃ v, planCheck s.maxSpeed (arcDelta s j) = .ok v) : ∃ t, complete s = .ok t := by
  by_cases ha : s.arc.active = true
  · have h := nextSegments_ok (s := applyPending s) (n := s.arc.kmax - s.arc.k) (by
      intro j h1 h2
      simp only [applyPending_arc] at h1 h2
      exact planned ha j h1 (by omega))
    simpa [complete, ha] using h
  · exact ⟨finishMove (applyPending s), by simp [complete, ha]⟩

/-- The last part of StartRun (R88): the move runs, or it has no steps and completes. -/
theorem launch_next {s t : State} (h : launch s = .ok t) :
    (moving s = true ∧ t = { s with mode := .run }) ∨ (moving s = false ∧ complete s = .ok t) := by
  cases hm : moving s with
  | true => simp [launch, hm] at h; exact .inl ⟨rfl, h.symm⟩
  | false => simp [launch, hm] at h; exact .inr ⟨rfl, h⟩

theorem launch_moving {s : State} (h : moving s = true) : launch s = .ok { s with mode := .run } := by
  simp [launch, h]

theorem launch_still {s : State} (h : moving s = false) : launch s = complete s := by
  simp [launch, h]

/-- complete() where no arc runs. -/
theorem complete_inactive {s : State} (h : s.arc.active = false) : complete s = .ok (finishMove (applyPending s)) := by
  simp [complete, h]

/-- The start of the first segment of an arc is the launch of its plan (R110). -/
theorem arcSegment_next {k : Nat} {s t : State} (h : arcSegment k s = .ok t) :
    ∃ v, planCheck s.maxSpeed (arcDelta s k) = .ok v ∧ launch (loadPlan (arcDelta s k) v s) = .ok t := by
  simp only [arcSegment, loadArcSegment] at h
  cases hp : planCheck s.maxSpeed (arcDelta s k) with
  | error c => simp [hp] at h
  | ok v => simp [hp] at h; exact ⟨v, rfl, h⟩

end Sys2Proof.Machine
end

