-- ==== Sys2Proof/Laws/Frames.lean ====
section
/-! SUPPORT. What the setup, the chain of segments and the end of a move leave unchanged in every state (R87, R88,
R91, R103, R110), and with it what an Accept leaves unchanged (R123). -/

namespace Sys2Proof.Machine

/-- The registers that no part of a move's setup or completion writes. -/
structure MoveFrame (s t : State) : Prop where
  cfg : t.cfg = s.cfg
  maxSpeed : t.maxSpeed = s.maxSpeed
  err : t.err = s.err
  errCause : t.errCause = s.errCause
  resX : t.resX = s.resX
  resY : t.resY = s.resY
  clockSeen : t.clockSeen = s.clockSeen
  trace : t.trace = s.trace
  port : t.port = s.port
  inputs : t.inputs = s.inputs
  stepIndex : ∀ a, (t.axis a).stepIndex = (s.axis a).stepIndex
  lastStepTime : ∀ a, (t.axis a).lastStepTime = (s.axis a).lastStepTime
  out : ∀ a, (t.axis a).out = (s.axis a).out

theorem MoveFrame.refl (s : State) : MoveFrame s s :=
  ⟨rfl, rfl, rfl, rfl, rfl, rfl, rfl, rfl, rfl, rfl, fun _ => rfl, fun _ => rfl, fun _ => rfl⟩

theorem MoveFrame.comp {s t u : State} (h : MoveFrame s t) (g : MoveFrame t u) : MoveFrame s u :=
  ⟨g.cfg.trans h.cfg, g.maxSpeed.trans h.maxSpeed, g.err.trans h.err, g.errCause.trans h.errCause,
    g.resX.trans h.resX, g.resY.trans h.resY, g.clockSeen.trans h.clockSeen, g.trace.trans h.trace,
    g.port.trans h.port, g.inputs.trans h.inputs, fun a => (g.stepIndex a).trans (h.stepIndex a),
    fun a => (g.lastStepTime a).trans (h.lastStepTime a), fun a => (g.out a).trans (h.out a)⟩

theorem setupRun_frame (ys xs px py : Int) (s : State) : MoveFrame s (setupRun ys xs px py s) :=
  ⟨rfl, rfl, rfl, rfl, rfl, rfl, rfl, rfl, rfl, rfl, fun a => by cases a <;> rfl, fun a => by cases a <;> rfl,
    fun a => by cases a <;> rfl⟩

theorem loadPlan_frame (d : Delta) (v : Speeds) (s : State) : MoveFrame s (loadPlan d v s) := by
  constructor <;> first | simp | (intro a; cases a <;> simp [State.axis])

theorem complete_frame_parts (s : State) :
    MoveFrame s (applyPending s) ∧ MoveFrame s (finishMove s) ∧ (∀ m, MoveFrame s { s with mode := m }) ∧
      ∀ r, MoveFrame s { s with arc := r } := by
  refine ⟨?_, ?_, fun m => ?_, fun r => ?_⟩ <;>
    exact ⟨rfl, rfl, rfl, rfl, rfl, rfl, rfl, rfl, rfl, rfl, fun a => by cases a <;> rfl, fun a => by cases a <;> rfl,
      fun a => by cases a <;> rfl⟩

theorem loadArcSegment_frame {k : Nat} {s t : State} (h : loadArcSegment k s = .ok t) : MoveFrame s t := by
  unfold loadArcSegment at h
  split at h
  · cases h
  · cases h; exact loadPlan_frame _ _ _

theorem nextSegments_frame {n : Nat} {s t : State} (h : nextSegments n s = .ok t) : MoveFrame s t := by
  induction n generalizing s with
  | zero => cases h; exact (complete_frame_parts s).2.1
  | succ n ih =>
    simp only [nextSegments] at h
    split at h
    · cases h
    · rename_i u hu
      have hf := ((complete_frame_parts s).2.2.2 _).comp (loadArcSegment_frame hu)
      split at h
      · cases h; exact hf.comp ((complete_frame_parts u).2.2.1 _)
      · exact (hf.comp (complete_frame_parts u).1).comp (ih h)

theorem complete_frame {s t : State} (h : complete s = .ok t) : MoveFrame s t := by
  simp only [complete] at h
  split at h
  · exact (complete_frame_parts s).1.comp (nextSegments_frame h)
  · cases h; exact (complete_frame_parts s).1.comp (complete_frame_parts _).2.1

theorem launch_frame {s t : State} (h : launch s = .ok t) : MoveFrame s t := by
  rcases launch_next h with ⟨-, rfl⟩ | ⟨-, h⟩
  · exact (complete_frame_parts s).2.2.1 _
  · exact complete_frame h

theorem arcSegment_frame {k : Nat} {s t : State} (h : arcSegment k s = .ok t) : MoveFrame s t := by
  obtain ⟨v, -, h⟩ := arcSegment_next h
  exact (loadPlan_frame _ _ _).comp (launch_frame h)

/-- What an accepted command leaves: the report of an error and nothing else, or the success report and an effect that
keeps the frame of a move but for INIT's and READ_POS's own registers (R123, R125, R126). -/
theorem exec_next {i : Instr} {s t : State} (h : exec i s = .next t) :
    (∃ c, t = raise c s) ∨
    (MoveFrame (accepted s) t) ∨
    (∃ m dx dy, i = .init m ∧ 0 < m ∧ delay s.cfg .x m.toNat = dx ∧ delay s.cfg .y m.toNat = dy ∧ dx ≠ 0 ∧ dy ≠ 0 ∧
      t = { setDelay .y dy (setDelay .x dx (accepted s)) with maxSpeed := some m.toNat }) ∨
    (i = .readPos ∧ t = { accepted s with resX := s.posX, resY := s.posY }) := by
  cases i with
  | init m =>
    simp only [exec, execInit] at h
    rcases (command_next _ _ _ _).mp h with ⟨c, -, rfl⟩ | ⟨⟨dx, dy⟩, hc, ht⟩
    · exact .inl ⟨c, rfl⟩
    · refine .inr (.inr (.inl ⟨m, dx, dy, rfl, ?_⟩))
      simp only [initChecks, speedCheck] at hc
      split_ifs at hc
      simp_all
  | readPos =>
    simp only [exec, execReadPos] at h
    rcases (command_next _ _ _ _).mp h with ⟨c, -, rfl⟩ | ⟨v, -, ht⟩
    · exact .inl ⟨c, rfl⟩
    · cases ht; exact .inr (.inr (.inr ⟨rfl, rfl⟩))
  | setSpeed sel rpm =>
    simp only [exec, execSetSpeed] at h
    rcases (command_next _ _ _ _).mp h with ⟨c, -, rfl⟩ | ⟨⟨a, d⟩, -, ht⟩
    · exact .inl ⟨c, rfl⟩
    · cases ht
      refine .inr (.inl ?_)
      constructor <;> first | (intro b; cases a <;> cases b <;> rfl) | simp
  | moveX l =>
    simp only [exec, execMoveX] at h
    rcases (command_next _ _ _ _).mp h with ⟨c, -, rfl⟩ | ⟨v, -, ht⟩
    · exact .inl ⟨c, rfl⟩
    · exact .inr (.inl ((setupRun_frame _ _ _ _ _).comp (launch_frame ht)))
  | moveY l =>
    simp only [exec, execMoveY] at h
    rcases (command_next _ _ _ _).mp h with ⟨c, -, rfl⟩ | ⟨v, -, ht⟩
    · exact .inl ⟨c, rfl⟩
    · exact .inr (.inl ((setupRun_frame _ _ _ _ _).comp (launch_frame ht)))
  | runMove ys xs =>
    simp only [exec, execRunMove] at h
    rcases (command_next _ _ _ _).mp h with ⟨c, -, rfl⟩ | ⟨v, -, ht⟩
    · exact .inl ⟨c, rfl⟩
    · exact .inr (.inl ((setupRun_frame _ _ _ _ _).comp (launch_frame ht)))
  | linearTo x1 y1 x2 y2 =>
    simp only [exec, execLinearTo, straightMove] at h
    rcases (command_next _ _ _ _).mp h with ⟨c, -, rfl⟩ | ⟨v, -, ht⟩
    · exact .inl ⟨c, rfl⟩
    · exact .inr (.inl ((loadPlan_frame _ _ _).comp (launch_frame ht)))
  | polarTo r v =>
    simp only [exec, execPolarTo, straightMove] at h
    rcases (command_next _ _ _ _).mp h with ⟨c, -, rfl⟩ | ⟨v, -, ht⟩
    · exact .inl ⟨c, rfl⟩
    · exact .inr (.inl ((loadPlan_frame _ _ _).comp (launch_frame ht)))
  | circularArc r a b inc =>
    simp only [exec, execCircularArc] at h
    rcases (command_next _ _ _ _).mp h with ⟨c, -, rfl⟩ | ⟨K, -, ht⟩
    · exact .inl ⟨c, rfl⟩
    · split at ht
      · cases ht; exact .inr (.inl (MoveFrame.refl _))
      · exact .inr (.inl (((complete_frame_parts _).2.2.2 _).comp (arcSegment_frame ht)))
  | reserved0 | reservedA | reservedB | reservedC | reservedD | reservedE | reservedF =>
    cases h; exact .inl ⟨_, rfl⟩

end Sys2Proof.Machine
end

