-- ==== Sys2Proof/Laws/Poll.lean ====
section
/-! SUPPORT. What a Poll does to the axes (R78 to R83, R89), and what a step can be (R13). -/

namespace Sys2Proof.Machine

/-- A delay counts as the gap it is compared with: the gate is open exactly where the axis is due (R78). -/
theorem elapsed_lt_iff (c : Config) (now d : Nat) (r : AxisRegs) :
    elapsed c.timeBits now r.lastStepTime < d ↔ ¬ (d : Int) ≤ gap c now r := by
  have h : 0 ≤ ((now : Int) - r.lastStepTime) % 2 ^ c.timeBits := Int.emod_nonneg _ (by positivity)
  simp only [elapsed, gap]
  omega

/-- The two wraps are one step modulo N (R81, R82). -/
theorem nextIndex_eq (c : Config) (a : Axis) (r : AxisRegs) (h : r.stepIndex < stepsPerRev c a) :
    nextIndex r.dir r.stepIndex (stepsPerRev c a) = steppedIndex c a r := by
  unfold nextIndex steppedIndex incWrap decWrap dirSign
  generalize stepsPerRev c a = n at *
  generalize r.stepIndex = i at *
  cases r.dir with
  | fwd =>
    dsimp only
    split
    · rename_i hi
      have : ((i : Int) + 1) = n := by omega
      simp [this]
    · rw [Int.emod_eq_of_lt (by omega) (by omega)]
      omega
  | rev =>
    dsimp only
    split
    · rename_i hi
      subst hi
      have : (((0 : Nat) : Int) + -1) % (n : Int) = n - 1 := by
        rw [← Int.add_emod_right, Int.emod_eq_of_lt (by omega) (by omega)]
        omega
      rw [this]
      omega
    · rw [Int.emod_eq_of_lt (by omega) (by omega)]
      omega

/-- An advance is one step of the axis, and emits the word of the new index (R80). -/
theorem advance_eq (c : Config) (a : Axis) (now : Nat) (r : AxisRegs) (h : r.stepIndex < stepsPerRev c a) :
    advance c a now r = { steppedAxis c a now r with left := r.left } := by
  simp [advance, steppedAxis, nextIndex_eq c a r h, emittedWord, steppedWord, phase]

/-- Probing an axis (R78, R89): it advances where it is due, with one event, and nothing else changes. -/
theorem probeAxis_eq (a : Axis) (now : Nat) (s : State)
    (hi : (s.axis a).stepIndex < stepsPerRev s.cfg a) (hd : 1 ≤ (s.axis a).left → (s.axis a).stepDelay ≠ none) :
    probeAxis a now s = .ok { s.setAxis a (polledAxis s.cfg a now (s.axis a)) with
      trace := s.trace ++ polledEvents s.cfg a now (s.axis a) } := by
  unfold probeAxis
  by_cases hl : (s.axis a).left = 0
  · have hdue : due s.cfg now (s.axis a) = false := by
      unfold due; split <;> simp [hl]
    simp [hl, polledAxis, polledEvents, hdue]
    cases a <;> rfl
  · have hl1 : 1 ≤ (s.axis a).left := by omega
    obtain ⟨d, hsd⟩ := Option.ne_none_iff_exists'.mp (hd hl1)
    have hdue : due s.cfg now (s.axis a) = decide ((d : Int) ≤ gap s.cfg now (s.axis a)) := by
      simp [due, hsd, hl1]
    by_cases hg : (d : Int) ≤ gap s.cfg now (s.axis a)
    · have hnl : ¬ elapsed s.cfg.timeBits now (s.axis a).lastStepTime < d := by
        rw [elapsed_lt_iff]; simpa using hg
      simp only [hl, if_false, tryAdvance, hsd, hnl, advance_eq _ _ _ _ hi, polledAxis, polledEvents, hdue, hg,
        decide_true, if_true]
      cases a <;> simp [record, State.setAxis, steppedAxis, emittedWord, steppedWord, phase]
    · have hnl : elapsed s.cfg.timeBits now (s.axis a).lastStepTime < d := by
        rw [elapsed_lt_iff]; simpa using hg
      simp [hl, tryAdvance, hsd, hnl, polledAxis, polledEvents, hdue, hg]
      cases a <;> rfl

/-- One scheduler pass from registers that meet their invariants: the due axes step, Y's event first, and a segment
without steps left completes (R89). -/
theorem poll_run {s : State} (t : Nat) (hx : s.x.stepIndex < stepsPerRev s.cfg .x)
    (hy : s.y.stepIndex < stepsPerRev s.cfg .y) (dx : 1 ≤ s.x.left → s.x.stepDelay ≠ none)
    (dy : 1 ≤ s.y.left → s.y.stepDelay ≠ none) (hm : s.mode = .run) (hc : clockBroken s.clockSeen t = false) :
    poll t s = if moving (polled t s) then .ok (polled t s) else complete (polled t s) := by
  have hpass : poll t s = schedulerPass (nowOf s.cfg t) { s with clockSeen := some t } := by
    unfold poll
    rw [if_neg (by simp [hc])]
    dsimp only
    split
    · rename_i h; exact absurd (hm.symm.trans h) (by decide)
    · rfl
  rw [hpass]
  unfold schedulerPass
  rw [probeAxis_eq .y (nowOf s.cfg t) { s with clockSeen := some t } hy dy]
  dsimp only
  rw [probeAxis_eq .x]
  · rfl
  · exact hx
  · exact dx

theorem clockBroken_eq_false (seen : Option Nat) (t : Nat) :
    clockBroken seen t = false ↔ ∀ c, seen = some c → c ≤ t := by
  cases seen <;> simp [clockBroken]

theorem poll_broken {s : State} {t : Nat} (h : clockBroken s.clockSeen t = true) :
    poll t s = .error .clockNotMonotonic := by simp [poll, h]

theorem poll_idle {s : State} {t : Nat} (h : clockBroken s.clockSeen t = false) (hm : s.mode = .idle) :
    poll t s = .ok { s with clockSeen := some t } := by simp [poll, h, hm]

/-- An Accept happens exactly where a command stands on the port of an idle block and no Reset is asserted. -/
theorem fetch_eq_some (s : State) (i : Instr) :
    fetch s = some i ↔ resetAsserted s = false ∧ s.mode = .idle ∧
      ∃ c, s.port = some c ∧ decodeCommand s.cfg.operandBits c = i := by
  unfold fetch
  cases resetAsserted s <;> cases s.mode <;> cases s.port <;> simp

/-- No Accept happens while a Reset is asserted, a move runs or the port is free. -/
theorem fetch_eq_none (s : State) :
    fetch s = none ↔ resetAsserted s = true ∨ s.mode = .run ∨ s.port = none := by
  unfold fetch
  cases resetAsserted s <;> cases s.mode <;> cases s.port <;> simp

/-- A Reset is asserted exactly where it is the environment's next action. -/
theorem resetAsserted_iff (s : State) : resetAsserted s = true ↔ ∃ rest, s.inputs = .reset :: rest := by
  unfold resetAsserted
  cases h : s.inputs with
  | nil => simp
  | cons i rest => cases i <;> simp [isReset]

/-- Everything a step with a next state can be: the Accept of the command on the port, or, where none happens, nothing,
a move of the host on the port, a Poll or a Reset (R13, R54, R134). -/
theorem step_next {s u : State} (h : step s = .next u) :
    s.cfg.check = none ∧
    ((∃ c, s.mode = .idle ∧ s.port = some c ∧ resetAsserted s = false ∧
        exec (decodeCommand s.cfg.operandBits c) (consume s) = .next u) ∨
     (fetch s = none ∧
       ((s.inputs = [] ∧ u = s) ∨
        (∃ c rest, s.inputs = .present c :: rest ∧ u = { s with port := some c, inputs := rest }) ∨
        (∃ rest, s.inputs = .withdraw :: rest ∧ u = { s with port := none, inputs := rest }) ∨
        (∃ t rest, s.inputs = .poll t :: rest ∧ poll t { s with inputs := rest } = .ok u) ∨
        (∃ rest, s.inputs = .reset :: rest ∧ u = resetBlock { s with inputs := rest })))) := by
  unfold step constructionRefusal at h
  cases hc : s.cfg.check with
  | some e => cases e <;> simp [hc] at h
  | none =>
    simp only [hc] at h
    refine ⟨rfl, ?_⟩
    have env : toResult (environment s) = .next u →
        ((s.inputs = [] ∧ u = s) ∨
        (∃ c rest, s.inputs = .present c :: rest ∧ u = { s with port := some c, inputs := rest }) ∨
        (∃ rest, s.inputs = .withdraw :: rest ∧ u = { s with port := none, inputs := rest }) ∨
        (∃ t rest, s.inputs = .poll t :: rest ∧ poll t { s with inputs := rest } = .ok u) ∨
        (∃ rest, s.inputs = .reset :: rest ∧ u = resetBlock { s with inputs := rest })) := by
      intro h
      rw [toResult_next] at h
      unfold environment at h
      cases hi : s.inputs with
      | nil => simp [hi] at h; exact .inl ⟨rfl, h.symm⟩
      | cons i rest =>
        cases i <;> simp [hi, react] at h
        · exact .inr (.inl ⟨_, _, rfl, h.symm⟩)
        · exact .inr (.inr (.inl ⟨_, rfl, h.symm⟩))
        · exact .inr (.inr (.inr (.inl ⟨_, _, rfl, h⟩)))
        · exact .inr (.inr (.inr (.inr ⟨_, rfl, h.symm⟩)))
    cases hf : fetch s with
    | none =>
      rw [hf] at h
      exact .inr ⟨rfl, env h⟩
    | some i =>
      rw [hf] at h
      obtain ⟨hr, hm, c, hp, rfl⟩ := (fetch_eq_some s i).mp hf
      exact .inl ⟨c, hm, hp, hr, h⟩

/-- The step is the Accept where one is enabled and no Reset is asserted. -/
theorem step_accept {s : State} {c : Command} (hc : s.cfg.check = none) (hm : s.mode = .idle)
    (hr : resetAsserted s = false) (hp : s.port = some c) :
    step s = exec (decodeCommand s.cfg.operandBits c) (consume s) := by
  have hf := (fetch_eq_some s _).mpr ⟨hr, hm, c, hp, rfl⟩
  simp [step, constructionRefusal, hc, hf]

/-- The step is the environment's next action where no Accept happens. -/
theorem step_environment {s : State} (hc : s.cfg.check = none) (h : fetch s = none) :
    step s = toResult (environment s) := by
  simp [step, constructionRefusal, hc, h]

/-- Where a Reset is asserted the step is the Reset, in every mode and whatever stands on the port (R134). -/
theorem step_reset {s : State} {rest : List Input} (hc : s.cfg.check = none) (hi : s.inputs = .reset :: rest) :
    step s = .next (resetBlock { s with inputs := rest }) := by
  rw [step_environment hc ((fetch_eq_none s).mpr (.inl ((resetAsserted_iff s).mpr ⟨rest, hi⟩)))]
  simp [environment, hi, react, toResult]

theorem step_poll {s : State} {t : Nat} {rest : List Input} (hc : s.cfg.check = none)
    (h : s.mode = .run ∨ s.port = none) (hi : s.inputs = .poll t :: rest) :
    step s = toResult (poll t { s with inputs := rest }) := by
  rw [step_environment hc ((fetch_eq_none s).mpr (.inr h))]
  simp [environment, hi, react]

end Sys2Proof.Machine
end

