-- ==== Sys2Proof/Laws/Invariant.lean ====
section
/-! SUPPORT. How the shared operations keep the invariant of the reachable states (R34): a state set up for a move,
the launch of a move, the end of a segment. -/

namespace Sys2Proof.Machine

theorem forall_axis {P : Axis → Prop} (x : P .x) (y : P .y) : ∀ a, P a
  | .x => x
  | .y => y

/-- The registers of a state that is set up for a move: the invariant but for what it says of the mode. -/
structure Ready (s : State) : Prop where
  config : s.cfg.check = none
  axes : ∀ a, AxisInv s.cfg a (s.axis a)
  maxSpeed : ∀ m, s.maxSpeed = some m → 1 ≤ m ∧ ∀ a, 1 ≤ delay s.cfg a m ∧ (s.axis a).stepDelay ≠ none
  err : s.err = 0
  errCause : s.errCause = 0
  arcOff : s.arc.active = false → s.arc = ArcRegs.cleared
  arcOn : s.arc.active = true → ArcRunning s

theorem AxisInv.setCount {c : Config} {a : Axis} {r : AxisRegs} (h : AxisInv c a r) {count : Int}
    (hd : count ≠ 0 → r.stepDelay ≠ none) : AxisInv c a (setCount count r) :=
  ⟨h.index_lt, h.delay_range, fun hl => hd (by intro h0; subst h0; simp [Machine.setCount] at hl), h.out_some, h.out_none,
    h.time_lt⟩

theorem AxisInv.withSpeed {c : Config} {a : Axis} {r : AxisRegs} (h : AxisInv c a r) {v : Option Nat}
    (hv : ∀ w, v = some w → 1 ≤ delay c a w) : AxisInv c a (withSpeed c a v r) := by
  cases v with
  | none => exact h
  | some w =>
    refine ⟨h.index_lt, ?_, fun _ => by simp [Machine.withSpeed], h.out_some, h.out_none, h.time_lt⟩
    intro d hd
    simp only [Machine.withSpeed, Option.some.injEq] at hd
    exact hd ▸ ⟨hv w rfl, delay_le _ _ _⟩

/-- The speeds of a plan that passes in a ready state: each axis that moves gets one, and its delay is at least 1. -/
theorem plan_speeds {c : Config} {maxSpeed : Option Nat} {d : Delta} {v : Speeds}
    (hm : ∀ m, maxSpeed = some m → 1 ≤ m ∧ ∀ a, 1 ≤ delay c a m) (h : planCheck maxSpeed d = .ok v) :
    (v.1 = none ↔ d.1 = 0) ∧ (v.2 = none ↔ d.2 = 0) ∧ (∀ w, v.1 = some w → 1 ≤ delay c .x w) ∧
      (∀ w, v.2 = some w → 1 ≤ delay c .y w) := by
  cases maxSpeed with
  | none => simp [planCheck_none] at h
  | some m =>
    obtain ⟨hm1, hd⟩ := hm m rfl
    obtain ⟨hp, rfl⟩ := planCheck_next hm1 h
    refine ⟨by simp [plannedSpeed_none], by simp [plannedSpeed_none], ?_, ?_⟩
    · intro w hw
      obtain ⟨h1, h2⟩ := plannedSpeed_range hm1 hp hw
      exact (hd .x).trans (delay_antitone c .x h1 h2)
    · intro w hw
      obtain ⟨h1, h2⟩ := plannedSpeed_range hm1 (by rw [min_comm, max_comm]; exact hp) hw
      exact (hd .y).trans (delay_antitone c .y h1 h2)

theorem withSpeed_isSet {c : Config} {a : Axis} {v : Option Nat} {r : AxisRegs} (h : v = none → r.stepDelay ≠ none) :
    (withSpeed c a v r).stepDelay ≠ none := by
  cases v with
  | none => exact h rfl
  | some w => simp [withSpeed]

/-- The axes of a loaded plan meet their invariant, and keep their delays set. -/
theorem loadPlan_axes {s : State} {d : Delta} {v : Speeds} (ax : ∀ a, AxisInv s.cfg a (s.axis a))
    (hm : ∀ m, s.maxSpeed = some m → 1 ≤ m ∧ ∀ a, 1 ≤ delay s.cfg a m ∧ (s.axis a).stepDelay ≠ none)
    (h : planCheck s.maxSpeed d = .ok v) :
    (∀ a, AxisInv s.cfg a ((loadPlan d v s).axis a)) ∧ ∀ a, ((loadPlan d v s).axis a).stepDelay ≠ none := by
  obtain ⟨n1, n2, v1, v2⟩ := plan_speeds (c := s.cfg) (fun m hs => ⟨(hm m hs).1, fun a => ((hm m hs).2 a).1⟩) h
  have hset : ∀ a, (s.axis a).stepDelay ≠ none := by
    cases hs : s.maxSpeed with
    | none => rw [hs, planCheck_none] at h; cases h
    | some m => exact fun a => ((hm m hs).2 a).2
  refine ⟨fun a => ?_, fun a => ?_⟩
  · cases a with
    | x =>
      simp only [State.axis, loadPlan_x]
      exact ((ax .x).withSpeed v1).setCount (fun _ => withSpeed_isSet (fun _ => hset .x))
    | y =>
      simp only [State.axis, loadPlan_y]
      exact ((ax .y).withSpeed v2).setCount (fun _ => withSpeed_isSet (fun _ => hset .y))
  · cases a with
    | x => simp only [State.axis, loadPlan_x]; exact withSpeed_isSet (fun _ => hset .x)
    | y => simp only [State.axis, loadPlan_y]; exact withSpeed_isSet (fun _ => hset .y)

/-- A loaded plan keeps a state ready, the arc being the one whose segment it loads, or none. -/
theorem Ready.loadPlan {s : State} (h : Ready s) {d : Delta} {v : Speeds} (hp : planCheck s.maxSpeed d = .ok v)
    (hd : s.arc.active = true → d = arcDelta s s.arc.k) : Ready (loadPlan d v s) := by
  obtain ⟨h1, h2⟩ := loadPlan_axes h.axes h.maxSpeed hp
  refine ⟨by simpa using h.config, by simpa using h1, ?_, by simpa using h.err, by simpa using h.errCause,
    by simpa using h.arcOff, ?_⟩
  · intro m hm
    simp only [loadPlan_maxSpeed, loadPlan_cfg] at hm ⊢
    exact ⟨(h.maxSpeed m hm).1, fun a => ⟨((h.maxSpeed m hm).2 a).1, h2 a⟩⟩
  · intro ha
    simp only [loadPlan_arc] at ha
    have hr := h.arcOn ha
    refine ⟨by simpa using hr.inc_pos, by simpa using hr.k_pos, by simpa using hr.k_le, by simpa using hr.kmax_eq, ?_, ?_⟩
    · rw [loadPlan_pendX, loadPlan_pendY, loadPlan_arc]
      simpa [arcDelta] using hd ha
    · simpa [arcDelta] using hr.planned

/-- The mode of a ready state with steps left becomes RUN. -/
theorem Ready.run {s : State} (h : Ready s) (hm : moving s = true) : State.Inv { s with mode := .run } := by
  have hl := (moving_eq_true s).mp hm
  refine ⟨h.config, forall_axis (h.axes .x) (h.axes .y), ?_, by simp, fun _ => ⟨hl, h.err, h.errCause⟩,
    h.arcOff, ?_, .inl ⟨h.err, h.errCause⟩⟩
  · intro m hs
    exact ⟨(h.maxSpeed m hs).1, forall_axis ((h.maxSpeed m hs).2 .x) ((h.maxSpeed m hs).2 .y)⟩
  · intro ha
    have hr := h.arcOn ha
    exact ⟨hr.inc_pos, hr.k_pos, hr.k_le, hr.kmax_eq, hr.pending, hr.planned⟩

/-- The end of a segment of a ready state leaves a state that meets the invariant. -/
theorem Ready.complete {s t : State} (h : Ready s) (hm : moving s = false) (hc : complete s = .ok t) : t.Inv := by
  obtain ⟨lx, ly⟩ := (moving_eq_false s).mp hm
  rcases complete_next hm hc with ⟨rfl, -⟩ | ⟨ha, j, v, hj, hk, hz, hd, hp, rfl⟩
  · refine ⟨h.config, forall_axis (h.axes .x) (h.axes .y), ?_,
      fun _ => ⟨lx, ly, rfl, rfl, rfl⟩, by simp, fun _ => rfl, (by intro ha; cases ha), .inl ⟨h.err, h.errCause⟩⟩
    intro m hs
    exact ⟨(h.maxSpeed m hs).1, forall_axis ((h.maxSpeed m hs).2 .x) ((h.maxSpeed m hs).2 .y)⟩
  · have hr := h.arcOn ha
    have hready : Ready (Machine.loadPlan (arcDelta (applyPending s) j) v (atSegment j (applyPending s))) := by
      have hp' : planCheck (atSegment j (applyPending s)).maxSpeed (arcDelta (applyPending s) j) = .ok v := hp
      obtain ⟨h1, h2⟩ := loadPlan_axes (s := atSegment j (applyPending s))
        (forall_axis (h.axes .x) (h.axes .y))
        (fun m hs => ⟨(h.maxSpeed m hs).1, forall_axis ((h.maxSpeed m hs).2 .x) ((h.maxSpeed m hs).2 .y)⟩) hp'
      refine ⟨by simpa [atSegment] using h.config, by simpa [atSegment] using h1, ?_, by simpa [atSegment] using h.err,
        by simpa [atSegment] using h.errCause, ?_, ?_⟩
      · intro m hs
        simp only [loadPlan_maxSpeed, loadPlan_cfg] at hs ⊢
        exact ⟨(h.maxSpeed m hs).1, fun a => ⟨((h.maxSpeed m hs).2 a).1, h2 a⟩⟩
      · intro hf; simp [atSegment, ha] at hf
      · intro _
        refine ⟨by simpa [atSegment] using hr.inc_pos, by simp [atSegment]; omega, by simpa [atSegment] using hk,
          by simpa [atSegment] using hr.kmax_eq, ?_, ?_⟩
        · simp [arcDelta, atSegment]
        · intro i hi hi'
          simp only [loadPlan_arc, atSegment] at hi hi'
          simpa [arcDelta, atSegment] using hr.planned i (by omega) hi'
    exact hready.run ((moving_loadPlan _ _ _).mpr hd)

/-- The launch of a ready state leaves a state that meets the invariant. -/
theorem Ready.launch {s t : State} (h : Ready s) (hl : launch s = .ok t) : t.Inv := by
  rcases launch_next hl with ⟨hm, rfl⟩ | ⟨hm, hc⟩
  · exact h.run hm
  · exact h.complete hm hc

/-- complete() of a ready state has an outcome. -/
theorem Ready.complete_ok {s : State} (h : Ready s) : ∃ t, Machine.complete s = .ok t :=
  Machine.complete_ok (fun ha => (h.arcOn ha).planned)

/-- A launch of a ready state has an outcome. -/
theorem Ready.launch_ok {s : State} (h : Ready s) : ∃ t, Machine.launch s = .ok t := by
  by_cases hm : moving s = true
  · exact ⟨_, launch_moving hm⟩
  · rw [launch_still (by simpa using hm)]; exact h.complete_ok

/-- An accepted command starts from a ready state without steps, without a pending change and without an arc. -/
theorem State.Inv.ready {s : State} (h : s.Inv) : Ready (accepted s) := by
  refine ⟨h.config, fun a => by simpa using h.axes a, fun m hm => by simpa using h.maxSpeed m hm, rfl, rfl, h.arcOff, ?_⟩
  intro ha
  have hr := h.arcOn ha
  exact ⟨hr.inc_pos, hr.k_pos, hr.k_le, hr.kmax_eq, hr.pending, hr.planned⟩

theorem State.Inv.raise {s : State} (h : s.Inv) (hm : s.mode = .idle) {c : Cause} (hc : c ≠ .majorZero) :
    (raise c s).Inv := by
  refine ⟨h.config, fun a => by simpa using h.axes a, fun m hm => by simpa using h.maxSpeed m hm, h.idle,
    fun hr => ?_, h.arcOff, ?_, .inr ⟨c, hc, rfl, rfl⟩⟩
  · simp [hm] at hr
  · intro ha
    have hr := h.arcOn ha
    exact ⟨hr.inc_pos, hr.k_pos, hr.k_le, hr.kmax_eq, hr.pending, hr.planned⟩

end Sys2Proof.Machine
end

