-- ==== Sys2Proof/Laws/PerInstr.lean ====
section
/-! SUPPORT. The statements made for every instruction, one lemma per constructor. -/

namespace Sys2Proof.Laws.OpcodeField

/-- The low four bits of the packed word are the instruction's opcode (R55, R58). -/
def Statement (i : Instr) : Prop := ∀ n, encode n i % 2 ^ 4 = i.opcode.toNat

theorem init (m : Int) : Statement (.init m) := fun n => (pack_fields (encodeCommand_wf n _)).2.1
theorem moveX (l : Int) : Statement (.moveX l) := fun n => (pack_fields (encodeCommand_wf n _)).2.1
theorem moveY (l : Int) : Statement (.moveY l) := fun n => (pack_fields (encodeCommand_wf n _)).2.1
theorem linearTo (x1 y1 x2 y2 : Int) : Statement (.linearTo x1 y1 x2 y2) :=
  fun n => (pack_fields (encodeCommand_wf n _)).2.1
theorem polarTo (r v : Int) : Statement (.polarTo r v) := fun n => (pack_fields (encodeCommand_wf n _)).2.1
theorem circularArc (r s e inc : Int) : Statement (.circularArc r s e inc) :=
  fun n => (pack_fields (encodeCommand_wf n _)).2.1
theorem readPos : Statement .readPos := fun n => (pack_fields (encodeCommand_wf n _)).2.1
theorem setSpeed (sel rpm : Int) : Statement (.setSpeed sel rpm) :=
  fun n => (pack_fields (encodeCommand_wf n _)).2.1
theorem runMove (ys xs : Int) : Statement (.runMove ys xs) := fun n => (pack_fields (encodeCommand_wf n _)).2.1
theorem reserved0 : Statement .reserved0 := fun n => (pack_fields (encodeCommand_wf n _)).2.1
theorem reservedA : Statement .reservedA := fun n => (pack_fields (encodeCommand_wf n _)).2.1
theorem reservedB : Statement .reservedB := fun n => (pack_fields (encodeCommand_wf n _)).2.1
theorem reservedC : Statement .reservedC := fun n => (pack_fields (encodeCommand_wf n _)).2.1
theorem reservedD : Statement .reservedD := fun n => (pack_fields (encodeCommand_wf n _)).2.1
theorem reservedE : Statement .reservedE := fun n => (pack_fields (encodeCommand_wf n _)).2.1
theorem reservedF : Statement .reservedF := fun n => (pack_fields (encodeCommand_wf n _)).2.1

end Sys2Proof.Laws.OpcodeField
end

