-- ==== Sys2Proof/Laws/Projection.lean ====
section
/-! SUPPORT. The default projection is the exact real product rounded toward zero for every radius and angle (R104),
so no component of it is longer than the radius. -/

namespace Sys2Proof.Machine

/-- A real number between two whose truncations are the same integer truncates to it. -/
theorem truncates_between {p : Nat} {lo hi : Int} {x : ℝ} (h1 : (lo : ℝ) ≤ 2 ^ p * x) (h2 : 2 ^ p * x ≤ (hi : ℝ))
    (h : lo.tdiv (2 ^ p) = hi.tdiv (2 ^ p)) : truncates x (lo.tdiv (2 ^ p)) := by
  have hpi : (0 : Int) < 2 ^ p := by positivity
  have hp : (0 : ℝ) < 2 ^ p := by positivity
  have up : ∀ n : Int, hi < (n + 1) * 2 ^ p → x < n + 1 := by
    intro n hn
    have hn' : (hi : ℝ) < ((n : ℝ) + 1) * 2 ^ p := by exact_mod_cast hn
    nlinarith
  have dn : ∀ n : Int, (n - 1) * 2 ^ p < lo → (n : ℝ) - 1 < x := by
    intro n hn
    have hn' : ((n : ℝ) - 1) * 2 ^ p < (lo : ℝ) := by exact_mod_cast hn
    nlinarith
  have upe : ∀ n : Int, hi ≤ n * 2 ^ p → x ≤ n := by
    intro n hn
    have hn' : (hi : ℝ) ≤ (n : ℝ) * 2 ^ p := by exact_mod_cast hn
    nlinarith
  have dne : ∀ n : Int, n * 2 ^ p ≤ lo → (n : ℝ) ≤ x := by
    intro n hn
    have hn' : (n : ℝ) * 2 ^ p ≤ (lo : ℝ) := by exact_mod_cast hn
    nlinarith
  have pos : ∀ a : Int, 0 ≤ a → a.tdiv (2 ^ p) * 2 ^ p ≤ a ∧ a < (a.tdiv (2 ^ p) + 1) * 2 ^ p := by
    intro a ha
    rw [Int.tdiv_eq_ediv_of_nonneg ha]
    exact ⟨Int.ediv_mul_le a hpi.ne', Int.lt_ediv_add_one_mul_self a hpi⟩
  have neg : ∀ a : Int, a < 0 → a ≤ a.tdiv (2 ^ p) * 2 ^ p ∧ (a.tdiv (2 ^ p) - 1) * 2 ^ p < a := by
    intro a ha
    have := pos (-a) (by omega)
    rw [Int.neg_tdiv] at this
    constructor <;> nlinarith [this.1, this.2]
  generalize hn : lo.tdiv (2 ^ p) = n at *
  rcases lt_or_ge lo 0 with hl | hl
  · have nl := neg lo hl
    rw [hn] at nl
    rcases lt_or_ge hi 0 with hh | hh
    · have nh := neg hi hh
      rw [← h] at nh
      have hx : x ≤ n := upe n nh.1
      have hx' := dn n nl.2
      have hneg : x < 0 := by
        have : (hi : ℝ) < 0 := by exact_mod_cast hh
        nlinarith
      exact .inr ⟨hneg, (Int.ceil_eq_iff.mpr ⟨hx', hx⟩).symm⟩
    · have ph := pos hi hh
      rw [← h] at ph
      have hle : n ≤ 0 := by
        have := Int.tdiv_nonneg (a := -lo) (by omega) hpi.le
        rw [Int.neg_tdiv] at this
        omega
      have hge : 0 ≤ n := by
        rw [h]; exact Int.tdiv_nonneg hh hpi.le
      obtain rfl : n = 0 := by omega
      have hx := up 0 ph.2
      have hx' := dn 0 nl.2
      rcases lt_or_ge x 0 with hs | hs
      · exact .inr ⟨hs, (Int.ceil_eq_iff.mpr ⟨hx', by simpa using hs.le⟩).symm⟩
      · exact .inl ⟨hs, (Int.floor_eq_iff.mpr ⟨by simpa using hs, by simpa using hx⟩).symm⟩
  · have pl := pos lo hl
    rw [hn] at pl
    have hx0 : 0 ≤ x := by
      have : (0 : ℝ) ≤ (lo : ℝ) := by exact_mod_cast hl
      nlinarith
    have hh : 0 ≤ hi := by
      have : (0 : ℝ) ≤ (hi : ℝ) := by nlinarith
      exact_mod_cast this
    have ph := pos hi hh
    rw [← h] at ph
    exact .inl ⟨hx0, (Int.floor_eq_iff.mpr ⟨dne n pl.1, up n ph.2⟩).symm⟩

/-- Where the product is decided, it is the truncation of the exact one. -/
theorem truncProduct_truncates {p : Nat} {r c : Int} {err : Nat} {y : ℝ} {n : Int} (hy : |(c : ℝ) - 2 ^ p * y| ≤ err)
    (h : truncProduct p r c err = some n) : truncates (r * y) n := by
  unfold truncProduct at h
  dsimp only at h
  split at h
  · rename_i heq
    cases h
    have habs : |(r : ℝ)| = (r.natAbs : ℝ) := by rw [Nat.cast_natAbs]; simp
    have hb : |(r : ℝ) * c - 2 ^ p * (r * y)| ≤ (r.natAbs : ℝ) * err := by
      have : (r : ℝ) * c - 2 ^ p * (r * y) = r * (c - 2 ^ p * y) := by ring
      rw [this, abs_mul, habs]
      exact mul_le_mul_of_nonneg_left hy (by positivity)
    rw [abs_le] at hb
    refine truncates_between ?_ ?_ heq
    · push_cast; rw [← habs] at *; linarith [hb.2]
    · push_cast; rw [← habs] at *; linarith [hb.1]
  · cases h

/-- The truncation of a real is no longer than any integer bound of it. -/
theorem truncates_natAbs_le {x : ℝ} {n : Int} (h : truncates x n) {b : Nat} (hb : |x| ≤ b) : n.natAbs ≤ b := by
  rw [abs_le] at hb
  rcases h with ⟨h0, rfl⟩ | ⟨h0, rfl⟩
  · have h1 : 0 ≤ ⌊x⌋ := Int.floor_nonneg.mpr h0
    have h2 : ⌊x⌋ ≤ (b : Int) := by
      have : (⌊x⌋ : ℝ) ≤ ((b : Int) : ℝ) := (Int.floor_le x).trans (by exact_mod_cast hb.2)
      exact_mod_cast this
    omega
  · have h1 : ⌈x⌉ ≤ 0 := Int.ceil_le.mpr (by simpa using h0.le)
    have h2 : -(b : Int) ≤ ⌈x⌉ := by
      have : ((-(b : Int) : Int) : ℝ) ≤ (⌈x⌉ : ℝ) := le_trans (by push_cast; exact hb.1) (Int.le_ceil x)
      exact_mod_cast this
    omega

/-- What a scale decides is the exact products rounded toward zero. -/
theorem truncAt_truncates {p f : Nat} {r v : Int} {d : Delta} (h : truncAt p f r v = some d) :
    truncates (r * Real.cos (v / 2 ^ f)) d.1 ∧ truncates (r * Real.sin (v / 2 ^ f)) d.2 := by
  obtain ⟨bc, bs⟩ := trigOf_bounds p f v
  unfold truncAt at h
  dsimp only at h
  split at h
  · rename_i dx dy hx hy
    cases h
    exact ⟨truncProduct_truncates bc hx, truncProduct_truncates bs hy⟩
  · cases h
  · cases h

theorem truncates_int (n : Int) : truncates (n : ℝ) n := by
  rcases le_or_gt 0 (n : ℝ) with h | h
  · exact .inl ⟨h, (Int.floor_intCast n).symm⟩
  · exact .inr ⟨h, (Int.ceil_intCast n).symm⟩

/-- The default projection is the exact products rounded toward zero (R104). -/
theorem truncProject_truncates (f : Nat) (r v : Int) :
    truncates (r * Real.cos (v / 2 ^ f)) (truncProject f r v).1 ∧
    truncates (r * Real.sin (v / 2 ^ f)) (truncProject f r v).2 := by
  unfold truncProject
  split
  · split
    · exact truncAt_truncates ‹_›
    · exact truncAt_truncates (Option.some_get _).symm
  · rename_i h
    have hz := truncates_int 0
    rw [Int.cast_zero] at hz
    rcases not_and_or.mp h with h | h
    · obtain rfl := not_not.mp h
      simpa using hz
    · obtain rfl := not_not.mp h
      exact ⟨by simpa using truncates_int r, by simpa using hz⟩

@[simp] theorem project_zero_angle (c : Config) (r : Int) : project c r 0 = (r, 0) := by simp [project]
@[simp] theorem project_zero_radius (c : Config) (v : Int) : project c 0 v = (0, 0) := by simp [project]

/-- Under the default, PROJECT is the exact products rounded toward zero. -/
theorem project_truncates {c : Config} (h : c.projection = .truncating) (r v : Int) :
    truncates (r * Real.cos (v / 2 ^ c.angleFracBits)) (project c r v).1 ∧
    truncates (r * Real.sin (v / 2 ^ c.angleFracBits)) (project c r v).2 := by
  have key := truncProject_truncates c.angleFracBits r v
  unfold project
  split
  · rename_i hz
    have hd : truncProject c.angleFracBits r v = (r, 0) := by
      unfold truncProject
      rw [dif_neg (by tauto)]
    rwa [hd] at key
  · rw [h]
    exact key

/-- Under the default, no component of a projection is longer than the radius. -/
theorem projectionBounded_default {c : Config} (h : c.projection = .truncating) : ProjectionBounded c := by
  intro r v
  have hr : |(r : ℝ)| = (r.natAbs : ℝ) := by rw [Nat.cast_natAbs]; simp
  have le : ∀ y : ℝ, |y| ≤ 1 → |(r : ℝ) * y| ≤ (r.natAbs : ℝ) := by
    intro y hy
    rw [abs_mul, hr]
    exact mul_le_of_le_one_right (by positivity) hy
  obtain ⟨hx, hy⟩ := project_truncates h r v
  exact ⟨truncates_natAbs_le hx (le _ (Real.abs_cos_le_one _)), truncates_natAbs_le hy (le _ (Real.abs_sin_le_one _))⟩

end Sys2Proof.Machine
end

