-- ==== Sys2Proof/Tests/Slice0.lean ====
section
/-! SUPPORT. The model's own tests. Expected values are those of spec/95_test_vectors.md (L1 to L3) and of the rules'
own examples; nothing here is the model's answer pasted. The witnesses show that the hypotheses of the obligations are
met together. -/

namespace Sys2Proof.Tests

-- The kernel evaluations below run one after another: in parallel their threads' stacks take more memory than they do.
set_option Elab.async false

open Sys2Proof.Machine

/-! Well-formedness: an ill-formed term for each check. -/

theorem test_operand_top : operandFits 32 2147483647 = true := by decide
theorem test_operand_bottom : operandFits 32 (-2147483648) = true := by decide
theorem test_operand_above : operandFits 32 2147483648 = false := by decide
theorem test_operand_below : operandFits 32 (-2147483649) = false := by decide
theorem test_operand_no_bits : operandFits 0 0 = true ∧ operandFits 0 1 = false ∧ operandFits 0 (-1) = false := by decide

theorem test_wf_refuses_each_operand :
    (Instr.init 2147483648).wf 32 = false ∧ (Instr.moveX 2147483648).wf 32 = false ∧
    (Instr.moveY (-2147483649)).wf 32 = false ∧
    (Instr.linearTo 2147483648 0 0 0).wf 32 = false ∧ (Instr.linearTo 0 2147483648 0 0).wf 32 = false ∧
    (Instr.linearTo 0 0 2147483648 0).wf 32 = false ∧ (Instr.linearTo 0 0 0 2147483648).wf 32 = false ∧
    (Instr.polarTo 2147483648 0).wf 32 = false ∧ (Instr.polarTo 0 2147483648).wf 32 = false ∧
    (Instr.circularArc 2147483648 0 0 0).wf 32 = false ∧ (Instr.circularArc 0 2147483648 0 0).wf 32 = false ∧
    (Instr.circularArc 0 0 2147483648 0).wf 32 = false ∧ (Instr.circularArc 0 0 0 2147483648).wf 32 = false ∧
    (Instr.setSpeed 2147483648 0).wf 32 = false ∧ (Instr.setSpeed 0 2147483648).wf 32 = false ∧
    (Instr.runMove 2147483648 0).wf 32 = false ∧ (Instr.runMove 0 2147483648).wf 32 = false := by decide

theorem test_wf_command_refuses_wide_patterns :
    Command.wf 4 ⟨1, 15, 15, 15, 15⟩ = true ∧ Command.wf 4 ⟨1, 16, 0, 0, 0⟩ = false ∧
    Command.wf 4 ⟨1, 0, 16, 0, 0⟩ = false ∧ Command.wf 4 ⟨1, 0, 0, 16, 0⟩ = false ∧
    Command.wf 4 ⟨1, 0, 0, 0, 16⟩ = false := by decide

/-- R5, R122. -/
theorem test_config_check :
    defaultConfig.check = none ∧
    Config.check { defaultConfig with stepsX := 0 } = some .stepsPerRevInvalid ∧
    Config.check { defaultConfig with stepsY := -1 } = some .stepsPerRevInvalid ∧
    Config.check { defaultConfig with windingX := 3 } = some .windingUnsupported ∧
    Config.check { defaultConfig with windingY := 1 } = some .windingUnsupported ∧
    Config.check { defaultConfig with stepsX := 1, windingX := 2 } = none := by decide

theorem test_step_refuses_no_machine :
    refusal? (step { State.reset with cfg := { defaultConfig with stepsX := 0 } }) = some .stepsPerRevInvalid ∧
    refusal? (step { State.reset with cfg := { defaultConfig with windingY := 3 } }) = some .windingUnsupported := by
  decide

/-! Decoding: one word for each constructor, written out from R55, R58, R59 (most stand in 95_test_vectors.md). -/

theorem test_decode_init : decodePacked 32 0x0000000000000000000000000000000a1 = .ok (.init 10) := rfl
theorem test_decode_moveX : decodePacked 32 0x000000000000000000000000000000052 = .ok (.moveX 5) := rfl
theorem test_decode_moveY : decodePacked 32 0x000000000000000000000000000000033 = .ok (.moveY 3) := rfl
theorem test_decode_linearTo : decodePacked 32 0x000000030000000100000000000000004 = .ok (.linearTo 0 0 1 3) := rfl
theorem test_decode_linearTo_order :
    decodePacked 32 0x000000040000000300000002ffffffff4 = .ok (.linearTo (-1) 2 3 4) := rfl
theorem test_decode_polarTo : decodePacked 32 0x0000000000000000000100000000000a5 = .ok (.polarTo 10 65536) := rfl
theorem test_decode_circularArc :
    decodePacked 32 0x0001000000020000000000000000000a6 = .ok (.circularArc 10 0 131072 65536) := rfl
theorem test_decode_readPos : decodePacked 32 0x000000000000000000000000000000007 = .ok .readPos := rfl
theorem test_decode_setSpeed : decodePacked 32 0x00000000000000000000000a000000028 = .ok (.setSpeed 2 10) := rfl
theorem test_decode_runMove : decodePacked 32 0x0000000000000000fffffffe000000009 = .ok (.runMove 0 (-2)) := rfl
theorem test_decode_reserved :
    decodePacked 32 0x0 = .ok .reserved0 ∧ decodePacked 32 0xA = .ok .reservedA ∧ decodePacked 32 0xB = .ok .reservedB ∧
    decodePacked 32 0xC = .ok .reservedC ∧ decodePacked 32 0xD = .ok .reservedD ∧ decodePacked 32 0xE = .ok .reservedE ∧
    decodePacked 32 0xF = .ok .reservedF := ⟨rfl, rfl, rfl, rfl, rfl, rfl, rfl⟩
/-- An ignored operand has no illegal value (R60). -/
theorem test_decode_ignores : decodePacked 32 0xffffffffffffffffffffffffffffffff7 = .ok .readPos := rfl
/-- A word wider than 132 bits is no packed command (R55). -/
theorem test_decode_too_wide : decodePacked 32 0x1000000000000000000000000000000007 = .error .wordTooWide := rfl
/-- The encoder writes the packed words of 95_test_vectors.md. -/
theorem test_encode :
    encode 32 (.circularArc 10 0 131072 65536) = 0x0001000000020000000000000000000a6 ∧
    encode 32 (.runMove 0 (-2)) = 0x0000000000000000fffffffe000000009 ∧
    encode 32 (.linearTo 5 5 5 5) = 0x000000050000000500000005000000054 := ⟨rfl, rfl, rfl⟩

theorem test_table_word : decodeTableWord 8 7 = some .readPos ∧ decodeTableWord 4 0xF = some .reservedF := ⟨rfl, rfl⟩
theorem test_fetch_word_runs :
    (nextState? (step (State.reset.withFetchWord 8 0x0))).map (fun t => (t.err, t.errCause)) = some (3, 1) := by decide
theorem test_fetch_word_operands :
    (nextState? (step (State.reset.withFetchWord 132 0x0000000000000000000000000000000a1))).map
      (fun t => (t.maxSpeed, t.x.stepDelay, t.y.stepDelay)) = some (some 10, some 30, some 30) := by decide

/-! The assembler (R65 to R68). -/

theorem test_assemble_line :
    assembleLine 32 "LINEAR_TO 0, 0, 3, 4 ; a comment".toList = .ok [.present ⟨0x4, 0, 0, 3, 4⟩] := by decide
theorem test_assemble_axis :
    assembleLine 32 "SET_SPEED X, 300".toList = .ok [.present ⟨0x8, 0, 300, 0, 0⟩] := by decide
theorem test_assemble_pseudo :
    assembleLine 32 "RUN_X -2".toList = .ok [.present ⟨0x9, 0, 0xfffffffe, 0, 0⟩] := by decide
theorem test_assemble_poll_each :
    assembleLine 32 "POLL_EACH 5..7".toList = .ok [.poll 5, .poll 6, .poll 7] := by decide
theorem test_assemble_refuses :
    assembleLine 32 "MOVE_X 0x80000000".toList = .error .outOfRange ∧
    assembleLine 32 "MOVE_X".toList = .error .operandCount ∧
    assembleLine 32 "JUMP 1".toList = .error .unknownMnemonic := by decide

/-! Small states. -/

/-- After `INIT 10` (L2.6). -/
def afterInit10 : State :=
  { State.reset with
    x := { AxisRegs.initial with stepDelay := some 30 }
    y := { AxisRegs.initial with stepDelay := some 30 }
    maxSpeed := some 10 }

/-- After `INIT 1` (P3). -/
def afterInit1 : State :=
  { State.reset with
    x := { AxisRegs.initial with stepDelay := some 300 }
    y := { AxisRegs.initial with stepDelay := some 300 }
    maxSpeed := some 1 }

/-- `INIT 10`, then `MOVE_X 2` accepted; the environment polls at `t`, then `rest`. -/
def movingX (left t : Nat) (rest : List Input) : State :=
  { afterInit10 with
    x := { AxisRegs.initial with stepDelay := some 30, left := left }
    mode := .run
    pendX := 2
    inputs := .poll t :: rest }

/-- P4 in its first segment, where `lx` and `ly` steps are left. -/
def inArc (lx ly t : Nat) : State :=
  { afterInit10 with
    x := { AxisRegs.initial with stepDelay := some 50, dir := .rev, left := lx }
    y := { AxisRegs.initial with stepDelay := some 30, left := ly }
    mode := .run
    pendX := -5
    pendY := 8
    arc := ⟨true, 10, 0, 131072, 65536, 1, 2⟩
    inputs := [.poll t] }

/-- An arc of radius 2 in quarters of a radian up to `stop`, in its first segment with its one step left: the points
(2, 0), (1, 0), (1, 0), (1, 1) are 2·cos and 2·sin of 0, 1/4, 1/2 and 3/4 rounded toward zero. -/
def inFineArc (stop : Int) (kmax t : Nat) : State :=
  { afterInit10 with
    x := { AxisRegs.initial with stepDelay := some 30, dir := .rev, left := 1 }
    mode := .run
    pendX := -1
    arc := ⟨true, 2, 0, stop, 16384, 1, kmax⟩
    inputs := [.poll t] }

/-- The report an outcome leaves. -/
def report (r : Result) : Option (ErrCode × CauseCode) := (nextState? r).map (fun t => (t.err, t.errCause))

/-! Instructions, at most two tests each. -/

/-- L2.2: N_X = 200, N_Y = 100, `INIT 250`. -/
theorem test_init :
    (nextState? (exec (.init 250) (State.initial { defaultConfig with stepsY := 100 }))).map
      (fun t => (t.x.stepDelay, t.y.stepDelay, t.maxSpeed, t.err)) = some (some 1, some 2, some 250, 0) := by decide
/-- L2.2: N_X = 200, N_Y = 100, `INIT 400`: X fails and nothing is written. -/
theorem test_init_fails :
    (nextState? (exec (.init 400) (State.initial { defaultConfig with stepsY := 100 }))).map
      (fun t => (t.x.stepDelay, t.y.stepDelay, t.maxSpeed, t.err, t.errCause)) = some (none, none, none, 1, 2) := by decide
/-- L2.9. -/
theorem test_moveX :
    (nextState? (exec (.moveX (-3)) afterInit10)).map
      (fun t => (t.x.dir, t.x.left, t.pendX, t.x.stepDelay, t.mode)) = some (.rev, 3, -3, some 30, .run) := by decide
/-- L2.9: `MOVE_X 0` needs no speed. -/
theorem test_moveX_zero :
    (nextState? (exec (.moveX 0) State.reset)).map (fun t => (t.mode, t.err, t.posX)) = some (.idle, 0, 0) := by decide
/-- L2.9. -/
theorem test_moveY_unset : report (exec (.moveY 3) State.reset) = some (1, 3) := by decide
/-- L2.9: `SET_SPEED Y, 60` only, then `MOVE_Y 2`. -/
theorem test_moveY :
    (nextState? (exec (.moveY 2) { State.reset with y := { AxisRegs.initial with stepDelay := some 5 } })).map
      (fun t => (t.y.left, t.x.left, t.pendX, t.pendY, t.err)) = some (2, 0, 0, 2, 0) := by decide
/-- L2.6: `LINEAR_TO 0,0,7,-2`. -/
theorem test_linearTo :
    (nextState? (exec (.linearTo 0 0 7 (-2)) afterInit10)).map
      (fun t => ((t.x.stepDelay, t.x.left, t.x.dir, t.pendX), t.y.stepDelay, t.y.left, t.y.dir, t.pendY))
        = some ((some 30, 7, .fwd, 7), some 150, 2, .rev, -2) := by decide
/-- L2.6: after `INIT 1`, `LINEAR_TO 0,0,1,3`. -/
theorem test_linearTo_too_slow : report (exec (.linearTo 0 0 1 3) afterInit1) = some (1, 5) := by decide
/-- L2.7: `POLAR_TO 10, 65536`. -/
theorem test_polarTo :
    (nextState? (exec (.polarTo 10 65536) afterInit10)).map
      (fun t => (t.x.stepDelay, t.y.stepDelay, t.x.left, t.y.left, t.pendX, t.pendY))
        = some (some 50, some 30, 5, 8, 5, 8) := by decide +kernel
/-- L2.7: `POLAR_TO -10, 0`. -/
theorem test_polarTo_negative :
    (nextState? (exec (.polarTo (-10) 0) afterInit10)).map (fun t => (t.x.left, t.y.left, t.x.dir, t.pendX))
      = some (10, 0, .rev, -10) := by decide
/-- L2.8, P4: the first segment of the arc. -/
theorem test_circularArc :
    (nextState? (exec (.circularArc 10 0 131072 65536) afterInit10)).map
      (fun t => (t.arc, t.x.stepDelay, t.y.stepDelay, t.x.left, t.y.left, t.x.dir))
        = some (⟨true, 10, 0, 131072, 65536, 1, 2⟩, some 50, some 30, 5, 8, .rev) := by decide +kernel
/-- L2.8: `CIRCULAR_ARC 0, 0, 131072, 65536` completes in its Accept. -/
theorem test_circularArc_empty :
    (nextState? (exec (.circularArc 0 0 131072 65536) afterInit10)).map (fun t => (t.mode, t.arc, t.err))
      = some (.idle, ⟨false, 0, 0, 0, 0, 0, 0⟩, 0) := by decide +kernel
/-- L2.10: after P1. -/
theorem test_readPos :
    (nextState? (exec .readPos { State.reset with posX := 3, posY := 4 })).map (fun t => (t.resX, t.resY))
      = some (3, 4) := by decide
/-- L2.2: N_Y = 48, `SET_SPEED Y, 15`. -/
theorem test_setSpeed :
    (nextState? (exec (.setSpeed 1 15) (State.initial { defaultConfig with stepsY := 48 }))).map
      (fun t => (t.x.stepDelay, t.y.stepDelay)) = some (none, some 83) := by decide
/-- L2.2: `SET_SPEED 5, 0`: the axis is checked first. -/
theorem test_setSpeed_axis_first : report (exec (.setSpeed 5 0) State.reset) = some (3, 2) := by decide
/-- L2.5: both set, `RUN_MOVE -3, 5`. -/
theorem test_runMove :
    (nextState? (exec (.runMove (-3) 5) afterInit10)).map
      (fun t => (t.y.dir, t.x.dir, t.y.left, t.x.left, t.pendX, t.pendY)) = some (.rev, .fwd, 3, 5, 0, 0) := by decide
/-- L2.5: X set only, `RUN_MOVE 3, 4`. -/
theorem test_runMove_unset :
    report (exec (.runMove 3 4) { State.reset with x := { AxisRegs.initial with stepDelay := some 5 } })
      = some (1, 3) := by decide
/-- L2.11. -/
theorem test_reserved :
    report (exec .reserved0 State.reset) = some (3, 1) ∧ report (exec .reservedA State.reset) = some (3, 1) ∧
    report (exec .reservedB State.reset) = some (3, 1) ∧ report (exec .reservedC State.reset) = some (3, 1) ∧
    report (exec .reservedD State.reset) = some (3, 1) ∧ report (exec .reservedE State.reset) = some (3, 1) ∧
    report (exec .reservedF State.reset) = some (3, 1) := by decide

/-! The commutation table, the stepper and the Poll. -/

/-- L2.3, the rows N = 200, 6, 7 and 1. -/
theorem test_index_updates :
    incWrap 0 200 = 1 ∧ incWrap 199 200 = 0 ∧ decWrap 0 200 = 199 ∧ decWrap 1 200 = 0 ∧ incWrap 5 6 = 0 ∧
    decWrap 0 6 = 5 ∧ decWrap 0 7 = 6 ∧ incWrap 0 1 = 0 ∧ decWrap 0 1 = 0 := by decide
/-- L2.3: N = 7, reverse from 0 emits 0xA on a 4-wire axis. -/
theorem test_word_of_new_index :
    (advance { defaultConfig with stepsX := 7 } .x 9 { AxisRegs.initial with dir := .rev }).out
      = some (.four 0xA) := by decide
/-- L2.4. -/
theorem test_gate :
    elapsed 32 1029 1000 = 29 ∧ elapsed 32 1030 1000 = 30 ∧ elapsed 32 5 (2 ^ 32 - 10) = 15 ∧
    elapsed 32 20 (2 ^ 32 - 10) = 30 := by decide
/-- L2.5 and R89: both axes due in one Poll, Y's event first (P1 at 1000). -/
theorem test_poll_order :
    (nextState? (step { movingX 2 1000 [] with y := { AxisRegs.initial with stepDelay := some 30, left := 4 } })).map
      State.trace = some [.emit .y (.two 0x3) 1000, .emit .x (.four 0x6) 1000] := by decide
/-- R91: the last step of MOVE_X 2 ends the move in its Poll. -/
theorem test_poll_completes :
    (nextState? (step (movingX 1 30 []))).map (fun t => (t.mode, t.posX, t.pendX, t.x.stepIndex))
      = some (.idle, 2, 0, 1) := by decide
/-- P4 at 1210: the position moves by the first delta and the second segment starts in the same Poll. -/
theorem test_poll_next_segment :
    (nextState? (step (inArc 0 1 1210))).map
      (fun t => ((t.posX, t.posY, t.arc.k), t.x.stepDelay, t.y.stepDelay, t.x.left, t.y.left))
        = some ((-5, 8, 2), some 30, some 300, 9, 1) := by decide +kernel
/-- L2.12. -/
theorem test_clock_duty :
    fault? (step { State.reset with clockSeen := some 100, inputs := [.poll 99] }) = some .clockNotMonotonic ∧
    (nextState? (step { State.reset with clockSeen := some 100, inputs := [.poll 100] })).isSome = true := by decide
/-- P5: Reset in a move. -/
theorem test_reset_in_a_move :
    (nextState? (step { movingX 1 0 [] with clockSeen := some 110, inputs := [.reset] })).map
      (fun t => (t.mode, t.x, t.pendX, t.clockSeen, t.trace))
        = some (.idle, AxisRegs.initial, 0, some 110, [.reset]) := by decide
/-- Reset is enabled in IDLE with a command on the port, which stays there (R134, D37). -/
theorem test_reset_before_accept :
    (nextState? (step { afterInit10 with port := some ⟨0x7, 0, 0, 0, 0⟩, inputs := [.reset] })).map
      (fun t => (t.maxSpeed, t.trace, t.port)) = some (none, [.reset], some ⟨0x7, 0, 0, 0, 0⟩) := by decide
/-- The two faults that no reachable state raises do stop the states that would raise them (log 6). -/
theorem test_unreachable_faults :
    fault? (step { State.reset with mode := .run, x := { AxisRegs.initial with left := 1 }, inputs := [.poll 1] })
      = some .stepDelayUnset ∧
    fault? (toResult (arcSegment 1 State.reset)) = some .arcSegmentUnplanned := by decide

/-! The projection (95_test_vectors.md, common conventions). -/

theorem test_project_one_radian : truncProject 16 10 65536 = (5, 8) := by decide +kernel
theorem test_project_two_radians : truncProject 16 10 131072 = (-4, 9) := by decide +kernel
/-- cos(2^−31) and sin(2^−31) lie strictly between 0 and 1. -/
theorem test_project_fine_angle : truncProject 31 1 1 = (0, 0) := by decide +kernel
/-- Another PROJECT than the default, here rounding to nearest: 10·cos 1 = 5.40…, 10·sin 1 = 8.41…, 20·sin 1 = 16.8…. -/
theorem test_project_given :
    let c := { defaultConfig with projection := .given [⟨10, 65536, (5, 8)⟩, ⟨20, 65536, (11, 17)⟩] }
    project c 10 65536 = (5, 8) ∧ project c 20 65536 = (11, 17) ∧ project c 20 0 = (20, 0) := by decide
theorem test_project_law : project defaultConfig (-10) 0 = (-10, 0) := by decide

/-! Witnesses: concrete states that meet the invariant. -/

theorem axis_ok (a : Axis) (dir : Dir) {d : Nat} (h1 : 1 ≤ d) (h2 : d ≤ 60000) (left : Nat) :
    AxisInv defaultConfig a { AxisRegs.initial with dir := dir, stepDelay := some d, left := left } :=
  ⟨by cases a <;> (show (0 : Nat) < 200; decide), fun e he => by cases he; exact ⟨h1, h2⟩, fun _ h => by simp at h,
    fun v h => by simp [AxisRegs.initial] at h, fun _ => ⟨rfl, rfl⟩, by show (0 : Nat) < 2 ^ 32; decide⟩

theorem axis_initial_ok (a : Axis) : AxisInv defaultConfig a AxisRegs.initial :=
  ⟨by cases a <;> decide, fun e he => by simp [AxisRegs.initial] at he, fun h => by simp [AxisRegs.initial] at h,
    fun v h => by simp [AxisRegs.initial] at h, fun _ => ⟨rfl, rfl⟩, by show (0 : Nat) < 2 ^ 32; decide⟩

theorem witness_inv_reset (p : Option Command) (i : List Input) :
    State.Inv { State.reset with port := p, inputs := i } where
  config := by show defaultConfig.check = none; decide
  axes a := by cases a <;> exact axis_initial_ok _
  maxSpeed m h := by cases h
  idle _ := ⟨rfl, rfl, rfl, rfl, rfl⟩
  run h := by cases h
  arcOff _ := rfl
  arcOn h := by cases h
  report := .inl ⟨rfl, rfl⟩

/-- X has made a forward step at 30, and the carriage stands at (2, 0). -/
def steppedOnce (i : List Input) : State :=
  { State.reset with
    x := { AxisRegs.initial with stepIndex := 1, lastStepTime := 30, out := some (.four 0x6) }
    posX := 2
    inputs := i }

theorem witness_inv_stepped (i : List Input) : (steppedOnce i).Inv where
  config := by show defaultConfig.check = none; decide
  axes a := by
    cases a with
    | x =>
      exact
        { index_lt := show 1 < 200 by decide
          delay_range := fun e he => by cases he
          left_delay := fun h => absurd h (show ¬ 1 ≤ 0 by decide)
          out_some := fun v h => by
            cases h
            show PinWord.four 0x6 = romRead defaultConfig (winding defaultConfig .x) (1 % 4)
            decide
          out_none := fun h => by cases h
          time_lt := show 30 < 2 ^ 32 by decide }
    | y => exact axis_initial_ok .y
  maxSpeed m h := by cases h
  idle _ := ⟨rfl, rfl, rfl, rfl, rfl⟩
  run h := by cases h
  arcOff _ := rfl
  arcOn h := by cases h
  report := .inl ⟨rfl, rfl⟩

theorem top_speed_ok {x y : AxisRegs} (hx : x.stepDelay ≠ none) (hy : y.stepDelay ≠ none) (m : Nat)
    (h : some 10 = some m) : 1 ≤ m ∧ ∀ a, 1 ≤ delay defaultConfig a m ∧
      (match a with | .x => x | .y => y : AxisRegs).stepDelay ≠ none := by
  cases h
  exact ⟨by decide, fun a => by cases a <;> [exact ⟨by decide, hx⟩; exact ⟨by decide, hy⟩]⟩

theorem witness_inv_idle (p : Option Command) (i : List Input) :
    State.Inv { afterInit10 with port := p, inputs := i } where
  config := by show defaultConfig.check = none; decide
  axes a := by cases a <;> exact axis_ok _ .fwd (by decide) (by decide) 0
  maxSpeed m h := by
    have := top_speed_ok (x := afterInit10.x) (y := afterInit10.y) (by decide) (by decide) m h
    exact ⟨this.1, fun a => by cases a <;> [exact this.2 .x; exact this.2 .y]⟩
  idle _ := ⟨rfl, rfl, rfl, rfl, rfl⟩
  run h := by cases h
  arcOff _ := rfl
  arcOn h := by cases h
  report := .inl ⟨rfl, rfl⟩

theorem witness_inv_moving {left : Nat} (hl : 1 ≤ left) (t : Nat) (rest : List Input) (p : Option Command) :
    State.Inv { movingX left t rest with port := p } where
  config := by show defaultConfig.check = none; decide
  axes a := by cases a <;> [exact axis_ok _ .fwd (by decide) (by decide) left; exact axis_ok _ .fwd (by decide) (by decide) 0]
  maxSpeed m h := by
    have := top_speed_ok (x := (movingX left t rest).x) (y := afterInit10.y) (by simp [movingX]) (by decide) m h
    exact ⟨this.1, fun a => by cases a <;> [exact this.2 .x; exact this.2 .y]⟩
  idle h := by cases h
  run _ := ⟨by show 1 ≤ left + 0; omega, rfl, rfl⟩
  arcOff _ := rfl
  arcOn h := by cases h
  report := .inl ⟨rfl, rfl⟩

/-- P4's second segment passes its plan check. -/
theorem second_segment_planned :
    planCheck (some 10) (segDelta defaultConfig 10 0 131072 65536 2 2) = .ok (some 10, some 1) := by decide +kernel

theorem first_segment_delta : segDelta defaultConfig 10 0 131072 65536 2 1 = (-5, 8) := by decide +kernel

theorem witness_inv_arc {lx ly : Nat} (hl : 1 ≤ lx + ly) (t : Nat) : State.Inv (inArc lx ly t) where
  config := by show defaultConfig.check = none; decide
  axes a := by
    cases a <;> [exact axis_ok _ .rev (by decide) (by decide) lx; exact axis_ok _ .fwd (by decide) (by decide) ly]
  maxSpeed m h := by
    have := top_speed_ok (x := (inArc lx ly t).x) (y := (inArc lx ly t).y) (by simp [inArc]) (by simp [inArc]) m h
    exact ⟨this.1, fun a => by cases a <;> [exact this.2 .x; exact this.2 .y]⟩
  idle h := by cases h
  run _ := ⟨hl, rfl, rfl⟩
  arcOff h := by cases h
  arcOn _ :=
    { inc_pos := by show (1 : Int) ≤ 65536; decide
      k_pos := by show 1 ≤ 1; decide
      k_le := by show 1 ≤ 2; decide
      kmax_eq := by show 2 = arcCount 0 131072 65536; decide
      pending := first_segment_delta.symm
      planned := by
        intro j h1 h2
        have h1' : 1 < j := h1
        have h2' : j ≤ 2 := h2
        obtain rfl : j = 2 := by omega
        exact ⟨_, second_segment_planned⟩ }
  report := .inl ⟨rfl, rfl⟩

theorem fine_deltas :
    segDelta defaultConfig 2 0 49152 16384 3 1 = (-1, 0) ∧ segDelta defaultConfig 2 0 49152 16384 3 2 = (0, 0) ∧
    segDelta defaultConfig 2 0 49152 16384 3 3 = (0, 1) ∧ segDelta defaultConfig 2 0 32768 16384 2 1 = (-1, 0) ∧
    segDelta defaultConfig 2 0 32768 16384 2 2 = (0, 0) := by decide +kernel

theorem witness_inv_fine_arc {stop : Int} {kmax : Nat} (t : Nat) (hk : 1 ≤ kmax) (hc : kmax = arcCount 0 stop 16384)
    (h1 : segDelta defaultConfig 2 0 stop 16384 kmax 1 = (-1, 0))
    (hl : ∀ j, 1 < j → j ≤ kmax → ∃ v, planCheck (some 10) (segDelta defaultConfig 2 0 stop 16384 kmax j) = .ok v) :
    State.Inv (inFineArc stop kmax t) where
  config := by show defaultConfig.check = none; decide
  axes a := by
    cases a <;> [exact axis_ok _ .rev (by decide) (by decide) 1; exact axis_ok _ .fwd (by decide) (by decide) 0]
  maxSpeed m h := by
    have := top_speed_ok (x := (inFineArc stop kmax t).x) (y := afterInit10.y) (by simp [inFineArc]) (by decide) m h
    exact ⟨this.1, fun a => by cases a <;> [exact this.2 .x; exact this.2 .y]⟩
  idle h := by cases h
  run _ := ⟨by show 1 ≤ 1 + 0; decide, rfl, rfl⟩
  arcOff h := by cases h
  arcOn _ :=
    { inc_pos := by show (1 : Int) ≤ 16384; decide
      k_pos := le_refl 1
      k_le := hk
      kmax_eq := hc
      pending := h1.symm
      planned := hl }
  report := .inl ⟨rfl, rfl⟩

theorem witness_inv_fine_arc_3 (t : Nat) : (inFineArc 49152 3 t).Inv :=
  witness_inv_fine_arc t (by decide) (by decide) fine_deltas.1 (by
    intro j h1 h2
    obtain rfl | rfl : j = 2 ∨ j = 3 := by omega
    · rw [fine_deltas.2.1]; exact ⟨_, rfl⟩
    · rw [fine_deltas.2.2.1]; exact ⟨_, rfl⟩)

theorem witness_inv_fine_arc_2 (t : Nat) : (inFineArc 32768 2 t).Inv :=
  witness_inv_fine_arc t (by decide) (by decide) fine_deltas.2.2.2.1 (by
    intro j h1 h2
    obtain rfl : j = 2 := by omega
    rw [fine_deltas.2.2.2.2]; exact ⟨_, rfl⟩)

/-- The environment keeps the clock duty where no clock value has been seen. -/
theorem duty_ok {s : State} (h : s.clockSeen = none) : clockDutyKept s := by
  intro t rest _ c hc
  rw [h] at hc
  cases hc

theorem of_isSome {r : Result} (h : (nextState? r).isSome = true) : ∃ u, r = .next u := by
  cases r with
  | next u => exact ⟨u, rfl⟩
  | fault f => cases h
  | refused f => cases h

/-! Witnesses of the encoding statements. -/

theorem witness_DecodeEncodeRoundTrip :
    (Instr.linearTo (-2147483648) 2147483647 0 (-1)).wf 32 = true ∧ (Instr.init 2147483647).wf 32 = true ∧
    (Instr.moveX (-2147483648)).wf 32 = true ∧ (Instr.moveY 2147483647).wf 32 = true ∧
    (Instr.polarTo (-1) 2147483647).wf 32 = true ∧ (Instr.circularArc 10 0 131072 65536).wf 32 = true ∧
    Instr.readPos.wf 32 = true ∧ (Instr.setSpeed (-1) 300).wf 32 = true ∧ (Instr.runMove 0 (-2)).wf 32 = true ∧
    Instr.reserved0.wf 0 = true := by decide

theorem witness_IgnoredOperandsHaveNoEffect :
    let conditions := fun (c c' : Command) => c.op = c'.op ∧
      (c.op ∈ [0x1#4, 0x2#4, 0x3#4, 0x4#4, 0x5#4, 0x6#4, 0x8#4, 0x9#4] → c.a0 = c'.a0) ∧
      (c.op ∈ [0x4#4, 0x5#4, 0x6#4, 0x8#4, 0x9#4] → c.a1 = c'.a1) ∧
      (c.op ∈ [0x4#4, 0x6#4] → c.a2 = c'.a2 ∧ c.a3 = c'.a3)
    State.reset.mode = .idle ∧ resetAsserted State.reset = false ∧
    (let s := { State.reset with port := some ⟨0x7, 1, 2, 3, 4⟩, inputs := [.reset] }
     resetAsserted s = true ∧ (nextState? (step s)).isSome = true) ∧ conditions ⟨0x7, 1, 2, 3, 4⟩ ⟨0x7, 0, 0, 0, 0⟩ ∧
    conditions ⟨0x1, 10, 2, 3, 4⟩ ⟨0x1, 10, 0, 0, 0⟩ ∧ conditions ⟨0x5, 10, 2, 3, 4⟩ ⟨0x5, 10, 2, 0, 0⟩ ∧
    conditions ⟨0xF, 1, 2, 3, 4⟩ ⟨0xF, 0, 0, 0, 0⟩ := by decide

/-- A line that is a command, one whose word is a mnemonic and that is rejected, operands in and out of range. -/
theorem witness_AssembledLinesDecode :
    assembleLine 32 "INIT 10".toList = .ok [.present ⟨0x1, 10, 0, 0, 0⟩] ∧
    (readMnemonic (lineWord "RUN_Y 1, 2".toList) = some .runY ∧
      assembleAs 32 .runY (lineOperands "RUN_Y 1, 2".toList) = .error .operandCount) ∧
    (readInt "0x7fffffff".toList = some 2147483647 ∧ operandFits 32 2147483647 = true) ∧
    (readInt "-2147483649".toList = some (-2147483649) ∧ operandFits 32 (-2147483649) = false) := by decide

/-! Witnesses of the statements about the step. -/

theorem witness_StepRunsDecodedCommand :
    defaultConfig.check = none ∧ (Instr.init 10).wf 32 = true ∧
    resetAsserted { State.reset with port := some ⟨0x1, 10, 0, 0, 0⟩ } = false ∧
    { State.reset with port := some ⟨0x1, 10, 0, 0, 0⟩ }.mode = .idle ∧
    { State.reset with port := some ⟨0x1, 10, 0, 0, 0⟩ }.port
      = some (encodeCommand { State.reset with port := some ⟨0x1, 10, 0, 0, 0⟩ }.cfg.operandBits (.init 10)) := by
  decide

theorem witness_PresentedCommandAcceptedOnce :
    let s := { State.reset with inputs := [.present ⟨0x7, 0, 0, 0, 0⟩, .poll 3] }
    s.cfg.check = none ∧ s.mode = .idle ∧ s.port = none ∧ s.inputs = .present ⟨0x7, 0, 0, 0, 0⟩ :: [.poll 3] ∧
    ∀ later, [Input.poll 3] ≠ .reset :: later :=
  ⟨by decide, rfl, rfl, rfl, fun _ h => by simp at h⟩

/-- L2.12: a READ_POS held while the move runs. -/
theorem witness_HeldCommandHasNoEffect :
    let s := { movingX 2 30 [] with port := some ⟨0x7, 0, 0, 0, 0⟩ }
    s.mode = .run ∧ s.inputs = [.poll 30] ∧ ∃ u, step s = .next u :=
  ⟨rfl, rfl, of_isSome (by decide)⟩

theorem witness_IllegalConfigurationsRefused :
    (let c := { defaultConfig with stepsX := 1, stepsY := 1, windingX := 2, windingY := 4 }
     1 ≤ c.stepsX ∧ 1 ≤ c.stepsY ∧ (c.windingX = 2 ∨ c.windingX = 4) ∧ (c.windingY = 2 ∨ c.windingY = 4)) ∧
    (let c := { defaultConfig with stepsY := 0 }
     ¬ (1 ≤ c.stepsX ∧ 1 ≤ c.stepsY ∧ (c.windingX = 2 ∨ c.windingX = 4) ∧ (c.windingY = 2 ∨ c.windingY = 4)) ∧
     ({ State.reset with cfg := c } : State).cfg = c) ∧
    (let c := { defaultConfig with windingX := 3 }
     ¬ (1 ≤ c.stepsX ∧ 1 ≤ c.stepsY ∧ (c.windingX = 2 ∨ c.windingX = 4) ∧ (c.windingY = 2 ∨ c.windingY = 4)) ∧
     ({ State.reset with cfg := c } : State).cfg = c) := by decide

theorem witness_ConfigurationNeverChanges : ∃ u, step State.reset = .next u := of_isSome (by decide)

/-! Witnesses of the speed statements: boundary values with N = 200. -/

theorem witness_DelayFunction : 1 ≤ stepsPerRev defaultConfig .x ∧ 1 ≤ 300 ∧ 300 ≤ 301 ∧ 60000 < 200 * 301 := by decide

theorem witness_SetSpeedRule :
    ((2 : Int) ≠ 0 ∧ (2 : Int) ≠ 1) ∧ ((-1 : Int) ≠ 0 ∧ (-1 : Int) ≠ 1) ∧
    (0 : Int) = (if Axis.x = .x then 0 else 1) ∧ (1 : Int) = (if Axis.y = .x then 0 else 1) ∧ (0 : Int) ≤ 0 ∧
    ((0 : Int) < 301 ∧ 60000 / stepsPerRev State.reset.cfg .x / (301 : Int).toNat = 0) ∧
    ((0 : Int) < 300 ∧ 60000 / stepsPerRev State.reset.cfg .x / (300 : Int).toNat ≠ 0) ∧
    ((0 : Int) < 301 ∧ 60000 / stepsPerRev State.reset.cfg .y / (301 : Int).toNat = 0) ∧
    ((0 : Int) < 300 ∧ 60000 / stepsPerRev State.reset.cfg .y / (300 : Int).toNat ≠ 0) ∧
    (∃ c : Command, c.op = 0x8) :=
  ⟨by decide, by decide, rfl, rfl, by decide, by decide, by decide, by decide, by decide, ⟨0x8, 0, 0, 0, 0⟩, rfl⟩

theorem witness_InitRule :
    (0 : Int) ≤ 0 ∧
    ((0 : Int) < 301 ∧ (60000 / stepsPerRev State.reset.cfg .x / (301 : Int).toNat = 0 ∨
      60000 / stepsPerRev State.reset.cfg .y / (301 : Int).toNat = 0)) ∧
    ((0 : Int) < 300 ∧ 60000 / stepsPerRev State.reset.cfg .x / (300 : Int).toNat ≠ 0 ∧
      60000 / stepsPerRev State.reset.cfg .y / (300 : Int).toNat ≠ 0) ∧ (∃ c : Command, c.op = 0x1) :=
  ⟨by decide, by decide, by decide, ⟨0x1, 0, 0, 0, 0⟩, rfl⟩

/-! Witnesses of the stepper statements. -/

theorem witness_IndexUpdateWraps : 0 < 1 ∧ 0 < 200 ∧ 199 < 200 := by decide

theorem witness_PhaseMachine : (199 < 200 ∧ 200 % 4 = 0) ∧ (5 < 6 ∧ 6 % 4 ≠ 0) ∧ (4 < 6 ∧ 4 + 1 < 6) ∧ (1 < 6 ∧ 1 ≤ 1) := by
  decide

theorem witness_FullCycleEmitsTheTable :
    let r := { AxisRegs.initial with stepIndex := 196 }
    r.stepIndex < stepsPerRev defaultConfig .x ∧ stepsPerRev defaultConfig .x % 4 = 0 ∧ r.stepIndex % 4 = 0 ∧
    r.stepIndex < stepsPerRev defaultConfig .y ∧ stepsPerRev defaultConfig .y % 4 = 0 ∧
    windingWidth defaultConfig .x = 4 ∧ windingWidth defaultConfig .y = 2 ∧
    r.dir = .fwd ∧ { r with dir := .rev }.dir = .rev := by decide

theorem witness_GateMeasuresTheGap :
    (2 ^ 32 - 10 ≤ 2 ^ 32 + 5 ∧ (2 ^ 32 + 5) - (2 ^ 32 - 10) < 2 ^ 32) ∧ (10 ≤ 10 ∧ 10 - 10 < 2 ^ 32) ∧
    (0 ≤ 2 ^ 32 - 1 ∧ 2 ^ 32 - 1 - 0 < 2 ^ 32) := by decide

/-! Witnesses of the Poll statements. -/

theorem witness_PollInIdleChangesNothing :
    let s := { State.reset with inputs := [.poll 0] }
    s.cfg.check = none ∧ s.mode = .idle ∧ s.port = none ∧ s.inputs = .poll 0 :: [] ∧ clockDutyKept s :=
  ⟨by decide, rfl, rfl, rfl, duty_ok rfl⟩

theorem witness_ClockDutyChecked :
    (let s := { State.reset with clockSeen := some 100, inputs := [.poll 99] }
     s.cfg.check = none ∧ s.port = none ∧ s.inputs = .poll 99 :: [] ∧ s.clockSeen = some 100 ∧ 99 < 100) ∧
    (let s := { movingX 2 100 [] with clockSeen := some 100 }
     s.cfg.check = none ∧ s.mode = .run ∧ s.inputs = .poll 100 :: [] ∧ s.clockSeen = some 100 ∧ 100 ≤ 100) := by decide

theorem witness_PollStepsTheDueAxes :
    (movingX 2 30 []).Inv ∧ (movingX 2 30 []).mode = .run ∧ (movingX 2 30 []).inputs = .poll 30 :: [] ∧
    clockDutyKept (movingX 2 30 []) :=
  ⟨witness_inv_moving (by decide) _ _ none, rfl, rfl, duty_ok rfl⟩

/-- The gate just closed, and just open. -/
theorem witness_PollWhileStepsRemain :
    ((movingX 1 29 []).Inv ∧ (movingX 1 29 []).mode = .run ∧ (movingX 1 29 []).inputs = .poll 29 :: [] ∧
      clockDutyKept (movingX 1 29 []) ∧ 1 ≤ (polled 29 (movingX 1 29 [])).x.left + (polled 29 (movingX 1 29 [])).y.left) ∧
    ((movingX 2 30 []).Inv ∧ (movingX 2 30 []).mode = .run ∧ (movingX 2 30 []).inputs = .poll 30 :: [] ∧
      clockDutyKept (movingX 2 30 []) ∧
      1 ≤ (polled 30 (movingX 2 30 [])).x.left + (polled 30 (movingX 2 30 [])).y.left) :=
  ⟨⟨witness_inv_moving (by decide) _ _ none, rfl, rfl, duty_ok rfl, by decide⟩,
    witness_inv_moving (by decide) _ _ none, rfl, rfl, duty_ok rfl, by decide⟩

theorem witness_PollCompletesTheMove :
    (movingX 1 30 []).Inv ∧ (movingX 1 30 []).mode = .run ∧ (movingX 1 30 []).inputs = .poll 30 :: [] ∧
    clockDutyKept (movingX 1 30 []) ∧ (movingX 1 30 []).arc.active = false ∧
    (polled 30 (movingX 1 30 [])).x.left + (polled 30 (movingX 1 30 [])).y.left = 0 :=
  ⟨witness_inv_moving (by decide) _ _ none, rfl, rfl, duty_ok rfl, rfl, by decide⟩

/-- The next segment with steps is the one after the next. -/
theorem witness_PollCompletesTheMove_segment :
    let s := inFineArc 49152 3 30
    s.Inv ∧ s.mode = .run ∧ s.inputs = .poll 30 :: [] ∧ clockDutyKept s ∧ (polled 30 s).x.left + (polled 30 s).y.left = 0 ∧
    s.arc.active = true ∧ s.maxSpeed = some 10 ∧ s.arc.k < 3 ∧ 3 ≤ s.arc.kmax ∧ arcDelta s 3 ≠ (0, 0) ∧
    ∀ i, s.arc.k < i → i < 3 → arcDelta s i = (0, 0) :=
  ⟨witness_inv_fine_arc_3 30, rfl, rfl, duty_ok rfl, by decide, rfl, rfl, by decide, by decide,
    by rw [show arcDelta (inFineArc 49152 3 30) 3 = (0, 1) from fine_deltas.2.2.1]; decide, by
      intro i h1 h2
      have h1' : 1 < i := h1
      obtain rfl : i = 2 := by omega
      exact fine_deltas.2.1⟩

/-- The arc's last segment has no steps. -/
theorem witness_PollCompletesTheMove_end :
    let s := inFineArc 32768 2 30
    s.Inv ∧ s.mode = .run ∧ s.inputs = .poll 30 :: [] ∧ clockDutyKept s ∧ (polled 30 s).x.left + (polled 30 s).y.left = 0 ∧
    s.arc.active = true ∧ ∀ j, s.arc.k < j → j ≤ s.arc.kmax → arcDelta s j = (0, 0) :=
  ⟨witness_inv_fine_arc_2 30, rfl, rfl, duty_ok rfl, by decide, rfl, by
      intro j h1 h2
      have h1' : 1 < j := h1
      have h2' : j ≤ 2 := h2
      obtain rfl : j = 2 := by omega
      exact fine_deltas.2.2.2.2⟩

theorem witness_AxesAreIndependent :
    let s := movingX 2 30 []
    let s' := { movingX 2 30 [.reset] with port := some ⟨0x7, 0, 0, 0, 0⟩ }
    s.Inv ∧ s'.Inv ∧ s.mode = .run ∧ s'.mode = .run ∧ s.cfg = s'.cfg ∧ s.axis .x = s'.axis .x ∧
    s.inputs = .poll 30 :: [] ∧ s'.inputs = .poll 30 :: [.reset] ∧ (∃ u, step s = .next u) ∧ (∃ u, step s' = .next u) ∧
    1 ≤ (polled 30 s).x.left + (polled 30 s).y.left ∧ 1 ≤ (polled 30 s').x.left + (polled 30 s').y.left :=
  ⟨witness_inv_moving (by decide) _ _ none, witness_inv_moving (by decide) _ _ _, rfl, rfl, rfl, rfl, rfl, rfl,
    of_isSome (by decide), of_isSome (by decide), by decide, by decide⟩

theorem witness_OnlyItsAdvanceWritesAnOutput :
    (movingX 2 30 []).Inv ∧ ∃ u, step (movingX 2 30 []) = .next u ∧ (u.axis .x).out ≠ ((movingX 2 30 []).axis .x).out := by
  refine ⟨witness_inv_moving (by decide) _ _ none, ?_⟩
  have h : ((nextState? (step (movingX 2 30 []))).map (fun t => decide (t.x.out ≠ none))) = some true := by decide
  cases hs : step (movingX 2 30 []) with
  | next u => rw [hs] at h; exact ⟨u, rfl, by simpa [nextState?, State.axis, movingX, AxisRegs.initial] using h⟩
  | fault f => rw [hs] at h; cases h
  | refused f => rw [hs] at h; cases h

/-- The Reset that clears an output. -/
theorem witness_OnlyItsAdvanceWritesAnOutput_reset :
    (steppedOnce [.reset]).Inv ∧ fetch (steppedOnce [.reset]) = none ∧ ((steppedOnce [.reset]).axis .x).out ≠ none ∧
    (nextState? (step (steppedOnce [.reset]))).map (fun u => (u.axis .x).out) = some none :=
  ⟨witness_inv_stepped _, by decide, by decide, by decide⟩

theorem witness_PollReportsNoError :
    (movingX 2 30 []).mode = .run ∧ (movingX 2 30 []).inputs = .poll 30 :: [] ∧ ∃ u, step (movingX 2 30 []) = .next u :=
  ⟨rfl, rfl, of_isSome (by decide)⟩

theorem witness_StepNeverSticks :
    (State.Inv { State.reset with port := some ⟨0xF, 0, 0, 0, 0⟩, inputs := [] } ∧
      fetch { State.reset with port := some ⟨0xF, 0, 0, 0, 0⟩, inputs := [] } ≠ none) ∧
    ((movingX 1 30 []).Inv ∧ clockDutyKept (movingX 1 30 [])) :=
  ⟨⟨witness_inv_reset _ _, by decide⟩, witness_inv_moving (by decide) _ _ none, duty_ok rfl⟩

/-! Witnesses of the move statements. -/

theorem witness_RunMoveRule :
    ((1 : Int) ≠ 0 ∧ State.reset.y.stepDelay = none) ∧
    (State.reset.Inv ∧ State.reset.mode = .idle) ∧
    (((0 : Int) ≠ 0 → afterInit10.y.stepDelay ≠ none) ∧ ((-2 : Int) ≠ 0 → afterInit10.x.stepDelay ≠ none) ∧
      ((0 : Int) ≠ 0 ∨ (-2 : Int) ≠ 0)) ∧ (∃ c : Command, c.op = 0x9) :=
  ⟨by decide, ⟨witness_inv_reset none [], rfl⟩, by decide, ⟨0x9, 0, 0, 0, 0⟩, rfl⟩

theorem witness_MoveXRule :
    ((1 : Int) ≠ 0 ∧ State.reset.x.stepDelay = none) ∧ (State.reset.Inv ∧ State.reset.mode = .idle) ∧
    ((-1 : Int) ≠ 0 ∧ afterInit10.x.stepDelay ≠ none) ∧ (∃ c : Command, c.op = 0x2) :=
  ⟨by decide, ⟨witness_inv_reset none [], rfl⟩, by decide, ⟨0x2, 0, 0, 0, 0⟩, rfl⟩

theorem witness_MoveYRule :
    ((1 : Int) ≠ 0 ∧ State.reset.y.stepDelay = none) ∧ (State.reset.Inv ∧ State.reset.mode = .idle) ∧
    ((-1 : Int) ≠ 0 ∧ afterInit10.y.stepDelay ≠ none) ∧ (∃ c : Command, c.op = 0x3) :=
  ⟨by decide, ⟨witness_inv_reset none [], rfl⟩, by decide, ⟨0x3, 0, 0, 0, 0⟩, rfl⟩

/-- The four clauses of a straight move: no top speed; (1, 3) at 1 rpm; the empty move; (3, 4) and a one-axis move. -/
theorem witness_LinearToRule :
    State.reset.maxSpeed = none ∧
    (afterInit1.maxSpeed = some 1 ∧ 1 ≤ 1 ∧ ¬ planPasses 1 ((1 : Int) - 0, (3 : Int) - 0)) ∧
    (afterInit10.maxSpeed = some 10 ∧ ((5 : Int) - 5, (5 : Int) - 5) = (0, 0) ∧ afterInit10.Inv ∧ afterInit10.mode = .idle) ∧
    (1 ≤ 10 ∧ ((3 : Int) - 0, (4 : Int) - 0) ≠ (0, 0) ∧ planPasses 10 ((3 : Int) - 0, (4 : Int) - 0)) ∧
    (((-3 : Int), (0 : Int)) ≠ (0, 0) ∧ planPasses 10 (-3, 0)) ∧ (∃ c : Command, c.op = 0x4) :=
  ⟨rfl, ⟨rfl, by decide, by unfold planPasses; decide⟩, ⟨rfl, by decide, witness_inv_idle none [], rfl⟩,
    ⟨by decide, by decide, by unfold planPasses; decide⟩, ⟨by decide, by unfold planPasses; decide⟩,
    ⟨0x4, 0, 0, 0, 0⟩, rfl⟩

/-- The projections the clauses rest on: (10, 0) by the law, (5, 8), and (0, 0). -/
theorem witness_PolarToRule :
    State.reset.maxSpeed = none ∧
    (afterInit10.maxSpeed = some 10 ∧ 1 ≤ 10 ∧ project afterInit10.cfg 10 0 = (10, 0) ∧ ((10 : Int), (0 : Int)) ≠ (0, 0) ∧
      planPasses 10 (10, 0)) ∧
    (project afterInit10.cfg 0 0 = (0, 0) ∧ afterInit10.Inv ∧ afterInit10.mode = .idle) ∧
    (afterInit1.maxSpeed = some 1 ∧ project afterInit1.cfg 10 65536 = (5, 8) ∧ ¬ planPasses 1 (5, 8)) ∧
    (∃ c : Command, c.op = 0x5) := by
  have h : project defaultConfig 10 65536 = (5, 8) := by decide +kernel
  refine ⟨rfl, ⟨rfl, by decide, by simp [project], by decide, ?_⟩, ⟨by simp [project], witness_inv_idle none [], rfl⟩,
    ⟨rfl, h, ?_⟩, ⟨0x5, 0, 0, 0, 0⟩, rfl⟩
  · unfold planPasses; decide
  · unfold planPasses; decide

theorem witness_MajorZeroNeverReported : (1 : Nat) ≠ 0 := by decide

theorem witness_PlannedSpeedsHaveDelays :
    1 ≤ 10 ∧ 1 ≤ delay defaultConfig .x 10 ∧ 1 ≤ delay defaultConfig .y 10 ∧
    planCheck (some 10) (3, 4) = .ok (some 7, some 10) := by decide

/-! Witnesses of the arc statements. -/

theorem witness_ArcAngleSchedule :
    (1 : Int) ≤ 65536 ∧ (0 : Int) ≠ 100000 ∧ arcCount 0 100000 65536 = 2 ∧ 0 + 1 < arcCount 0 100000 65536 ∧
    1 + 1 = arcCount 0 100000 65536 ∧ 2 ≤ arcCount 0 100000 65536 ∧ arcCount 7 7 1 = 0 ∧ arcCount 0 1 65536 = 1 ∧
    arcCount 0 (-131072) 65536 = 2 := by decide

theorem witness_ArcErrorsRule :
    State.reset.maxSpeed = none ∧ (afterInit10.maxSpeed ≠ none ∧ (0 : Int) ≤ 0) ∧
    (afterInit1.maxSpeed = some 1 ∧ 1 ≤ 1 ∧ (1 : Int) ≤ 65536 ∧ 1 ≤ 1 ∧ 1 ≤ arcCount 0 131072 65536 ∧
      ¬ planPasses 1 (segDelta afterInit1.cfg 10 0 131072 65536 (arcCount 0 131072 65536) 1)) ∧
    (∃ c : Command, c.op = 0x6) := by
  refine ⟨rfl, by decide, ⟨rfl, by decide, by decide, by decide, by decide, ?_⟩, ⟨0x6, 0, 0, 0, 0⟩, rfl⟩
  have h : segDelta afterInit1.cfg 10 0 131072 65536 (arcCount 0 131072 65536) 1 = (-5, 8) := by decide +kernel
  rw [h]
  unfold planPasses
  decide

theorem witness_ArcStartsItsFirstSegment :
    let K := arcCount 0 131072 65536
    let D := segDelta afterInit10.cfg 10 0 131072 65536 K
    afterInit10.maxSpeed = some 10 ∧ 1 ≤ 10 ∧ (1 : Int) ≤ 65536 ∧ (∀ j, 1 ≤ j → j ≤ K → planPasses 10 (D j)) ∧
    1 ≤ 1 ∧ 1 ≤ K ∧ D 1 ≠ (0, 0) ∧ ∀ j, 1 ≤ j → j < 1 → D j = (0, 0) := by
  have hK : arcCount 0 131072 65536 = 2 := by decide
  have h1 : segDelta afterInit10.cfg 10 0 131072 65536 2 1 = (-5, 8) := by decide +kernel
  have h2 : segDelta afterInit10.cfg 10 0 131072 65536 2 2 = (-9, 1) := by decide +kernel
  simp only [hK]
  refine ⟨rfl, by decide, by decide, ?_, by decide, by decide, by rw [h1]; decide, fun j a b => by omega⟩
  intro j a b
  obtain rfl | rfl : j = 1 ∨ j = 2 := by omega
  · rw [h1]; unfold planPasses; decide
  · rw [h2]; unfold planPasses; decide

theorem witness_EmptyArcCompletes :
    afterInit10.Inv ∧ afterInit10.mode = .idle ∧ afterInit10.maxSpeed = some 10 ∧ (1 : Int) ≤ 1 ∧
    ((5 : Int) = 5 ∧ (0 : Int) = 0) ∧
    ∀ j, 1 ≤ j → j ≤ arcCount 0 1 65536 → segDelta afterInit10.cfg 1 0 0 65536 (arcCount 0 1 65536) j = (0, 0) := by
  refine ⟨witness_inv_idle none [], rfl, rfl, by decide, by decide, ?_⟩
  have hK : arcCount 0 1 65536 = 1 := by decide
  rw [hK]
  intro j a b
  obtain rfl : j = 1 := by omega
  decide

/-- The Poll that ends the first segment, and one that does not. -/
theorem witness_ArcPositionFollowsThePoints :
    ((inArc 0 1 1210).Inv ∧ (inArc 0 1 1210).mode = .run ∧ (inArc 0 1 1210).arc.active = true ∧
      (inArc 0 1 1210).inputs = .poll 1210 :: [] ∧ ∃ u, step (inArc 0 1 1210) = .next u) ∧
    ((inArc 5 8 29).Inv ∧ ∃ u, step (inArc 5 8 29) = .next u) :=
  ⟨⟨witness_inv_arc (by decide) _, rfl, rfl, rfl, of_isSome (by decide +kernel)⟩, witness_inv_arc (by decide) _,
    of_isSome (by decide)⟩

theorem witness_DefaultProjectionTruncates :
    defaultConfig.projection = .truncating ∧ project defaultConfig (-10) (-131072) = (4, 9) := by decide +kernel

/-! Witnesses of the statements about position, errors and the whole machine. -/

/-- The last positions a 32-bit port shows. -/
theorem witness_ReadPosRule :
    positionsFit { State.reset with posX := 2147483647, posY := -2147483648 } = true ∧
    positionsFit { State.reset with posX := 2147483648 } = false := by decide

theorem witness_ReservedOpcodesAreIllegal : isReserved .reserved0 = true ∧ isReserved .reservedF = true := by decide

theorem witness_ErrorsArePrecise : ∃ u, exec (.setSpeed 2 10) State.reset = .next u ∧ u.err ≠ 0 :=
  ⟨_, rfl, by decide⟩

theorem witness_ErrorMatrix : ∃ u, exec (.setSpeed 2 10) State.reset = .next u := ⟨_, rfl⟩

theorem witness_AcceptWritesNoPin : ∃ u, exec (.moveX (-3)) afterInit10 = .next u := of_isSome (by decide)

theorem witness_PositionChangesOnlyAtCompletion :
    (movingX 1 30 []).Inv ∧ ∃ u, step (movingX 1 30 []) = .next u ∧ u.posX ≠ (movingX 1 30 []).posX := by
  refine ⟨witness_inv_moving (by decide) _ _ none, ?_⟩
  have h : ((nextState? (step (movingX 1 30 []))).map State.posX) = some 2 := by decide
  cases hs : step (movingX 1 30 []) with
  | next u =>
    rw [hs] at h
    refine ⟨u, rfl, ?_⟩
    have h' : u.posX = 2 := by simpa [nextState?] using h
    rw [h']; decide
  | fault f => rw [hs] at h; cases h
  | refused f => rw [hs] at h; cases h

/-- The Reset that clears a position. -/
theorem witness_PositionChangesOnlyAtCompletion_reset :
    (steppedOnce [.reset]).Inv ∧ (steppedOnce [.reset]).posX = 2 ∧
    (nextState? (step (steppedOnce [.reset]))).map State.posX = some 0 :=
  ⟨witness_inv_stepped _, rfl, by decide⟩

theorem witness_SpecialRegistersHaveOneWriter :
    (∃ u, exec (.init 10) State.reset = .next u ∧ u.maxSpeed ≠ State.reset.maxSpeed) ∧
    ∃ u, exec .readPos { State.reset with posX := 3, posY := 4 } = .next u ∧
      u.resX ≠ ({ State.reset with posX := 3, posY := 4 } : State).resX :=
  ⟨⟨_, rfl, by decide⟩, _, rfl, by decide⟩

/-- Steps that change them: the Accepts and the Reset. -/
theorem witness_SpecialRegistersHaveOneWriter_step :
    (nextState? (step { State.reset with port := some ⟨0x1, 10, 0, 0, 0⟩ })).map State.maxSpeed = some (some 10) ∧
    (nextState? (step { State.reset with posX := 3, posY := 4, port := some ⟨0x7, 0, 0, 0, 0⟩ })).map
      (fun u => (u.resX, u.resY)) = some (3, 4) ∧
    (nextState? (step { afterInit10 with resX := 3, inputs := [.reset] })).map (fun u => (u.maxSpeed, u.resX))
      = some (none, 0) := by decide

/-- A delay changes by SET_SPEED, by the next segment of an arc, and by Reset. -/
theorem witness_SpeedsPersist :
    (State.Inv { State.reset with port := some ⟨0x8, 0, 60, 0, 0⟩, inputs := [] } ∧
      (nextState? (step { State.reset with port := some ⟨0x8, 0, 60, 0, 0⟩ })).map (fun u => u.x.stepDelay)
        = some (some 5)) ∧
    ((inArc 0 1 1210).Inv ∧
      (nextState? (step (inArc 0 1 1210))).map (fun u => u.x.stepDelay) = some (some 30)) ∧
    (State.Inv { afterInit10 with port := none, inputs := [.reset] } ∧
      (nextState? (step { afterInit10 with inputs := [.reset] })).map (fun u => u.x.stepDelay) = some none) :=
  ⟨⟨witness_inv_reset _ _, by decide⟩, ⟨witness_inv_arc (by decide) _, by decide +kernel⟩, witness_inv_idle _ _, by decide⟩

theorem witness_ResetSetsEveryRegister :
    (let s := { movingX 2 0 [] with inputs := [.reset] }
     s.cfg.check = none ∧ s.mode = .run ∧ s.inputs = .reset :: []) ∧
    (let s := { afterInit10 with port := some ⟨0x7, 0, 0, 0, 0⟩, inputs := [.reset] }
     s.cfg.check = none ∧ s.mode = .idle ∧ s.inputs = .reset :: []) := by decide

theorem witness_OnlyCompletionOrResetEndsAMove :
    (movingX 1 30 []).Inv ∧ (movingX 1 30 []).mode = .run ∧
    (nextState? (step (movingX 1 30 []))).map State.mode = some .idle :=
  ⟨witness_inv_moving (by decide) _ _ none, rfl, by decide⟩

theorem witness_TraceOnlyGrows : ∃ u, step (movingX 2 30 []) = .next u := of_isSome (by decide)

theorem witness_ConstructionMeetsTheInvariant :
    Config.check { defaultConfig with stepsX := 1, stepsY := 60001, projection := .given [] } = none := by decide

theorem witness_StepKeepsTheInvariant : (movingX 1 30 []).Inv ∧ ∃ u, step (movingX 1 30 []) = .next u :=
  ⟨witness_inv_moving (by decide) _ _ none, of_isSome (by decide)⟩

theorem witness_StepKeepsTheWidths :
    State.reset.Inv ∧ State.reset.FitsWidths ∧ ProjectionBounded State.reset.cfg ∧ ∃ u, step State.reset = .next u := by
  refine ⟨witness_inv_reset none [], ?_, projectionBounded_default rfl, of_isSome (by decide)⟩
  exact
    { index := fun a => by cases a <;> exact Nat.two_pow_pos _
      delay := fun a d h => by cases a <;> cases h
      time := fun a => by cases a <;> exact Nat.two_pow_pos _
      left := fun a => by cases a <;> exact Nat.two_pow_pos _
      maxSpeed := fun m h => by cases h
      radius := by decide
      startAngle := by decide
      endAngle := by decide
      inc := by decide
      k := Nat.two_pow_pos _
      kmax := Nat.two_pow_pos _ }

theorem witness_ReachableStatesMeetR34 : Reachable State.reset :=
  .constructed defaultConfig none [] (by decide)

/-- MOVE_X 2 with its first Poll at 10 and its last at 60 (f = 30, d = 30). -/
theorem witness_MoveDuration :
    let s := { movingX 2 0 [] with inputs := pollsFrom 10 51 ++ [] }
    s.Inv ∧ s.mode = .run ∧ s.arc.active = false ∧ (∀ c, s.clockSeen = some c → c ≤ 10) ∧
    (∀ a, (s.axis a).lastStepTime ≤ 10) ∧ moveEnd 10 s = 60 ∧ moveEnd 10 s < 2 ^ s.cfg.timeBits ∧
    s.inputs = pollsFrom 10 (moveEnd 10 s + 1 - 10) ++ [] := by
  intro s
  refine ⟨?_, rfl, rfl, ?_, ?_, by decide, by decide, rfl⟩
  · exact witness_inv_moving (left := 2) (by decide) 10 _ none
  · intro c h
    cases h
  · intro a
    cases a <;> decide

end Sys2Proof.Tests
end

