-- ==== Sys2Proof/Proofs/Construction.lean ====
section
/-! SUPPORT. Which configurations have a machine, and what construction and a step answer where there is none (R5,
R122, R135). -/

namespace Sys2Proof.Machine

/-- The configurations of R5: both step counts positive, both winding widths 2 or 4. -/
def LegalConfig (c : Config) : Prop :=
  1 ≤ c.stepsX ∧ 1 ≤ c.stepsY ∧ (c.windingX = 2 ∨ c.windingX = 4) ∧ (c.windingY = 2 ∨ c.windingY = 4)

/-- What the refusal of a configuration by this cause says of it (R122). -/
def CauseApplies (c : Config) : ConfigError → Prop
  | .stepsPerRevInvalid => c.stepsX < 1 ∨ c.stepsY < 1
  | .windingUnsupported => ¬ ((c.windingX = 2 ∨ c.windingX = 4) ∧ (c.windingY = 2 ∨ c.windingY = 4))

/-- The refusal of every step where construction is refused by this cause. -/
def refusalOf : ConfigError → Refusal
  | .stepsPerRevInvalid => .stepsPerRevInvalid
  | .windingUnsupported => .windingUnsupported

theorem stepsOk_iff (n : Int) : stepsOk n = true ↔ 1 ≤ n := by simp [stepsOk]

theorem windingOk_iff (w : Nat) : windingOk w = true ↔ w = 2 ∨ w = 4 := by simp [windingOk]

/-- A legal configuration passes the check. -/
theorem LegalConfig.check_eq_none {c : Config} (h : LegalConfig c) : c.check = none := by
  obtain ⟨nx, ny, wx, wy⟩ := h
  rw [← stepsOk_iff] at nx ny
  rw [← windingOk_iff] at wx wy
  simp [Config.check, nx, ny, wx, wy]

/-- Any other configuration fails the check, and by a cause that applies. -/
theorem check_of_not_legal {c : Config} (h : ¬ LegalConfig c) : ∃ e, c.check = some e ∧ CauseApplies c e := by
  unfold Config.check
  split
  next hsteps =>
    refine ⟨_, rfl, ?_⟩
    rw [Bool.and_eq_false_iff, ← Bool.not_eq_true, ← Bool.not_eq_true, stepsOk_iff, stepsOk_iff] at hsteps
    simpa only [CauseApplies, not_le] using hsteps
  next hsteps =>
    rw [Bool.not_eq_false, Bool.and_eq_true, stepsOk_iff, stepsOk_iff] at hsteps
    have hwinding : ¬ ((c.windingX = 2 ∨ c.windingX = 4) ∧ (c.windingY = 2 ∨ c.windingY = 4)) :=
      fun hw => h ⟨hsteps.1, hsteps.2, hw⟩
    refine ⟨.windingUnsupported, ?_, hwinding⟩
    rw [if_pos]
    rwa [← windingOk_iff, ← windingOk_iff, ← Bool.and_eq_true, Bool.not_eq_true] at hwinding

theorem construct_legal {c : Config} (h : c.check = none) : construct c = .ok (State.initial c) := by
  simp [construct, h]

theorem construct_refused {c : Config} {e : ConfigError} (h : c.check = some e) : construct c = .error e := by
  simp [construct, h]

/-- Every step of a state whose configuration has no machine is refused by the cause of the check (R122). -/
theorem step_refused {s : State} {e : ConfigError} (h : s.cfg.check = some e) : step s = .refused (refusalOf e) := by
  cases e <;> simp [step, constructionRefusal, refusalOf, h]

/-- Settles O12: the check passes exactly the legal configurations, and construction and every step follow it. -/
theorem illegalConfigurationsRefused : Obligations.IllegalConfigurationsRefused := by
  intro c
  refine ⟨fun legal => construct_legal (LegalConfig.check_eq_none legal), fun illegal => ?_⟩
  obtain ⟨e, hcheck, happlies⟩ := check_of_not_legal illegal
  have hstep : ∀ s : State, s.cfg = c → step s = .refused (refusalOf e) :=
    fun s hs => step_refused (hs ▸ hcheck)
  cases e with
  | stepsPerRevInvalid =>
    exact ⟨.inl ⟨happlies, construct_refused hcheck⟩, fun s hs => .inl ⟨happlies, hstep s hs⟩⟩
  | windingUnsupported =>
    exact ⟨.inr ⟨happlies, construct_refused hcheck⟩, fun s hs => .inr ⟨happlies, hstep s hs⟩⟩

end Sys2Proof.Machine
end

