-- ==== Sys2Proof/Proofs/Trace.lean ====
section
/-! SUPPORT. What an Accept leaves of the pins and the clock (R13, R123), and what a Poll and any other step leave of
the trace (R14, R37), in every state. -/

namespace Sys2Proof.Machine

theorem accepted_frame {s t : State} (h : MoveFrame (accepted s) t) (a : Axis) :
    (t.axis a).stepIndex = (s.axis a).stepIndex ∧ (t.axis a).lastStepTime = (s.axis a).lastStepTime ∧
      (t.axis a).out = (s.axis a).out := by
  simp [h.stepIndex, h.lastStepTime, h.out]

/-- A speed write changes nothing of an axis but its delay. -/
theorem setDelay_frame (a : Axis) (d : Nat) (s : State) : MoveFrame s (setDelay a d s) := by
  constructor
  case stepIndex | lastStepTime | out => intro b; cases a <;> cases b <;> rfl
  all_goals simp

/-- Settles O49: of the four things an accepted command can leave, none touches a pin, the clock or the environment's
side of the ports. -/
theorem acceptWritesNoPin : Obligations.AcceptWritesNoPin := by
  intro i s u h
  rcases exec_next h with ⟨c, rfl⟩ | hframe | ⟨m, dx, dy, -, -, -, -, -, -, rfl⟩ | ⟨-, rfl⟩
  · exact ⟨rfl, rfl, rfl, rfl, rfl, fun a => by simp⟩
  · exact ⟨hframe.trace, hframe.clockSeen, hframe.cfg, hframe.port, hframe.inputs, accepted_frame hframe⟩
  · have hframe := (setDelay_frame .x dx (accepted s)).comp (setDelay_frame .y dy _)
    exact ⟨hframe.trace, hframe.clockSeen, hframe.cfg, hframe.port, hframe.inputs,
      forall_axis (accepted_frame hframe .x) (accepted_frame hframe .y)⟩
  · exact ⟨rfl, rfl, rfl, rfl, rfl, forall_axis ⟨rfl, rfl, rfl⟩ ⟨rfl, rfl, rfl⟩⟩

/-- Everything a probe can leave: the state as it was, or new registers of the axis and one event (R78, R89). -/
theorem probeAxis_next {a : Axis} {now : Nat} {s t : State} (h : probeAxis a now s = .ok t) :
    t = s ∨ ∃ r e, t = record e (s.setAxis a r) := by
  unfold probeAxis at h
  split at h
  · cases h; exact .inl rfl
  · split at h
    · cases h
    · cases h; exact .inl rfl
    · cases h; exact .inr ⟨_, _, rfl⟩

theorem probeAxis_trace {a : Axis} {now : Nat} {s t : State} (h : probeAxis a now s = .ok t) :
    s.trace <+: t.trace := by
  rcases probeAxis_next h with rfl | ⟨r, e, rfl⟩
  · exact List.prefix_rfl
  · simp

/-- Everything a scheduler pass can leave: the state after both probes, Y's first, or what the end of its segment
leaves where no steps remain (R89). -/
theorem schedulerPass_next {now : Nat} {s t : State} (h : schedulerPass now s = .ok t) :
    ∃ sy sx, probeAxis .y now s = .ok sy ∧ probeAxis .x now sy = .ok sx ∧ (t = sx ∨ complete sx = .ok t) := by
  unfold schedulerPass at h
  split at h
  · cases h
  · next sy hy =>
    split at h
    · cases h
    · next sx hx =>
      split at h
      · cases h; exact ⟨sy, _, hy, hx, .inl rfl⟩
      · exact ⟨sy, sx, hy, hx, .inr h⟩

/-- Everything a Poll can leave: the clock value seen, and in RUN a scheduler pass (R89, R90). -/
theorem poll_next {t : Nat} {s u : State} (h : poll t s = .ok u) :
    (s.mode = .idle ∧ u = { s with clockSeen := some t }) ∨
    (s.mode = .run ∧ schedulerPass (nowOf s.cfg t) { s with clockSeen := some t } = .ok u) := by
  unfold poll at h
  split at h
  · cases h
  · dsimp only at h
    split at h
    · next hm => cases h; exact .inl ⟨hm, rfl⟩
    · next hm => exact .inr ⟨hm, h⟩

theorem poll_trace {t : Nat} {s u : State} (h : poll t s = .ok u) : s.trace <+: u.trace := by
  rcases poll_next h with ⟨-, rfl⟩ | ⟨-, hpass⟩
  · exact List.prefix_rfl
  · obtain ⟨sy, sx, hy, hx, hend⟩ := schedulerPass_next hpass
    have hprobed : s.trace <+: sx.trace := (probeAxis_trace hy).trans (probeAxis_trace hx)
    rcases hend with rfl | hcomplete
    · exact hprobed
    · rwa [(complete_frame hcomplete).trace]

theorem step_trace {s u : State} (h : step s = .next u) : s.trace <+: u.trace := by
  obtain ⟨-, ⟨c, -, -, -, haccept⟩ | ⟨-, ⟨-, rfl⟩ | ⟨c, rest, -, rfl⟩ | ⟨rest, -, rfl⟩ | ⟨t, rest, -, hpoll⟩ |
    ⟨rest, -, rfl⟩⟩⟩ := step_next h
  · obtain ⟨htrace, -⟩ := acceptWritesNoPin _ _ _ haccept
    simp [htrace]
  · exact List.prefix_rfl
  · exact List.prefix_rfl
  · exact List.prefix_rfl
  · exact poll_trace (s := { s with inputs := rest }) hpoll
  · exact List.prefix_append _ _

/-- Settles O55: each transition leaves the trace or appends to it. -/
theorem traceOnlyGrows : Obligations.TraceOnlyGrows := by
  intro s u h
  obtain ⟨events, hevents⟩ := step_trace h
  exact ⟨events, hevents.symm⟩

end Sys2Proof.Machine
end

