-- ==== Sys2Proof/Proofs/PollOfAMove.lean ====
section
/-! SUPPORT. The Poll of a running move from a state of the invariant: the step it is, and what it leaves where steps
remain and where none do (R11, R89, R91, R103, R110). -/

namespace Sys2Proof.Machine

/-- The registers a plan writes on an axis are those of the rules' formula (R87, R88, R102, R103). -/
theorem plannedAxis_eq (c : Config) (a : Axis) (m : Nat) (count other : Int) (r : AxisRegs) :
    setCount count (withSpeed c a (plannedSpeed m count.natAbs other.natAbs) r) = plannedAxis c a m count other r := by
  have hdir : directionOf count r.dir = if 0 < count then .fwd else if count < 0 then .rev else r.dir := by
    unfold directionOf
    rcases lt_trichotomy count 0 with hneg | rfl | hpos
    · simp [hneg, hneg.ne, hneg.not_gt]
    · simp
    · simp [hpos, hpos.ne']
  cases hv : plannedSpeed m count.natAbs other.natAbs with
  | none => simp [setCount, withSpeed, plannedAxis, hv, hdir]
  | some v => simp [setCount, withSpeed, plannedAxis, hv, hdir, delay, delayNumerator]

/-- A segment that starts at top speed `m` gets the registers of a planned move by its delta (R103, R110). -/
theorem startSegment_eq {s : State} {m j : Nat} {v : Speeds} (hm : 1 ≤ m)
    (hp : planCheck (some m) (arcDelta s j) = .ok v) :
    startSegment j v s = { s with
      x := plannedAxis s.cfg .x m (arcDelta s j).1 (arcDelta s j).2 s.x
      y := plannedAxis s.cfg .y m (arcDelta s j).2 (arcDelta s j).1 s.y
      mode := .run
      pendX := (arcDelta s j).1
      pendY := (arcDelta s j).2
      arc := { s.arc with k := j } } := by
  obtain ⟨-, rfl⟩ := planCheck_next hm hp
  rw [startSegment, loadPlan_eq, ← plannedAxis_eq, ← plannedAxis_eq]
  rfl

section
variable {s : State} {t : Nat} {rest : List Input}
variable (hinv : s.Inv) (hrun : s.mode = .run) (hin : s.inputs = .poll t :: rest) (hduty : clockDutyKept s)
include hinv hrun hin hduty

/-- The step that is a Poll of a running move: the due axes step, and a segment without steps left completes (R89). -/
theorem step_polled :
    step s = toResult (if moving (polled t s) then .ok { polled t s with inputs := rest }
      else complete { polled t s with inputs := rest }) := by
  rw [step_poll hinv.config (.inl hrun) hin,
    poll_run (s := { s with inputs := rest }) t (hinv.axes .x).index_lt (hinv.axes .y).index_lt
      (hinv.axes .x).left_delay (hinv.axes .y).left_delay hrun
      ((clockBroken_eq_false _ _).mpr (hduty t rest hin))]
  rfl

theorem step_polled_moving (hleft : 1 ≤ (polled t s).x.left + (polled t s).y.left) :
    step s = .next { polled t s with inputs := rest } := by
  rw [step_polled hinv hrun hin hduty, if_pos ((moving_eq_true _).mpr hleft)]
  rfl

/-- The Poll that leaves no steps: the pending change is applied, and the move is finished, or the running arc's first
later segment with steps starts (R91, R110). -/
theorem step_polled_still (hleft : (polled t s).x.left + (polled t s).y.left = 0) :
    (step s = .next (finishMove (applyPending { polled t s with inputs := rest })) ∧
      (s.arc.active = true → ∀ i, s.arc.k < i → i ≤ s.arc.kmax → arcDelta s i = (0, 0))) ∨
    (s.arc.active = true ∧ ∃ j v, s.arc.k < j ∧ j ≤ s.arc.kmax ∧
      (∀ i, s.arc.k < i → i < j → arcDelta s i = (0, 0)) ∧ arcDelta s j ≠ (0, 0) ∧
      planCheck s.maxSpeed (arcDelta s j) = .ok v ∧
      step s = .next (startSegment j v (applyPending { polled t s with inputs := rest }))) := by
  have hstill : moving (polled t s) = false := (moving_eq_false _).mpr (by omega)
  obtain ⟨u, hu⟩ := complete_ok (s := { polled t s with inputs := rest }) (fun ha => (hinv.arcOn ha).planned)
  have hstep : step s = .next u := by
    rw [step_polled hinv hrun hin hduty, hstill, if_neg Bool.false_ne_true, hu]
    rfl
  rw [hstep]
  rcases complete_next (s := { polled t s with inputs := rest }) hstill hu with
    ⟨rfl, hempty⟩ | ⟨ha, j, v, hk, hkmax, hempty, hne, hplan, rfl⟩
  · exact .inl ⟨rfl, hempty⟩
  · exact .inr ⟨ha, j, v, hk, hkmax, hempty, hne, hplan, rfl⟩

end

/-- Settles O25: steps remain, so the pass ends after the two probes. -/
theorem pollWhileStepsRemain : Obligations.PollWhileStepsRemain :=
  fun _ _ _ hinv hrun hin hduty hleft => step_polled_moving hinv hrun hin hduty hleft

/-- Two segments that are both the first with steps after segment `k` are the same. -/
theorem first_segment_unique {s : State} {k i j : Nat} (hi : k < i) (hj : k < j) (hne_i : arcDelta s i ≠ (0, 0))
    (hne_j : arcDelta s j ≠ (0, 0)) (hempty_i : ∀ l, k < l → l < i → arcDelta s l = (0, 0))
    (hempty_j : ∀ l, k < l → l < j → arcDelta s l = (0, 0)) : i = j := by
  rcases lt_trichotomy i j with hlt | heq | hgt
  · exact absurd (hempty_j i hi hlt) hne_i
  · exact heq
  · exact absurd (hempty_i j hj hgt) hne_j

/-- Settles O26: each of the three cases excludes the outcomes of `step_polled_still` that are not its own. -/
theorem pollCompletesTheMove : Obligations.PollCompletesTheMove := by
  intro s t rest hinv hrun hin hduty hleft
  have hpoll := step_polled_still hinv hrun hin hduty hleft
  refine ⟨fun hoff => ?_, fun hon m j hmax hk hkmax hne hempty => ?_, fun hon hall => ?_⟩
  · rcases hpoll with ⟨hstep, -⟩ | ⟨hon, -⟩
    · rw [hstep, finishMove, ← hinv.arcOff hoff]
      rfl
    · exact absurd (hoff.symm.trans hon) Bool.false_ne_true
  · rcases hpoll with ⟨-, hall⟩ | ⟨-, j', v, hk', -, hempty', hne', hplan, hstep⟩
    · exact absurd (hall hon j hk hkmax) hne
    · obtain rfl := first_segment_unique hk hk' hne hne' hempty hempty'
      obtain ⟨hm, -⟩ := hinv.maxSpeed m hmax
      rw [hstep, startSegment_eq hm (hmax ▸ hplan)]
      simp only [polled, hrun]
      rfl
  · rcases hpoll with ⟨hstep, -⟩ | ⟨-, j, -, hk, hkmax, -, hne, -⟩
    · rw [hstep]
      rfl
    · exact absurd (hall j hk hkmax) hne

end Sys2Proof.Machine
end

