-- ==== Sys2Proof/Proofs/AcceptOutcome.lean ====
section
/-! SUPPORT. Everything the Accept of a command can answer, in every state: the report of an error, one of the writes
that start no move, or the launch of a move that is set up (R75, R85, R97 to R106, R123). -/

namespace Sys2Proof.Machine

/-- No plan answers MAJOR_ZERO (R115). -/
theorem planCheck_error_ne_majorZero {maxSpeed : Option Nat} {d : Delta} {c : Cause}
    (h : planCheck maxSpeed d = .error c) : c ≠ .majorZero := by
  cases maxSpeed with
  | none => cases h; decide
  | some m => rw [planCheck_error h]; decide

theorem speedCheck_error_ne_majorZero {cfg : Config} {a : Axis} {rpm : Int} {c : Cause}
    (h : speedCheck cfg a rpm = .error c) : c ≠ .majorZero := by
  unfold speedCheck at h
  split_ifs at h <;> cases h <;> decide

theorem runCheck_error {s : State} {ys xs : Int} {c : Cause} (h : runCheck s ys xs = .error c) : c = .speedUnset := by
  unfold runCheck at h
  split_ifs at h
  cases h
  rfl

theorem segmentChecks_error_ne_majorZero {maxSpeed : Option Nat} {delta : Nat → Delta} {n k : Nat} {c : Cause}
    (h : segmentChecks maxSpeed delta n k = .error c) : c ≠ .majorZero := by
  induction n generalizing k with
  | zero => cases h
  | succ n ih =>
    rw [segmentChecks] at h
    split at h
    next hplan => cases h; exact planCheck_error_ne_majorZero hplan
    next => exact ih h

/-- Where the checks of `n` segments from `k` on pass, each of them passes its plan (R106, R109). -/
theorem segmentChecks_next {maxSpeed : Option Nat} {delta : Nat → Delta} {n k : Nat} {u : Unit}
    (h : segmentChecks maxSpeed delta n k = .ok u) (j : Nat) (hk : k ≤ j) (hj : j < k + n) :
    ∃ v, planCheck maxSpeed (delta j) = .ok v := by
  induction n generalizing k with
  | zero => omega
  | succ n ih =>
    rw [segmentChecks] at h
    split at h
    next => cases h
    next v hplan =>
      rcases Nat.eq_or_lt_of_le hk with rfl | hlt
      · exact ⟨v, hplan⟩
      · exact ih h hlt (by omega)

theorem arcChecks_error_ne_majorZero {s : State} {r start stop inc : Int} {c : Cause}
    (h : arcChecks s r start stop inc = .error c) : c ≠ .majorZero := by
  unfold arcChecks at h
  split_ifs at h
  · cases h; decide
  · cases h; decide
  · dsimp only at h
    split at h
    next hseg => cases h; exact segmentChecks_error_ne_majorZero hseg
    next => cases h

/-- The checks of an arc that pass give its number of segments, each of which passes its plan (R106, R107, R109). -/
theorem arcChecks_next {s : State} {r start stop inc : Int} {K : Nat} (h : arcChecks s r start stop inc = .ok K) :
    1 ≤ inc ∧ K = arcCount start stop inc ∧
      ∀ j, 1 ≤ j → j ≤ K → ∃ v, planCheck s.maxSpeed (segDelta s.cfg r start stop inc K j) = .ok v := by
  unfold arcChecks at h
  split_ifs at h with _ hinc
  dsimp only at h
  split at h
  next => cases h
  next hseg =>
    cases h
    exact ⟨by omega, rfl, fun j h1 hK => segmentChecks_next hseg j h1 (by omega)⟩

/-- The registers of an accepted arc of `K` segments from its first segment on, before that segment is set up (R106). -/
def arcAccepted (r start stop inc : Int) (K : Nat) (s : State) : State :=
  { accepted s with arc := arcStarted r start stop inc K }

/-- The signed counts, Y first, and the pending position change of a move at the axes' own speeds (R85, R98, R99). -/
inductive OwnSpeedMove : Instr → (ys xs pdx pdy : Int) → Prop where
  | moveX (l : Int) : OwnSpeedMove (.moveX l) 0 l l 0
  | moveY (l : Int) : OwnSpeedMove (.moveY l) l 0 0 l
  | runMove (ys xs : Int) : OwnSpeedMove (.runMove ys xs) ys xs 0 0

/-- The delta of a planned straight move (R100, R105). -/
inductive StraightDelta (c : Config) : Instr → Delta → Prop where
  | linearTo (x1 y1 x2 y2 : Int) : StraightDelta c (.linearTo x1 y1 x2 y2) (x2 - x1, y2 - y1)
  | polarTo (r theta : Int) : StraightDelta c (.polarTo r theta) (project c r theta)

/-- Everything the Accept of an instruction can answer. -/
inductive AcceptOutcome (s : State) : Instr → Result → Prop where
  | error {i : Instr} (c : Cause) (hc : c ≠ .majorZero) : AcceptOutcome s i (.next (raise c s))
  | init (m : Int) (hm : 0 < m) (hd : ∀ a, 1 ≤ delay s.cfg a m.toNat) :
      AcceptOutcome s (.init m) (.next { setDelay .y (delay s.cfg .y m.toNat)
        (setDelay .x (delay s.cfg .x m.toNat) (accepted s)) with maxSpeed := some m.toNat })
  | setSpeed (sel rpm : Int) (a : Axis) (hd : 1 ≤ delay s.cfg a rpm.toNat) :
      AcceptOutcome s (.setSpeed sel rpm) (.next (setDelay a (delay s.cfg a rpm.toNat) (accepted s)))
  | readPos : AcceptOutcome s .readPos (.next { accepted s with resX := s.posX, resY := s.posY })
  | emptyArc (r start stop inc : Int) : AcceptOutcome s (.circularArc r start stop inc) (.next (accepted s))
  | ownSpeed {i : Instr} {ys xs pdx pdy : Int} (hmove : OwnSpeedMove i ys xs pdx pdy)
      (hcheck : runCheck s ys xs = .ok ()) :
      AcceptOutcome s i (toResult (launch (setupRun ys xs pdx pdy (accepted s))))
  | straight {i : Instr} {d : Delta} {v : Speeds} (hdelta : StraightDelta s.cfg i d)
      (hplan : planCheck s.maxSpeed d = .ok v) : AcceptOutcome s i (toResult (launch (loadPlan d v (accepted s))))
  | arc {r start stop inc : Int} {K : Nat} {v : Speeds} (hinc : 1 ≤ inc) (hK : 1 ≤ K)
      (hcount : K = arcCount start stop inc)
      (hplans : ∀ j, 1 ≤ j → j ≤ K → ∃ w, planCheck s.maxSpeed (segDelta s.cfg r start stop inc K j) = .ok w)
      (hfirst : planCheck s.maxSpeed (segDelta s.cfg r start stop inc K 1) = .ok v) :
      AcceptOutcome s (.circularArc r start stop inc)
        (toResult (launch (loadPlan (segDelta s.cfg r start stop inc K 1) v (arcAccepted r start stop inc K s))))

theorem acceptOutcome_ownSpeed {i : Instr} {ys xs pdx pdy : Int} (hmove : OwnSpeedMove i ys xs pdx pdy) (s : State) :
    AcceptOutcome s i (command (runCheck s ys xs) (fun _ t => startRun ys xs pdx pdy t) s) := by
  cases hcheck : runCheck s ys xs with
  | error c => obtain rfl := runCheck_error hcheck; exact .error _ (by decide)
  | ok _ => exact .ownSpeed hmove hcheck

theorem acceptOutcome_straightMove {i : Instr} {d : Delta} {s : State} (hdelta : StraightDelta s.cfg i d) :
    AcceptOutcome s i (straightMove d s) := by
  unfold straightMove
  cases hplan : planCheck s.maxSpeed d with
  | error c => exact .error c (planCheck_error_ne_majorZero hplan)
  | ok v => exact .straight hdelta hplan

theorem acceptOutcome_setSpeed (sel rpm : Int) (s : State) :
    AcceptOutcome s (.setSpeed sel rpm) (execSetSpeed sel rpm s) := by
  unfold execSetSpeed setSpeedChecks
  cases axisSelect sel with
  | none => exact .error _ (by decide)
  | some a =>
    dsimp only
    cases hspeed : speedCheck s.cfg a rpm with
    | error c => exact .error c (speedCheck_error_ne_majorZero hspeed)
    | ok d =>
      obtain ⟨-, rfl, hd⟩ := speedCheck_next hspeed
      exact .setSpeed sel rpm a hd

theorem acceptOutcome_init (m : Int) (s : State) : AcceptOutcome s (.init m) (execInit m s) := by
  unfold execInit initChecks
  cases hx : speedCheck s.cfg .x m with
  | error c => exact .error c (speedCheck_error_ne_majorZero hx)
  | ok dx =>
    dsimp only
    cases hy : speedCheck s.cfg .y m with
    | error c => exact .error c (speedCheck_error_ne_majorZero hy)
    | ok dy =>
      obtain ⟨hm, rfl, hdx⟩ := speedCheck_next hx
      obtain ⟨-, rfl, hdy⟩ := speedCheck_next hy
      exact .init m hm (forall_axis hdx hdy)

/-- The start of an arc's segment that passes its plan is the launch of that plan (R110). -/
theorem arcSegment_eq {k : Nat} {s : State} {v : Speeds} (h : planCheck s.maxSpeed (arcDelta s k) = .ok v) :
    arcSegment k s = launch (loadPlan (arcDelta s k) v s) := by
  simp [arcSegment, loadArcSegment, h]

theorem acceptOutcome_circularArc (r start stop inc : Int) (s : State) :
    AcceptOutcome s (.circularArc r start stop inc) (execCircularArc r start stop inc s) := by
  unfold execCircularArc
  cases hchecks : arcChecks s r start stop inc with
  | error c => exact .error c (arcChecks_error_ne_majorZero hchecks)
  | ok K =>
    obtain ⟨hinc, hcount, hplans⟩ := arcChecks_next hchecks
    rw [command_ok rfl]
    split
    next => exact .emptyArc r start stop inc
    next hK =>
      have hK : 1 ≤ K := by omega
      obtain ⟨v, hfirst⟩ := hplans 1 le_rfl hK
      have hsegment := arcSegment_eq (s := arcAccepted r start stop inc K s) hfirst
      rw [arcAccepted] at hsegment
      rw [hsegment]
      exact .arc hinc hK hcount hplans hfirst

/-- Every instruction answers one of these outcomes, in every state. -/
theorem exec_outcome (i : Instr) (s : State) : AcceptOutcome s i (exec i s) := by
  cases i with
  | init m => exact acceptOutcome_init m s
  | moveX l => exact acceptOutcome_ownSpeed (.moveX l) s
  | moveY l => exact acceptOutcome_ownSpeed (.moveY l) s
  | runMove ys xs => exact acceptOutcome_ownSpeed (.runMove ys xs) s
  | linearTo x1 y1 x2 y2 => exact acceptOutcome_straightMove (.linearTo x1 y1 x2 y2)
  | polarTo r theta => exact acceptOutcome_straightMove (.polarTo r theta)
  | circularArc r start stop inc => exact acceptOutcome_circularArc r start stop inc s
  | readPos => exact .readPos
  | setSpeed sel rpm => exact acceptOutcome_setSpeed sel rpm s
  | reserved0 | reservedA | reservedB | reservedC | reservedD | reservedE | reservedF =>
    exact .error .reservedOpcode (by decide)

end Sys2Proof.Machine
end

