-- ==== Sys2Proof/Proofs/InvariantSteps.lean ====
section
/-! SUPPORT. From a state of the invariant every Accept, and every Poll that keeps the clock duty, answers a next state
that meets the invariant again (R34, R109, R123, R140); and so does construction (R135). -/

namespace Sys2Proof.Machine

/-! Construction and Reset. -/

/-- A configuration that passes the check has a step count of at least 1 on each axis (R5, R122). -/
theorem stepsPerRev_pos {c : Config} (h : c.check = none) (a : Axis) : 0 < stepsPerRev c a := by
  have hlegal : LegalConfig c := by
    by_contra hillegal
    obtain ⟨e, he, -⟩ := check_of_not_legal hillegal
    exact Option.some_ne_none e (he.symm.trans h)
  obtain ⟨hx, hy, -, -⟩ := hlegal
  cases a <;> simp only [stepsPerRev] <;> omega

theorem AxisInv.initial {c : Config} (h : c.check = none) (a : Axis) : AxisInv c a AxisRegs.initial where
  index_lt := stepsPerRev_pos h a
  delay_range := by simp [AxisRegs.initial]
  left_delay := by simp [AxisRegs.initial]
  out_some := by simp [AxisRegs.initial]
  out_none := by simp [AxisRegs.initial]
  time_lt := by simp [AxisRegs.initial]

theorem State.Inv.initial {c : Config} (h : c.check = none) : (State.initial c).Inv where
  config := h
  axes := forall_axis (AxisInv.initial h .x) (AxisInv.initial h .y)
  maxSpeed := by simp [State.initial]
  idle := fun _ => ⟨rfl, rfl, rfl, rfl, rfl⟩
  run := by simp [State.initial]
  arcOff := fun _ => rfl
  arcOn := by simp [State.initial, ArcRegs.cleared]
  report := .inl ⟨rfl, rfl⟩

/-- The invariant says nothing of the result registers, the model-only registers and the environment's side. -/
theorem State.Inv.frame {s : State} (h : s.Inv) {resX resY : Int} {clockSeen : Option Nat} {trace : List TraceEvent}
    {port : Option Command} {inputs : List Input} :
    State.Inv { s with
      resX := resX, resY := resY, clockSeen := clockSeen, trace := trace, port := port, inputs := inputs } where
  config := h.config
  axes := forall_axis (h.axes .x) (h.axes .y)
  maxSpeed := fun m hm =>
    ⟨(h.maxSpeed m hm).1, forall_axis ((h.maxSpeed m hm).2 .x) ((h.maxSpeed m hm).2 .y)⟩
  idle := h.idle
  run := h.run
  arcOff := h.arcOff
  arcOn := fun ha =>
    have hr := h.arcOn ha
    ⟨hr.inc_pos, hr.k_pos, hr.k_le, hr.kmax_eq, hr.pending, hr.planned⟩
  report := h.report

theorem State.Inv.resetBlock {s : State} (h : s.Inv) : (resetBlock s).Inv :=
  (State.Inv.initial h.config).frame

/-! The writes of an Accept that start no move. -/

theorem State.Inv.accepted {s : State} (h : s.Inv) : (accepted s).Inv where
  config := h.config
  axes := h.ready.axes
  maxSpeed := h.ready.maxSpeed
  idle := h.idle
  run := fun hm => ⟨(h.run hm).1, rfl, rfl⟩
  arcOff := h.arcOff
  arcOn := h.ready.arcOn
  report := .inl ⟨rfl, rfl⟩

theorem AxisInv.withDelay {c : Config} {a : Axis} {r : AxisRegs} (h : AxisInv c a r) {d : Nat} (h1 : 1 ≤ d)
    (h2 : d ≤ 60000) : AxisInv c a { r with stepDelay := some d } where
  index_lt := h.index_lt
  delay_range := by simp [h1, h2]
  left_delay := by simp
  out_some := h.out_some
  out_none := h.out_none
  time_lt := h.time_lt

theorem setDelay_axis (a b : Axis) (d : Nat) (s : State) :
    (setDelay a d s).axis b = if a = b then { s.axis b with stepDelay := some d } else s.axis b := by
  cases a <;> cases b <;> rfl

theorem State.Inv.setDelay {s : State} (h : s.Inv) (a : Axis) {d : Nat} (h1 : 1 ≤ d) (h2 : d ≤ 60000) :
    (setDelay a d s).Inv where
  config := by simpa using h.config
  axes := fun b => by
    rw [setDelay_axis, setDelay_cfg]
    split
    · exact (h.axes b).withDelay h1 h2
    · exact h.axes b
  maxSpeed := fun m hm => by
    rw [setDelay_maxSpeed] at hm
    obtain ⟨hm1, hset⟩ := h.maxSpeed m hm
    refine ⟨hm1, fun b => ⟨by simpa using (hset b).1, ?_⟩⟩
    rw [setDelay_axis]
    split
    · simp
    · exact (hset b).2
  idle := by cases a <;> exact h.idle
  run := by cases a <;> exact h.run
  arcOff := by simpa using h.arcOff
  arcOn := fun ha => by
    rw [setDelay_arc] at ha
    have hr := h.arcOn ha
    cases a <;> exact ⟨hr.inc_pos, hr.k_pos, hr.k_le, hr.kmax_eq, hr.pending, hr.planned⟩
  report := by simpa using h.report

/-- A top speed may be written in IDLE where it gives both axes a delay and both delays are set (R97). -/
theorem State.Inv.withMaxSpeed {s : State} (h : s.Inv) (hidle : s.mode = .idle) {m : Nat} (hm : 1 ≤ m)
    (hset : ∀ a, 1 ≤ delay s.cfg a m ∧ (s.axis a).stepDelay ≠ none) : State.Inv { s with maxSpeed := some m } where
  config := h.config
  axes := forall_axis (h.axes .x) (h.axes .y)
  maxSpeed := fun _ hm' => by
    cases hm'
    exact ⟨hm, forall_axis (hset .x) (hset .y)⟩
  idle := h.idle
  run := h.run
  arcOff := h.arcOff
  arcOn := fun ha => by
    obtain ⟨-, -, hoff, -, -⟩ := h.idle hidle
    exact absurd (hoff.symm.trans ha) Bool.false_ne_true
  report := h.report

theorem State.Inv.afterInit {s : State} (h : s.Inv) (hidle : s.mode = .idle) {m : Nat} (hm : 1 ≤ m)
    (hd : ∀ a, 1 ≤ delay s.cfg a m) :
    State.Inv { Machine.setDelay .y (delay s.cfg .y m) (Machine.setDelay .x (delay s.cfg .x m) s) with
      maxSpeed := some m } := by
  have hdelays := (h.setDelay .x (hd .x) (delay_le ..)).setDelay .y (hd .y) (delay_le ..)
  refine hdelays.withMaxSpeed hidle hm (forall_axis ⟨hd .x, ?_⟩ ⟨hd .y, ?_⟩) <;> simp

/-! The start of a move. -/

theorem Ready.setupRun {s : State} (h : Ready s) (hoff : s.arc.active = false) {ys xs pdx pdy : Int}
    (hy : ys ≠ 0 → s.y.stepDelay ≠ none) (hx : xs ≠ 0 → s.x.stepDelay ≠ none) :
    Ready (setupRun ys xs pdx pdy s) where
  config := h.config
  axes := forall_axis ((h.axes .x).setCount hx) ((h.axes .y).setCount hy)
  maxSpeed := fun m hm =>
    ⟨(h.maxSpeed m hm).1, forall_axis ((h.maxSpeed m hm).2 .x) ((h.maxSpeed m hm).2 .y)⟩
  err := h.err
  errCause := h.errCause
  arcOff := h.arcOff
  arcOn := fun ha => absurd (hoff.symm.trans ha) Bool.false_ne_true

section
variable {s : State} {r start stop inc : Int} {K : Nat} (v : Speeds)
variable (hinc : 1 ≤ inc) (hK : 1 ≤ K) (hcount : K = arcCount start stop inc)
variable (hplans : ∀ j, 1 ≤ j → j ≤ K → ∃ w, planCheck s.maxSpeed (segDelta s.cfg r start stop inc K j) = .ok w)
include hinc hK hcount hplans

/-- The arc's registers once its first segment is set up (R106, R109, R110). -/
theorem arcRunning_firstSegment :
    ArcRunning (loadPlan (segDelta s.cfg r start stop inc K 1) v (arcAccepted r start stop inc K s)) where
  inc_pos := by simpa [arcAccepted, arcStarted] using hinc
  k_pos := by simp [arcAccepted, arcStarted]
  k_le := by simpa [arcAccepted, arcStarted] using hK
  kmax_eq := by simpa [arcAccepted, arcStarted] using hcount
  pending := by simp [arcDelta, arcAccepted, arcStarted]
  planned := by
    simp only [loadPlan_maxSpeed, loadPlan_arc, arcDelta, loadPlan_cfg]
    exact fun j hj hjK => hplans j hj.le hjK

/-- An accepted arc whose first segment is set up is ready. -/
theorem Ready.firstSegment (h : Ready (accepted s))
    (hfirst : planCheck s.maxSpeed (segDelta s.cfg r start stop inc K 1) = .ok v) :
    Ready (Machine.loadPlan (segDelta s.cfg r start stop inc K 1) v (arcAccepted r start stop inc K s)) := by
  have hmax : ∀ m, s.maxSpeed = some m →
      1 ≤ m ∧ ∀ a, 1 ≤ delay s.cfg a m ∧ ((arcAccepted r start stop inc K s).axis a).stepDelay ≠ none :=
    fun m hm => ⟨(h.maxSpeed m hm).1, forall_axis ((h.maxSpeed m hm).2 .x) ((h.maxSpeed m hm).2 .y)⟩
  obtain ⟨haxes, hdelays⟩ := loadPlan_axes (s := arcAccepted r start stop inc K s)
    (forall_axis (h.axes .x) (h.axes .y)) hmax hfirst
  exact {
    config := by simpa [arcAccepted] using h.config
    axes := by simpa using haxes
    maxSpeed := fun m hm => by
      rw [loadPlan_maxSpeed] at hm
      rw [loadPlan_cfg]
      exact ⟨(hmax m hm).1, fun a => ⟨((hmax m hm).2 a).1, hdelays a⟩⟩
    err := by simp [arcAccepted]
    errCause := by simp [arcAccepted]
    arcOff := by simp [arcAccepted, arcStarted]
    arcOn := fun _ => arcRunning_firstSegment v hinc hK hcount hplans }

end

/-- The launch of a ready state answers a state of the invariant. -/
theorem Ready.launch_outcome {s : State} (h : Ready s) : ∃ t, toResult (Machine.launch s) = .next t ∧ t.Inv := by
  obtain ⟨t, ht⟩ := h.launch_ok
  exact ⟨t, (toResult_next _ _).mpr ht, h.launch ht⟩

/-! Accept. -/

theorem AcceptOutcome.inv {s : State} {i : Instr} {r : Result} (ho : AcceptOutcome s i r) (h : s.Inv)
    (hidle : s.mode = .idle) : ∃ t, r = .next t ∧ t.Inv := by
  obtain ⟨-, -, hoff, -, -⟩ := h.idle hidle
  cases ho with
  | error c hc => exact ⟨_, rfl, h.raise hidle hc⟩
  | init m hm hd => exact ⟨_, rfl, h.accepted.afterInit hidle (by omega) hd⟩
  | setSpeed sel rpm a hd => exact ⟨_, rfl, h.accepted.setDelay a hd (delay_le ..)⟩
  | readPos => exact ⟨_, rfl, h.accepted.frame⟩
  | emptyArc => exact ⟨_, rfl, h.accepted⟩
  | ownSpeed hmove hcheck =>
    obtain ⟨hy, hx⟩ := runCheck_next hcheck
    exact (h.ready.setupRun hoff hy hx).launch_outcome
  | straight hdelta hplan =>
    exact (h.ready.loadPlan hplan (fun ha => absurd (hoff.symm.trans ha) Bool.false_ne_true)).launch_outcome
  | arc hinc hK hcount hplans hfirst =>
    exact (h.ready.firstSegment _ hinc hK hcount hplans hfirst).launch_outcome

theorem exec_inv {s : State} (h : s.Inv) (hidle : s.mode = .idle) (i : Instr) : ∃ t, exec i s = .next t ∧ t.Inv :=
  (exec_outcome i s).inv h hidle

/-! Poll. -/

theorem steppedIndex_lt {c : Config} {a : Axis} (hN : 0 < stepsPerRev c a) (r : AxisRegs) :
    steppedIndex c a r < stepsPerRev c a := by
  unfold steppedIndex
  have h0 := Int.emod_nonneg ((r.stepIndex : Int) + dirSign r.dir) (b := stepsPerRev c a) (by omega)
  have hlt := Int.emod_lt_of_pos ((r.stepIndex : Int) + dirSign r.dir) (b := stepsPerRev c a) (by omega)
  omega

theorem AxisInv.stepped {c : Config} {a : Axis} {r : AxisRegs} (h : AxisInv c a r) {now : Nat}
    (hnow : now < 2 ^ c.timeBits) : AxisInv c a (steppedAxis c a now r) where
  index_lt := steppedIndex_lt (Nat.zero_lt_of_lt h.index_lt) r
  delay_range := h.delay_range
  left_delay := fun hl => h.left_delay (hl.trans (Nat.sub_le _ _))
  out_some := fun _ hv => (Option.some.inj hv).symm
  out_none := by simp [steppedAxis]
  time_lt := hnow

theorem AxisInv.polled {c : Config} {a : Axis} {r : AxisRegs} (h : AxisInv c a r) {now : Nat}
    (hnow : now < 2 ^ c.timeBits) : AxisInv c a (polledAxis c a now r) := by
  unfold polledAxis
  split
  · exact h.stepped hnow
  · exact h

@[simp] theorem polledAxis_stepDelay (c : Config) (a : Axis) (now : Nat) (r : AxisRegs) :
    (polledAxis c a now r).stepDelay = r.stepDelay := by
  unfold polledAxis
  split <;> rfl

/-- The registers of a running move after the axes' steps, before the segment's end is looked at. -/
theorem State.Inv.polled_ready {s : State} (h : s.Inv) (hrun : s.mode = .run) (t : Nat) : Ready (polled t s) where
  config := h.config
  axes := forall_axis ((h.axes .x).polled (Nat.mod_lt _ (by positivity)))
    ((h.axes .y).polled (Nat.mod_lt _ (by positivity)))
  maxSpeed := fun m hm => by
    obtain ⟨hm1, hset⟩ := h.maxSpeed m hm
    refine ⟨hm1, forall_axis ⟨(hset .x).1, ?_⟩ ⟨(hset .y).1, ?_⟩⟩
    · simpa [Machine.polled] using (hset .x).2
    · simpa [Machine.polled] using (hset .y).2
  err := (h.run hrun).2.1
  errCause := (h.run hrun).2.2
  arcOff := h.arcOff
  arcOn := fun ha =>
    have hr := h.arcOn ha
    ⟨hr.inc_pos, hr.k_pos, hr.k_le, hr.kmax_eq, hr.pending, hr.planned⟩

theorem poll_run_inv {s : State} (h : s.Inv) (hrun : s.mode = .run) {t : Nat}
    (hc : clockBroken s.clockSeen t = false) : ∃ u, poll t s = .ok u ∧ u.Inv := by
  have hready := h.polled_ready hrun t
  rw [poll_run t (h.axes .x).index_lt (h.axes .y).index_lt (h.axes .x).left_delay (h.axes .y).left_delay hrun hc]
  split
  next hmoving =>
    refine ⟨_, rfl, ?_⟩
    have hinv := hready.run hmoving
    rwa [← hrun] at hinv
  next hstill =>
    obtain ⟨u, hu⟩ := hready.complete_ok
    exact ⟨u, hu, hready.complete (by simpa using hstill) hu⟩

theorem poll_inv {s : State} (h : s.Inv) {t : Nat} (hc : clockBroken s.clockSeen t = false) :
    ∃ u, poll t s = .ok u ∧ u.Inv := by
  cases hm : s.mode with
  | idle => exact ⟨_, poll_idle hc hm, h.frame⟩
  | run => exact poll_run_inv h hm hc

/-! The step. -/

theorem react_inv {s : State} (h : s.Inv) (i : Input) (hduty : ∀ t, i = .poll t → clockBroken s.clockSeen t = false) :
    ∃ u, react i s = .ok u ∧ u.Inv := by
  cases i with
  | present c => exact ⟨_, rfl, h.frame⟩
  | withdraw => exact ⟨_, rfl, h.frame⟩
  | poll t => exact poll_inv h (hduty t rfl)
  | reset => exact ⟨_, rfl, h.resetBlock⟩

theorem environment_inv {s : State} (h : s.Inv) (hduty : clockDutyKept s) : ∃ u, environment s = .ok u ∧ u.Inv := by
  unfold environment
  split
  next => exact ⟨s, rfl, h⟩
  next i rest hin =>
    exact react_inv (s := { s with inputs := rest }) h.frame i
      (fun t hi => (clockBroken_eq_false _ _).mpr (hduty t rest (hi ▸ hin)))

/-- A step of a state of the invariant answers a state of the invariant, where a command is accepted or the environment
keeps the clock duty. -/
theorem step_inv {s : State} (h : s.Inv) (henv : fetch s ≠ none ∨ clockDutyKept s) :
    ∃ u, step s = .next u ∧ u.Inv := by
  cases hf : fetch s with
  | some i =>
    obtain ⟨hr, hm, c, hp, -⟩ := (fetch_eq_some s i).mp hf
    rw [step_accept h.config hm hr hp]
    exact exec_inv (s := consume s) h.frame hm _
  | none =>
    obtain ⟨u, hu, hinv⟩ := environment_inv h (henv.resolve_left (not_not_intro hf))
    exact ⟨u, by rw [step_environment h.config hf, hu]; rfl, hinv⟩

/-- A Poll that answers has not broken the clock duty (R140). -/
theorem poll_next_duty {t : Nat} {s u : State} (h : poll t s = .ok u) : clockBroken s.clockSeen t = false := by
  by_contra hbroken
  rw [poll_broken (by simpa using hbroken)] at h
  cases h

/-- A step that answers without accepting a command has kept the clock duty. -/
theorem step_next_duty {s u : State} (h : step s = .next u) (hf : fetch s = none) : clockDutyKept s := by
  intro t rest hin
  rw [step_environment (step_next h).1 hf, toResult_next, environment, hin] at h
  exact (clockBroken_eq_false _ _).mp (poll_next_duty (s := { s with inputs := rest }) h)

/-- Settles O57: a step that answers meets the premise of `step_inv`. -/
theorem stepKeepsTheInvariant : Obligations.StepKeepsTheInvariant := by
  intro s u h hstep
  have henv : fetch s ≠ none ∨ clockDutyKept s := or_iff_not_imp_left.mpr fun hf =>
    step_next_duty hstep (not_not.mp hf)
  obtain ⟨t, ht, hinv⟩ := step_inv h henv
  rw [hstep] at ht
  cases ht
  exact hinv

/-- Settles O31: the first half of `step_inv`. -/
theorem stepNeverSticks : Obligations.StepNeverSticks := by
  intro s h henv
  obtain ⟨u, hu, -⟩ := step_inv h henv
  exact ⟨u, hu⟩

theorem Reachable.inv {s : State} (h : Reachable s) : s.Inv := by
  induction h with
  | constructed c port inputs legal => exact (State.Inv.initial legal).frame
  | stepped s t before stepped ih => exact stepKeepsTheInvariant s t ih stepped

/-- Settles O59: the eight items are part of the invariant, which every reachable state meets. -/
theorem reachableStatesMeetR34 : Obligations.ReachableStatesMeetR34 := by
  intro s hs
  have h := hs.inv
  exact ⟨fun a => (h.axes a).index_lt, fun a => (h.axes a).delay_range,
    fun m hm => ⟨(h.maxSpeed m hm).1, ((h.maxSpeed m hm).2 .x).2, ((h.maxSpeed m hm).2 .y).2⟩, h.idle,
    fun hrun => (h.run hrun).1, fun a => (h.axes a).left_delay, fun a => (h.axes a).out_some,
    fun a => (h.axes a).out_none⟩

end Sys2Proof.Machine
end

