-- ==== Sys2Proof/Proofs/Widths.lean ====
section
/-! SUPPORT. The counts and the arc registers stay within the widths of a realisation (R25, R30, R40) under a projection
none of whose components is longer than the radius; the widths of the other registers follow from the invariant. -/

namespace Sys2Proof

/-- Every operand of a command read from the port fits it (R56). -/
theorem decodeCommand_wf (n : Nat) (c : Command) : (decodeCommand n c).wf n = true := by
  unfold decodeCommand
  split <;> simp [Instr.wf, signed_fits]

theorem operandFits_natAbs {n : Nat} {v : Int} (h : operandFits n v = true) : 2 * v.natAbs ≤ 2 ^ n := by
  obtain ⟨hlo, hhi⟩ := (operandFits_iff n v).mp h
  have hcast : ((2 ^ n : Nat) : Int) = 2 ^ n := by push_cast; rfl
  omega

end Sys2Proof

namespace Sys2Proof.Machine

/-- A magnitude of at most 2^n fits one bit more, the width of LEFT, ARC_K and ARC_KMAX (R25, R30). -/
theorem lt_countWidth {n k : Nat} (h : k ≤ 2 ^ n) : k < 2 ^ (n + 1) :=
  h.trans_lt (Nat.pow_lt_pow_right Nat.one_lt_two n.lt_succ_self)

/-- The arc registers fit the widths of an `n`-bit operand port (R30). -/
structure ArcFits (n : Nat) (arc : ArcRegs) : Prop where
  radius : operandFits n arc.radius = true
  startAngle : operandFits n arc.startAngle = true
  endAngle : operandFits n arc.endAngle = true
  inc : operandFits n arc.inc = true
  k : arc.k < 2 ^ (n + 1)
  kmax : arc.kmax < 2 ^ (n + 1)

/-- The registers whose widths the invariant does not give: the counts and the arc registers. -/
structure CountsFit (s : State) : Prop where
  left : ∀ a, (s.axis a).left < 2 ^ (s.cfg.operandBits + 1)
  arc : ArcFits s.cfg.operandBits s.arc

theorem State.FitsWidths.counts {s : State} (h : s.FitsWidths) : CountsFit s :=
  ⟨h.left, h.radius, h.startAngle, h.endAngle, h.inc, h.k, h.kmax⟩

/-- A top speed that gives an axis a delay is at most the numerator of DELAY (R27, R97). -/
theorem speed_le_of_delay {c : Config} {a : Axis} {m : Nat} (h : 1 ≤ delay c a m) : m ≤ 60000 := by
  by_contra hlt
  have hle : delayNumerator / stepsPerRev c a ≤ 60000 := Nat.div_le_self _ _
  rw [delay, Nat.div_eq_of_lt (hle.trans_lt (not_le.mp hlt))] at h
  omega

/-- Under the invariant all other registers fit (R20, R22, R23, R27). -/
theorem CountsFit.fitsWidths {s : State} (h : CountsFit s) (hinv : s.Inv) : s.FitsWidths where
  index a := (hinv.axes a).index_lt.trans_le
    ((Nat.le_pow_clog Nat.one_lt_two _).trans (Nat.pow_le_pow_right Nat.two_pos (le_max_right 1 _)))
  delay a d hd := by
    have hrange := (hinv.axes a).delay_range d hd
    omega
  time a := (hinv.axes a).time_lt
  left := h.left
  maxSpeed m hm := by
    have hle := speed_le_of_delay ((hinv.maxSpeed m hm).2 .x).1
    omega
  radius := h.arc.radius
  startAngle := h.arc.startAngle
  endAngle := h.arc.endAngle
  inc := h.arc.inc
  k := h.arc.k
  kmax := h.arc.kmax

/-! Construction and Reset. -/

theorem ArcFits.cleared (n : Nat) : ArcFits n ArcRegs.cleared := by
  constructor <;> simp [ArcRegs.cleared, operandFits]

theorem CountsFit.initial (c : Config) : CountsFit (State.initial c) :=
  ⟨forall_axis (Nat.two_pow_pos _) (Nat.two_pow_pos _), ArcFits.cleared _⟩

/-- The widths of the counts depend on the configuration, the counts and the arc registers alone. -/
theorem CountsFit.of_eq {s t : State} (h : CountsFit s) (hcfg : t.cfg = s.cfg) (harc : t.arc = s.arc)
    (hleft : ∀ a, (t.axis a).left ≤ (s.axis a).left) : CountsFit t := by
  refine ⟨fun a => ?_, ?_⟩
  · rw [hcfg]
    exact (hleft a).trans_lt (h.left a)
  · rw [hcfg, harc]
    exact h.arc

/-- Settles O56: every register is at its reset value, and the configuration has a machine. -/
theorem constructionMeetsTheInvariant : Obligations.ConstructionMeetsTheInvariant := by
  have hinit : ∀ (c : Config) (port : Option Command) (inputs : List Input), c.check = none →
      State.Inv { State.initial c with port := port, inputs := inputs } ∧
      State.FitsWidths { State.initial c with port := port, inputs := inputs } := by
    intro c port inputs legal
    have hinv : State.Inv { State.initial c with port := port, inputs := inputs } := (State.Inv.initial legal).frame
    have hcounts : CountsFit { State.initial c with port := port, inputs := inputs } :=
      (CountsFit.initial c).of_eq rfl rfl (forall_axis le_rfl le_rfl)
    exact ⟨hinv, hcounts.fitsWidths hinv⟩
  obtain ⟨hinv, hfits⟩ := hinit defaultConfig none [] (by decide)
  exact ⟨hinv, hfits, hinit⟩

/-! Deltas. -/

/-- No component of a segment's delta is longer than the port's range (R25, R108). -/
theorem segDelta_natAbs_le {c : Config} (hproj : ProjectionBounded c) {n : Nat} {r : Int}
    (hr : operandFits n r = true) (start stop inc : Int) (kmax k : Nat) :
    (segDelta c r start stop inc kmax k).1.natAbs ≤ 2 ^ n ∧ (segDelta c r start stop inc kmax k).2.natAbs ≤ 2 ^ n := by
  have hradius := operandFits_natAbs hr
  obtain ⟨hpx, hpy⟩ := hproj r (arcAngle start stop inc kmax k)
  obtain ⟨hqx, hqy⟩ := hproj r (arcAngle start stop inc kmax (k - 1))
  simp only [segDelta]
  omega

/-- No component of a straight move's delta is longer than the port's range (R25, R100, R105). -/
theorem StraightDelta.natAbs_le {c : Config} {i : Instr} {d : Delta} (h : StraightDelta c i d)
    (hproj : ProjectionBounded c) {n : Nat} (hwf : i.wf n = true) : d.1.natAbs ≤ 2 ^ n ∧ d.2.natAbs ≤ 2 ^ n := by
  cases h with
  | linearTo x1 y1 x2 y2 =>
    simp only [Instr.wf, Bool.and_eq_true] at hwf
    obtain ⟨⟨⟨hx1, hy1⟩, hx2⟩, hy2⟩ := hwf
    have hx1 := operandFits_natAbs hx1
    have hy1 := operandFits_natAbs hy1
    have hx2 := operandFits_natAbs hx2
    have hy2 := operandFits_natAbs hy2
    dsimp only
    omega
  | polarTo r theta =>
    simp only [Instr.wf, Bool.and_eq_true] at hwf
    have hradius := operandFits_natAbs hwf.1
    obtain ⟨hx, hy⟩ := hproj r theta
    omega

/-- The counts of a move at the axes' own speeds are operands or 0 (R85, R98, R99). -/
theorem OwnSpeedMove.natAbs_le {i : Instr} {ys xs pdx pdy : Int} (h : OwnSpeedMove i ys xs pdx pdy) {n : Nat}
    (hwf : i.wf n = true) : ys.natAbs ≤ 2 ^ n ∧ xs.natAbs ≤ 2 ^ n := by
  have hle : ∀ {v : Int}, operandFits n v = true → v.natAbs ≤ 2 ^ n := fun hv =>
    (Nat.le_mul_of_pos_left _ Nat.two_pos).trans (operandFits_natAbs hv)
  cases h with
  | moveX l => exact ⟨Nat.zero_le _, hle hwf⟩
  | moveY l => exact ⟨hle hwf, Nat.zero_le _⟩
  | runMove =>
    simp only [Instr.wf, Bool.and_eq_true] at hwf
    exact ⟨hle hwf.1, hle hwf.2⟩

/-- An arc has at most as many segments as angle units between its ends (R107). -/
theorem arcCount_le (s e : Int) {inc : Int} (hinc : 1 ≤ inc) : arcCount s e inc ≤ (e - s).natAbs := by
  unfold arcCount
  split
  next => exact Nat.zero_le _
  next hne =>
    obtain ⟨d, hd⟩ := Nat.exists_eq_add_of_le' (show 1 ≤ (e - s).natAbs by omega)
    obtain ⟨k, hk⟩ := Nat.exists_eq_add_of_le' (show 1 ≤ inc.toNat by omega)
    have hnumerator : (((e - s).natAbs : Int) + inc - 1).toNat = d + k + 1 := by omega
    rw [hnumerator, hk, hd]
    refine Nat.div_le_of_le_mul ?_
    nlinarith [Nat.zero_le (k * d)]

theorem arcStarted_fits {n : Nat} {r start stop inc : Int} (hwf : (Instr.circularArc r start stop inc).wf n = true)
    (hinc : 1 ≤ inc) : ArcFits n (arcStarted r start stop inc (arcCount start stop inc)) := by
  simp only [Instr.wf, Bool.and_eq_true] at hwf
  obtain ⟨⟨⟨hr, hstart⟩, hstop⟩, hincFits⟩ := hwf
  have hs := operandFits_natAbs hstart
  have he := operandFits_natAbs hstop
  have hcount := arcCount_le start stop hinc
  exact ⟨hr, hstart, hstop, hincFits, lt_countWidth Nat.one_le_two_pow, lt_countWidth (by dsimp [arcStarted]; omega)⟩

/-! Moves. -/

theorem CountsFit.setupRun {s : State} (h : CountsFit s) {ys xs : Int} (pdx pdy : Int)
    (hcounts : ys.natAbs ≤ 2 ^ s.cfg.operandBits ∧ xs.natAbs ≤ 2 ^ s.cfg.operandBits) :
    CountsFit (setupRun ys xs pdx pdy s) :=
  ⟨forall_axis (lt_countWidth hcounts.2) (lt_countWidth hcounts.1), h.arc⟩

theorem CountsFit.loadPlan {s : State} (harc : ArcFits s.cfg.operandBits s.arc) {d : Delta} (v : Speeds)
    (hd : d.1.natAbs ≤ 2 ^ s.cfg.operandBits ∧ d.2.natAbs ≤ 2 ^ s.cfg.operandBits) : CountsFit (loadPlan d v s) := by
  rw [loadPlan_eq]
  exact ⟨forall_axis (lt_countWidth hd.1) (lt_countWidth hd.2), harc⟩

theorem CountsFit.startSegment {s : State} (h : CountsFit s) (hproj : ProjectionBounded s.cfg) {j : Nat} (v : Speeds)
    (hj : j ≤ s.arc.kmax) : CountsFit (startSegment j v s) := by
  have harc : ArcFits s.cfg.operandBits (atSegment j s).arc :=
    ⟨h.arc.radius, h.arc.startAngle, h.arc.endAngle, h.arc.inc, hj.trans_lt h.arc.kmax, h.arc.kmax⟩
  have hloaded : CountsFit (Machine.loadPlan (arcDelta s j) v (atSegment j s)) :=
    CountsFit.loadPlan harc v (segDelta_natAbs_le hproj h.arc.radius ..)
  exact hloaded.of_eq rfl rfl (forall_axis le_rfl le_rfl)

theorem CountsFit.complete {s t : State} (h : CountsFit s) (hproj : ProjectionBounded s.cfg)
    (hstill : moving s = false) (hc : complete s = .ok t) : CountsFit t := by
  have happlied : CountsFit (applyPending s) := h.of_eq rfl rfl (fun a => by simp)
  rcases complete_next hstill hc with ⟨rfl, -⟩ | ⟨-, j, v, -, hj, -, -, -, rfl⟩
  · exact ⟨fun a => by simpa using h.left a, ArcFits.cleared _⟩
  · exact happlied.startSegment hproj v hj

theorem CountsFit.launch {s t : State} (h : CountsFit s) (hproj : ProjectionBounded s.cfg)
    (hl : launch s = .ok t) : CountsFit t := by
  rcases launch_next hl with ⟨-, rfl⟩ | ⟨hstill, hc⟩
  · exact h.of_eq rfl rfl (forall_axis le_rfl le_rfl)
  · exact h.complete hproj hstill hc

/-! Accept, Poll and the step. -/

theorem AcceptOutcome.countsFit {s u : State} {i : Instr} (ho : AcceptOutcome s i (.next u)) (h : CountsFit s)
    (hproj : ProjectionBounded s.cfg) (hwf : i.wf s.cfg.operandBits = true) : CountsFit u := by
  have haccepted : CountsFit (accepted s) := h.of_eq rfl rfl (fun a => by simp)
  generalize hr : Host.Outcome.next u = r at ho
  cases ho with
  | error c hc => cases hr; exact h.of_eq rfl rfl (fun a => by simp)
  | init m hm hd => cases hr; exact haccepted.of_eq rfl rfl (forall_axis le_rfl le_rfl)
  | setSpeed sel rpm a hd =>
    cases hr
    exact haccepted.of_eq (by simp) (by simp) (fun b => by rw [setDelay_axis]; split <;> rfl)
  | readPos => cases hr; exact haccepted.of_eq rfl rfl (forall_axis le_rfl le_rfl)
  | emptyArc => cases hr; exact haccepted
  | ownSpeed hmove hcheck =>
    exact (haccepted.setupRun _ _ (hmove.natAbs_le hwf)).launch hproj ((toResult_next _ _).mp hr.symm)
  | straight hdelta hplan =>
    exact (CountsFit.loadPlan haccepted.arc _ (hdelta.natAbs_le hproj hwf)).launch (by simpa using hproj)
      ((toResult_next _ _).mp hr.symm)
  | arc hinc hK hcount hplans hfirst =>
    subst hcount
    have harc := arcStarted_fits hwf hinc
    exact (CountsFit.loadPlan (s := arcAccepted _ _ _ _ _ s) harc _ (segDelta_natAbs_le hproj harc.radius ..)).launch
      (by simpa [arcAccepted] using hproj) ((toResult_next _ _).mp hr.symm)

theorem polledAxis_left_le (c : Config) (a : Axis) (now : Nat) (r : AxisRegs) :
    (polledAxis c a now r).left ≤ r.left := by
  unfold polledAxis
  split
  · exact Nat.sub_le _ _
  · exact le_rfl

theorem poll_countsFit {s u : State} {t : Nat} (hinv : s.Inv) (h : CountsFit s) (hproj : ProjectionBounded s.cfg)
    (hpoll : poll t s = .ok u) : CountsFit u := by
  have hduty := poll_next_duty hpoll
  cases hm : s.mode with
  | idle =>
    rw [poll_idle hduty hm] at hpoll
    cases hpoll
    exact h.of_eq rfl rfl (forall_axis le_rfl le_rfl)
  | run =>
    rw [poll_run t (hinv.axes .x).index_lt (hinv.axes .y).index_lt (hinv.axes .x).left_delay
      (hinv.axes .y).left_delay hm hduty] at hpoll
    have hpolled : CountsFit (polled t s) :=
      h.of_eq rfl rfl (forall_axis (polledAxis_left_le ..) (polledAxis_left_le ..))
    split at hpoll
    next => cases hpoll; exact hpolled
    next hstill => exact hpolled.complete hproj (by simpa using hstill) hpoll

theorem step_countsFit {s u : State} (hinv : s.Inv) (h : CountsFit s) (hproj : ProjectionBounded s.cfg)
    (hstep : step s = .next u) : CountsFit u := by
  have hframe : ∀ (port : Option Command) (inputs : List Input), CountsFit { s with port := port, inputs := inputs } :=
    fun _ _ => h.of_eq rfl rfl (forall_axis le_rfl le_rfl)
  obtain ⟨-, ⟨c, -, -, -, haccept⟩ | ⟨-, ⟨-, rfl⟩ | ⟨c, rest, -, rfl⟩ | ⟨rest, -, rfl⟩ | ⟨t, rest, -, hpoll⟩ |
    ⟨rest, -, rfl⟩⟩⟩ := step_next hstep
  · have ho := exec_outcome (decodeCommand s.cfg.operandBits c) (consume s)
    rw [haccept] at ho
    exact ho.countsFit (hframe none s.inputs) hproj (decodeCommand_wf _ c)
  · exact h
  · exact hframe _ _
  · exact hframe _ _
  · exact poll_countsFit (s := { s with inputs := rest }) hinv.frame (hframe s.port rest) hproj hpoll
  · exact (CountsFit.initial s.cfg).of_eq rfl rfl (forall_axis le_rfl le_rfl)

/-- Settles O58: the counts and the arc registers stay within their widths, and the invariant, which the step keeps,
bounds the other registers. -/
theorem stepKeepsTheWidths : Obligations.StepKeepsTheWidths :=
  ⟨fun _ hdefault => projectionBounded_default hdefault, fun s u hinv hfits hproj hstep =>
    (step_countsFit hinv hfits.counts hproj hstep).fitsWidths (stepKeepsTheInvariant s u hinv hstep)⟩

end Sys2Proof.Machine
end

