-- ==== Sys2Proof/Proofs/ControlRegisters.lean ====
section
/-! SUPPORT. Who writes the configuration, the report, the top speed and the result registers (R27, R32, R33, R35): a
Poll writes none of them, a command its own ones, and Reset clears all but the configuration (R134). -/

namespace Sys2Proof.Machine

/-- The registers that neither a Poll nor a move of the host on the port writes. -/
structure ControlFrame (s t : State) : Prop where
  cfg : t.cfg = s.cfg
  maxSpeed : t.maxSpeed = s.maxSpeed
  err : t.err = s.err
  errCause : t.errCause = s.errCause
  resX : t.resX = s.resX
  resY : t.resY = s.resY

theorem ControlFrame.trans {s t u : State} (h : ControlFrame s t) (g : ControlFrame t u) : ControlFrame s u :=
  ⟨g.cfg.trans h.cfg, g.maxSpeed.trans h.maxSpeed, g.err.trans h.err, g.errCause.trans h.errCause,
    g.resX.trans h.resX, g.resY.trans h.resY⟩

theorem MoveFrame.control {s t : State} (h : MoveFrame s t) : ControlFrame s t :=
  ⟨h.cfg, h.maxSpeed, h.err, h.errCause, h.resX, h.resY⟩

theorem probeAxis_control {a : Axis} {now : Nat} {s t : State} (h : probeAxis a now s = .ok t) : ControlFrame s t := by
  rcases probeAxis_next h with rfl | ⟨r, e, rfl⟩
  · exact ⟨rfl, rfl, rfl, rfl, rfl, rfl⟩
  · constructor <;> simp

theorem poll_control {t : Nat} {s u : State} (h : poll t s = .ok u) : ControlFrame s u := by
  have hseen : ControlFrame s { s with clockSeen := some t } := ⟨rfl, rfl, rfl, rfl, rfl, rfl⟩
  rcases poll_next h with ⟨-, rfl⟩ | ⟨-, hpass⟩
  · exact hseen
  · obtain ⟨sy, sx, hy, hx, hend⟩ := schedulerPass_next hpass
    have hprobed : ControlFrame s sx := (hseen.trans (probeAxis_control hy)).trans (probeAxis_control hx)
    rcases hend with rfl | hcomplete
    · exact hprobed
    · exact hprobed.trans (complete_frame hcomplete).control

/-- What a step can do to these registers: the Accept of a command, nothing, or a Reset. -/
theorem step_control {s u : State} (h : step s = .next u) :
    (∃ i, fetch s = some i ∧ exec i (consume s) = .next u) ∨
    (fetch s = none ∧ ControlFrame s u) ∨
    (fetch s = none ∧ ∃ rest, s.inputs = .reset :: rest ∧ u = resetBlock { s with inputs := rest }) := by
  obtain ⟨-, ⟨c, hm, hp, hr, haccept⟩ | ⟨hf, ⟨-, rfl⟩ | ⟨c, rest, -, rfl⟩ | ⟨rest, -, rfl⟩ | ⟨t, rest, -, hpoll⟩ |
    ⟨rest, hin, rfl⟩⟩⟩ := step_next h
  · exact .inl ⟨_, (fetch_eq_some s _).mpr ⟨hr, hm, c, hp, rfl⟩, haccept⟩
  · exact .inr (.inl ⟨hf, rfl, rfl, rfl, rfl, rfl, rfl⟩)
  · exact .inr (.inl ⟨hf, rfl, rfl, rfl, rfl, rfl, rfl⟩)
  · exact .inr (.inl ⟨hf, rfl, rfl, rfl, rfl, rfl, rfl⟩)
  · have hframe := poll_control hpoll
    exact .inr (.inl ⟨hf, hframe.cfg, hframe.maxSpeed, hframe.err, hframe.errCause, hframe.resX, hframe.resY⟩)
  · exact .inr (.inr ⟨hf, rest, hin, rfl⟩)

/-- Settles O13: an Accept leaves the configuration, as O49 says, and so do a Poll, the host and Reset. -/
theorem configurationNeverChanges : Obligations.ConfigurationNeverChanges := by
  intro s u h
  rcases step_control h with ⟨i, -, haccept⟩ | ⟨-, hframe⟩ | ⟨-, rest, -, rfl⟩
  · obtain ⟨-, -, hcfg, -⟩ := acceptWritesNoPin _ _ _ haccept
    exact hcfg
  · exact hframe.cfg
  · rfl

/-- Settles O30: the step is the Poll, which has no register of the report, no result and no top speed to write. -/
theorem pollReportsNoError : Obligations.PollReportsNoError := by
  intro s u t rest hheld hin hstep
  rw [step_poll (step_next hstep).1 hheld hin, toResult_next] at hstep
  have hframe := poll_control hstep
  exact ⟨hframe.err, hframe.errCause, hframe.resX, hframe.resY, hframe.maxSpeed⟩

/-- A command leaves the top speed, but INIT writes its operand there (R27, R97). -/
theorem exec_maxSpeed {i : Instr} {s u : State} (h : exec i s = .next u) :
    u.maxSpeed = s.maxSpeed ∨ ∃ m, i = .init m ∧ u.maxSpeed = some m.toNat := by
  rcases exec_next h with ⟨c, rfl⟩ | hframe | ⟨m, dx, dy, rfl, -, -, -, -, -, rfl⟩ | ⟨-, rfl⟩
  · exact .inl rfl
  · exact .inl hframe.maxSpeed
  · exact .inr ⟨m, rfl, rfl⟩
  · exact .inl rfl

/-- A command leaves the result registers, but READ_POS copies the position there (R33, R111). -/
theorem exec_results {i : Instr} {s u : State} (h : exec i s = .next u) :
    (u.resX = s.resX ∧ u.resY = s.resY) ∨ (i = .readPos ∧ u.resX = s.posX ∧ u.resY = s.posY) := by
  rcases exec_next h with ⟨c, rfl⟩ | hframe | ⟨m, dx, dy, rfl, -, -, -, -, -, rfl⟩ | ⟨rfl, rfl⟩
  · exact .inl ⟨rfl, rfl⟩
  · exact .inl ⟨hframe.resX, hframe.resY⟩
  · exact .inl ⟨rfl, rfl⟩
  · exact .inr ⟨rfl, rfl, rfl⟩

/-- A step leaves the top speed, or it accepts INIT or is a Reset (R27, R134). -/
theorem step_maxSpeed {s u : State} (h : step s = .next u) :
    u.maxSpeed = s.maxSpeed ∨ (∃ m, fetch s = some (.init m) ∧ u.maxSpeed = some m.toNat) ∨
      (fetch s = none ∧ u.maxSpeed = none ∧ ∃ rest, s.inputs = .reset :: rest) := by
  rcases step_control h with ⟨i, hf, haccept⟩ | ⟨-, hframe⟩ | ⟨hf, rest, hin, rfl⟩
  · rcases exec_maxSpeed haccept with hkept | ⟨m, rfl, hwritten⟩
    · exact .inl hkept
    · exact .inr (.inl ⟨m, hf, hwritten⟩)
  · exact .inl hframe.maxSpeed
  · exact .inr (.inr ⟨hf, rfl, rest, hin⟩)

/-- A step leaves the result registers, or it accepts READ_POS or is a Reset (R33, R134). -/
theorem step_results {s u : State} (h : step s = .next u) :
    (u.resX = s.resX ∧ u.resY = s.resY) ∨ (fetch s = some .readPos ∧ u.resX = s.posX ∧ u.resY = s.posY) ∨
      (fetch s = none ∧ u.resX = 0 ∧ u.resY = 0 ∧ ∃ rest, s.inputs = .reset :: rest) := by
  rcases step_control h with ⟨i, hf, haccept⟩ | ⟨-, hframe⟩ | ⟨hf, rest, hin, rfl⟩
  · rcases exec_results haccept with hkept | ⟨rfl, hwritten⟩
    · exact .inl hkept
    · exact .inr (.inl ⟨hf, hwritten⟩)
  · exact .inl ⟨hframe.resX, hframe.resY⟩
  · exact .inr (.inr ⟨hf, rfl, rfl, rest, hin⟩)

/-- Settles O51: a register that changed is in none of the cases that keep it. -/
theorem specialRegistersHaveOneWriter : Obligations.SpecialRegistersHaveOneWriter := by
  refine ⟨fun i s u h => ⟨fun hne => ?_, fun hne => ?_⟩, fun s u h => ⟨fun hne => ?_, fun hne => ?_⟩⟩
  · obtain ⟨m, hi, -⟩ := (exec_maxSpeed h).resolve_left hne
    exact ⟨m, hi⟩
  · exact ((exec_results h).resolve_left (not_and_or.mpr hne)).1
  · exact (step_maxSpeed h).resolve_left hne
  · exact (step_results h).resolve_left (not_and_or.mpr hne)

/-- Settles O53: an asserted Reset comes before an Accept, and what it leaves is the state of construction with the
model-only registers and the environment's side kept. -/
theorem resetSetsEveryRegister : Obligations.ResetSetsEveryRegister :=
  fun _ _ hlegal hin => step_reset hlegal hin

end Sys2Proof.Machine
end

