-- ==== Sys2Proof/Proofs/AxisIndependence.lean ====
section
/-! SUPPORT. What a Poll of a running move leaves on an axis is a function of that axis's registers, the configuration
and the clock value (R19, R92). -/

namespace Sys2Proof.Machine

theorem polled_axis (t : Nat) (s : State) (a : Axis) :
    (polled t s).axis a = polledAxis s.cfg a (t % 2 ^ s.cfg.timeBits) (s.axis a) := by
  cases a <;> rfl

section
variable {s u : State} {t : Nat} {rest : List Input}
variable (hinv : s.Inv) (hrun : s.mode = .run) (hin : s.inputs = .poll t :: rest) (hstep : step s = .next u)
include hinv hrun hin hstep

/-- While steps remain, the axis is left as the Poll's probe of it leaves it. -/
theorem step_polled_axis (hleft : 1 ≤ (polled t s).x.left + (polled t s).y.left) (a : Axis) :
    u.axis a = polledAxis s.cfg a (t % 2 ^ s.cfg.timeBits) (s.axis a) := by
  have hduty := step_next_duty hstep ((fetch_eq_none s).mpr (.inr (.inl hrun)))
  rw [step_polled_moving hinv hrun hin hduty hleft] at hstep
  cases hstep
  rw [← polled_axis]
  cases a <;> rfl

/-- Whether or not the segment ends, the stepper of the axis is left as the Poll's probe of it leaves it: the end of a
segment writes no index, step time or output. -/
theorem step_polled_stepper (a : Axis) :
    (u.axis a).stepIndex = (polledAxis s.cfg a (t % 2 ^ s.cfg.timeBits) (s.axis a)).stepIndex ∧
    (u.axis a).lastStepTime = (polledAxis s.cfg a (t % 2 ^ s.cfg.timeBits) (s.axis a)).lastStepTime ∧
    (u.axis a).out = (polledAxis s.cfg a (t % 2 ^ s.cfg.timeBits) (s.axis a)).out := by
  rcases Nat.eq_zero_or_pos ((polled t s).x.left + (polled t s).y.left) with hstill | hleft
  · have hduty := step_next_duty hstep ((fetch_eq_none s).mpr (.inr (.inl hrun)))
    have hcomplete : complete { polled t s with inputs := rest } = .ok u := by
      have hmoving : moving (polled t s) = false := (moving_eq_false _).mpr (by omega)
      rw [step_polled hinv hrun hin hduty, hmoving, if_neg Bool.false_ne_true, toResult_next] at hstep
      exact hstep
    have hframe := complete_frame hcomplete
    have haxis : State.axis { polled t s with inputs := rest } a = (polled t s).axis a := by cases a <;> rfl
    rw [hframe.stepIndex, hframe.lastStepTime, hframe.out, haxis, polled_axis]
    exact ⟨rfl, rfl, rfl⟩
  · rw [step_polled_axis hinv hrun hin hstep hleft]
    exact ⟨rfl, rfl, rfl⟩

end

/-- Settles O28: both states leave the same function of the same registers. -/
theorem axesAreIndependent : Obligations.AxesAreIndependent := by
  intro s s' u u' a t rest rest' hinv hinv' hrun hrun' hcfg haxis hin hin' hstep hstep'
  obtain ⟨hindex, htime, hout⟩ := step_polled_stepper hinv hrun hin hstep a
  obtain ⟨hindex', htime', hout'⟩ := step_polled_stepper hinv' hrun' hin' hstep' a
  rw [hindex, htime, hout, hindex', htime', hout', hcfg, haxis]
  refine ⟨rfl, rfl, rfl, fun hleft hleft' => ?_⟩
  rw [step_polled_axis hinv hrun hin hstep hleft, step_polled_axis hinv' hrun' hin' hstep' hleft', hcfg, haxis]

end Sys2Proof.Machine
end

