-- ==== Sys2Proof/Proofs/PackedWord.lean ====
section
/-! SUPPORT. The decoder undoes the encoder, on the port and in the packed word (R55 to R60), and reads of a command
its opcode and the operands of that opcode's row alone. -/

namespace Sys2Proof

/-- The value read differs from the pattern by a multiple of 2^n (R56). -/
theorem two_pow_dvd_signed_sub (n p : Nat) : (2 ^ n : Int) ∣ signed n p - p := by
  have hresidue : (p : Int) ≡ signed n p [ZMOD (2 ^ n : Nat)] := by
    rw [signed, BitVec.toInt_ofNat']
    exact Int.bmod_emod.symm
  exact_mod_cast hresidue.dvd

/-- The command that encodes a well-formed instruction decodes to it (R56, R58, R59). -/
theorem decodeCommand_encodeCommand {n : Nat} {i : Instr} (h : i.wf n = true) :
    decodeCommand n (encodeCommand n i) = i := by
  cases i with
  | init _ | moveX _ | moveY _ =>
    simp [decodeCommand, encodeCommand, Instr.opcode, Instr.operands, signed_operandPattern h]
  | polarTo _ _ | setSpeed _ _ | runMove _ _ =>
    simp only [Instr.wf, Bool.and_eq_true] at h
    obtain ⟨h0, h1⟩ := h
    simp [decodeCommand, encodeCommand, Instr.opcode, Instr.operands, signed_operandPattern h0,
      signed_operandPattern h1]
  | linearTo _ _ _ _ | circularArc _ _ _ _ =>
    simp only [Instr.wf, Bool.and_eq_true] at h
    obtain ⟨⟨⟨h0, h1⟩, h2⟩, h3⟩ := h
    simp [decodeCommand, encodeCommand, Instr.opcode, Instr.operands, signed_operandPattern h0,
      signed_operandPattern h1, signed_operandPattern h2, signed_operandPattern h3]
  | readPos | reserved0 | reservedA | reservedB | reservedC | reservedD | reservedE | reservedF => rfl

/-- Decoding the packed word of a command whose patterns fit is decoding the command (R55). -/
theorem decodePacked_pack {n : Nat} {c : Command} (h : c.wf n = true) :
    decodePacked n (pack n c) = .ok (decodeCommand n c) := by
  obtain ⟨hlt, -⟩ := pack_fields h
  rw [decodePacked, packedBits, if_pos hlt, unpack_pack h]

/-- The instruction decoded has the opcode of the command: the opcode alone decides the meaning (R58, R63). -/
theorem opcode_decodeCommand (n : Nat) (c : Command) : (decodeCommand n c).opcode = c.op := by
  obtain ⟨⟨⟨k, hk⟩⟩, a0, a1, a2, a3⟩ := c
  interval_cases k <;> rfl

/-- Two commands with one opcode that agree on the operands its row of R59 names decode to the same instruction: each of
the sixteen opcodes reads those patterns alone. -/
theorem decodeCommand_congr (n : Nat) {c c' : Command} (hop : c.op = c'.op)
    (h0 : c.op ∈ [0x1#4, 0x2#4, 0x3#4, 0x4#4, 0x5#4, 0x6#4, 0x8#4, 0x9#4] → c.a0 = c'.a0)
    (h1 : c.op ∈ [0x4#4, 0x5#4, 0x6#4, 0x8#4, 0x9#4] → c.a1 = c'.a1)
    (h2 : c.op ∈ [0x4#4, 0x6#4] → c.a2 = c'.a2 ∧ c.a3 = c'.a3) : decodeCommand n c = decodeCommand n c' := by
  obtain ⟨⟨⟨k, hk⟩⟩, a0, a1, a2, a3⟩ := c
  obtain ⟨op, b0, b1, b2, b3⟩ := c'
  obtain rfl := hop
  interval_cases k <;> simp_all [decodeCommand]

/-- Settles O1: encoding packs a command whose patterns fit, and decoding undoes the packing and each pattern. -/
theorem decodeEncodeRoundTrip : Obligations.DecodeEncodeRoundTrip := by
  intro n i h
  rw [encode, decodePacked_pack (encodeCommand_wf n i), decodeCommand_encodeCommand h]

/-- Settles O2: the fields of the packed word are the patterns of the command, and each is its operand's residue. -/
theorem packedWordLayout : Obligations.PackedWordLayout := by
  intro n i
  obtain ⟨hlt, hop, h0, h1, h2, h3⟩ := pack_fields (encodeCommand_wf n i)
  unfold encode
  refine ⟨hlt, hop, ?_, ?_, ?_, ?_⟩
  · rw [h0]; exact operandPattern_eq n _
  · rw [h1]; exact operandPattern_eq n _
  · rw [h2]; exact operandPattern_eq n _
  · rw [h3]; exact operandPattern_eq n _

/-- Settles O3: each word is evaluated. -/
theorem specWordsDecode : Obligations.SpecWordsDecode := by
  unfold Obligations.SpecWordsDecode
  decide

/-- Settles O4: the value read fits the port and has the pattern's residue. -/
theorem operandsReadSigned : Obligations.OperandsReadSigned := by
  intro n p
  obtain ⟨hlo, hhi⟩ := (operandFits_iff n _).mp (signed_fits n p)
  exact ⟨hlo, hhi, two_pow_dvd_signed_sub n p⟩

end Sys2Proof
end

