-- ==== Sys2Proof/Proofs/Handshake.lean ====
section
/-! SUPPORT. The Accept handshake (R54): when a step accepts, which command it performs, and what a Reset that comes
first leaves of the port (R60, R61, R134). -/

namespace Sys2Proof.Machine

theorem cmdReady_iff (s : State) : cmdReady s = true ↔ s.mode = .idle := by
  cases h : s.mode <;> simp [cmdReady, busy, h]

theorem busy_iff (s : State) : busy s = true ↔ s.mode = .run := by simp [busy]

theorem isReserved_iff_opcode (i : Instr) :
    isReserved i = true ↔ i.opcode ∈ [0x0#4, 0xA#4, 0xB#4, 0xC#4, 0xD#4, 0xE#4, 0xF#4] := by
  cases i <;> simp [isReserved, Instr.opcode]

/-- The Accept of a reserved instruction raises its error and nothing else (R61). -/
theorem exec_reserved {i : Instr} (h : isReserved i = true) (s : State) :
    exec i s = .next (raise .reservedOpcode s) := by
  cases i with
  | reserved0 | reservedA | reservedB | reservedC | reservedD | reservedE | reservedF => rfl
  | _ => cases h

/-- The host's presenting of a command is a step of its own where no Accept happens (R38). -/
theorem step_present {s : State} {c : Command} {rest : List Input} (hc : s.cfg.check = none) (hf : fetch s = none)
    (hi : s.inputs = .present c :: rest) : step s = .next { s with port := some c, inputs := rest } := by
  rw [step_environment hc hf]
  simp [environment, hi, react, toResult]

/-- An Accept leaves no trace of the command but what it decodes to (R54, R60). -/
theorem step_port_congr {s : State} (hm : s.mode = .idle) (hr : resetAsserted s = false) {c c' : Command}
    (hdecode : decodeCommand s.cfg.operandBits c = decodeCommand s.cfg.operandBits c') :
    step { s with port := some c } = step { s with port := some c' } := by
  cases hc : s.cfg.check with
  | some e => rw [step_refused (s := { s with port := some c }) hc, step_refused (s := { s with port := some c' }) hc]
  | none =>
    rw [step_accept (s := { s with port := some c }) hc hm hr rfl,
      step_accept (s := { s with port := some c' }) hc hm hr rfl, hdecode]
    rfl

/-- A Reset does the same whatever stands on the port, and leaves it there (R134). -/
theorem step_reset_port {s u : State} (hr : resetAsserted s = true) {p : Option Command}
    (h : step { s with port := p } = .next u) (p' : Option Command) :
    step { s with port := p' } = .next { u with port := p' } := by
  obtain ⟨rest, hin⟩ := (resetAsserted_iff s).mp hr
  obtain ⟨hc, -⟩ := step_next h
  rw [step_reset (s := { s with port := p }) hc hin] at h
  cases h
  exact step_reset (s := { s with port := p' }) hc hin

/-- Settles O5: both commands decode to the same instruction, and a Reset does not read the port. -/
theorem ignoredOperandsHaveNoEffect : Obligations.IgnoredOperandsHaveNoEffect := by
  intro s c c' hm hop h0 h1 h2
  exact ⟨fun hr => step_port_congr hm hr (decodeCommand_congr _ hop h0 h1 h2),
    fun hr _ hu => step_reset_port hr hu (some c')⟩

/-- Settles O8: the step is the Accept, and a well-formed instruction is what its command decodes to. -/
theorem stepRunsDecodedCommand : Obligations.StepRunsDecodedCommand := by
  intro s hc hm hr
  refine ⟨fun c hp => step_accept hc hm hr hp, fun i hwf hp => ?_⟩
  rw [step_accept hc hm hr hp, decodeCommand_encodeCommand hwf]
  rfl

/-- Settles O9: fetch answers exactly in the states of the handshake. -/
theorem acceptNeedsValidAndReady : Obligations.AcceptNeedsValidAndReady := by
  intro s
  refine ⟨?_, cmdReady_iff s, busy_iff s⟩
  rw [Option.isSome_iff_ne_none, ne_eq, fetch_eq_none, cmdReady_iff, ← resetAsserted_iff, cmdValid]
  cases s.mode <;> cases s.port <;> simp

/-- Settles O10: the free port makes the first step the host's, the command on it makes the second its Accept. -/
theorem presentedCommandAcceptedOnce : Obligations.PresentedCommandAcceptedOnce := by
  intro s c rest hc hm hp hi
  refine ⟨step_present hc ((fetch_eq_none s).mpr (.inr (.inr hp))) hi, fun hrest => ?_⟩
  have hr : resetAsserted { s with port := some c, inputs := rest } = false := by
    rw [← Bool.not_eq_true, resetAsserted_iff]
    exact fun ⟨later, h⟩ => hrest later h
  have hfreed : consume { s with port := some c, inputs := rest } = { s with inputs := rest } := by
    rw [consume, ← hp]
  rw [step_accept (s := { s with port := some c, inputs := rest }) hc hm hr rfl, hfreed]

/-- Settles O46: the reserved instructions are those of the seven opcodes, and each raises RESERVED_OPCODE. -/
theorem reservedOpcodesAreIllegal : Obligations.ReservedOpcodesAreIllegal := by
  refine ⟨fun i s h => exec_reserved h s, fun n c => ?_⟩
  rw [isReserved_iff_opcode, opcode_decodeCommand]

end Sys2Proof.Machine
end

