-- ==== Sys2Proof/Proofs/AssembledLines.lean ====
section
/-! SUPPORT. What a line of the assembler makes of its mnemonic and operands (R59, R65 to R67), from the operand
readers' own lemmas. -/

namespace Sys2Proof.Machine

/-- Every mnemonic is spelled by one word, and no word spells two (R65). -/
theorem readMnemonic_iff (m : Mnemonic) (word : List Char) : readMnemonic word = some m ↔ word = m.spelling := by
  constructor
  · intro h
    rw [readMnemonic] at h
    have hspells := List.find?_some h
    exact (beq_iff_eq.mp hspells).symm
  · rintro rfl
    cases m <;> decide

theorem operandFits_zero (n : Nat) : operandFits n 0 = true := by
  rw [operandFits_iff]
  have hpos : (0 : Int) < 2 ^ n := by positivity
  omega

theorem AxisText.fits {n : Nat} {p : List Char} {v : Int} (h : AxisText n p v) : operandFits n v = true := by
  rcases h with ⟨-, rfl⟩ | ⟨-, rfl, hfits⟩ | ⟨-, hfits⟩
  · exact operandFits_zero n
  · exact hfits
  · exact hfits

/-- What a mnemonic makes of its operand texts is what R59 and R67 give, and it makes nothing else. -/
theorem assembleAs_ok (n : Nat) (m : Mnemonic) (ops : List (List Char)) (i : Instr) :
    assembleAs n m ops = .ok i ↔ Assembles n m ops i := by
  constructor
  · intro h
    cases m with
    | init | moveX | moveY | runX | runY =>
      obtain ⟨p, v, rfl, hp, rfl⟩ := (asm1_ok n _ ops i).mp h
      constructor
      exact hp
    | polarTo | runMove | linearBy =>
      obtain ⟨p, q, v, w, rfl, hp, hq, rfl⟩ := (asm2_ok n _ _ (readOperand_ok n) _ ops i).mp h
      constructor
      · exact hp
      · exact hq
    | setSpeed =>
      obtain ⟨p, q, v, w, rfl, hp, hq, rfl⟩ := (asm2_ok n _ _ (readAxis_ok n) _ ops i).mp h
      exact .setSpeed p q v w hp hq
    | linearTo | circularArc =>
      obtain ⟨p, q, r, t, a, b, c, d, rfl, hp, hq, hr, ht, rfl⟩ := (asm4_ok n _ ops i).mp h
      constructor
      · exact hp
      · exact hq
      · exact hr
      · exact ht
    | readPos =>
      obtain ⟨rfl, rfl⟩ := (asm0_ok _ ops i).mp h
      exact .readPos
  · intro h
    cases h with
    | init p v hp | moveX p v hp | moveY p v hp | runX p v hp | runY p v hp =>
      exact (asm1_ok n _ _ _).mpr ⟨p, v, rfl, hp, rfl⟩
    | polarTo p q v w hp hq | runMove p q v w hp hq | linearBy p q v w hp hq =>
      exact (asm2_ok n _ _ (readOperand_ok n) _ _ _).mpr ⟨p, q, v, w, rfl, hp, hq, rfl⟩
    | setSpeed p q v w hp hq => exact (asm2_ok n _ _ (readAxis_ok n) _ _ _).mpr ⟨p, q, v, w, rfl, hp, hq, rfl⟩
    | linearTo p q r t a b c d hp hq hr ht | circularArc p q r t a b c d hp hq hr ht =>
      exact (asm4_ok n _ _ _).mpr ⟨p, q, r, t, a, b, c, d, rfl, hp, hq, hr, ht, rfl⟩
    | readPos => exact (asm0_ok _ _ _).mpr ⟨rfl, rfl⟩

/-- An assembled instruction is well formed: every operand read is in range, and so is the 0 of a pseudo-command. -/
theorem Assembles.wf {n : Nat} {m : Mnemonic} {ops : List (List Char)} {i : Instr} (h : Assembles n m ops i) :
    i.wf n = true := by
  cases h with
  | init _ _ hp | moveX _ _ hp | moveY _ _ hp => exact hp.2
  | polarTo _ _ _ _ hp hq | runMove _ _ _ _ hp hq => simp [Instr.wf, hp.2, hq.2]
  | setSpeed _ _ _ _ hp hq => simp [Instr.wf, hp.fits, hq.2]
  | linearTo _ _ _ _ _ _ _ _ hp hq hr ht | circularArc _ _ _ _ _ _ _ _ hp hq hr ht =>
    simp [Instr.wf, hp.2, hq.2, hr.2, ht.2]
  | readPos => rfl
  | runX _ _ hp | runY _ _ hp => simp [Instr.wf, operandFits_zero, hp.2]
  | linearBy _ _ _ _ hp hq => simp [Instr.wf, operandFits_zero, hp.2, hq.2]

theorem OperandText.fits_of_readInt {n : Nat} {p : List Char} {v w : Int} (h : OperandText n p w)
    (hv : readInt p = some v) : operandFits n v = true := by
  obtain ⟨hw, hfits⟩ := h
  rw [hv, Option.some.injEq] at hw
  rwa [hw]

/-- `X` and `Y` are no literals, so an axis select that is one is a raw integer in range. -/
theorem AxisText.fits_of_readInt {n : Nat} {p : List Char} {v w : Int} (h : AxisText n p w)
    (hv : readInt p = some v) : operandFits n v = true := by
  rcases h with ⟨rfl, -⟩ | ⟨rfl, -⟩ | h
  · cases hv
  · cases hv
  · exact h.fits_of_readInt hv

/-- Every operand text that is a literal is one in range (R56, R66). -/
theorem Assembles.operand_fits {n : Nat} {m : Mnemonic} {ops : List (List Char)} {i : Instr}
    (h : Assembles n m ops i) {p : List Char} (hp : p ∈ ops) {v : Int} (hv : readInt p = some v) :
    operandFits n v = true := by
  cases h with
  | init _ _ h0 | moveX _ _ h0 | moveY _ _ h0 | runX _ _ h0 | runY _ _ h0 =>
    obtain rfl := List.mem_singleton.mp hp
    exact h0.fits_of_readInt hv
  | polarTo _ _ _ _ h0 h1 | runMove _ _ _ _ h0 h1 | linearBy _ _ _ _ h0 h1 | setSpeed _ _ _ _ h0 h1 =>
    simp only [List.mem_cons, List.not_mem_nil, or_false] at hp
    rcases hp with rfl | rfl
    · exact h0.fits_of_readInt hv
    · exact h1.fits_of_readInt hv
  | linearTo _ _ _ _ _ _ _ _ h0 h1 h2 h3 | circularArc _ _ _ _ _ _ _ _ h0 h1 h2 h3 =>
    simp only [List.mem_cons, List.not_mem_nil, or_false] at hp
    rcases hp with rfl | rfl | rfl | rfl
    · exact h0.fits_of_readInt hv
    · exact h1.fits_of_readInt hv
    · exact h2.fits_of_readInt hv
    · exact h3.fits_of_readInt hv
  | readPos => cases hp

/-- A line whose word spells a mnemonic becomes the command of the instruction made, or is rejected with its error. -/
theorem assembleLine_mnemonic {line : List Char} {m : Mnemonic} (hm : readMnemonic (lineWord line) = some m) (n : Nat) :
    assembleLine n line =
      (assembleAs n m (lineOperands line)).map fun i => [.present (encodeCommand n i)] := by
  have hne : (lineText line).isEmpty = false := by
    by_contra hempty
    rw [Bool.not_eq_false, List.isEmpty_iff] at hempty
    have hword := (readMnemonic_iff m _).mp hm
    rw [lineWord, hempty] at hword
    cases m <;> cases hword
  simp only [assembleLine, hne, assembleCommand, hm, Option.map_some]
  cases assembleAs n m (lineOperands line) <;> rfl

/-- No directive presents a command (R68). -/
theorem runDirective_ne_present (d : Directive) (ops : List (List Char)) (c : Command) :
    runDirective d ops ≠ .ok [.present c] := by
  unfold runDirective
  split
  · simp
  · simp
  · split <;> simp
  · split <;> simp
  · simp
  · simp

/-- A line that presents a command has a word that spells a mnemonic. -/
theorem readMnemonic_of_present {n : Nat} {line : List Char} {c : Command}
    (h : assembleLine n line = .ok [.present c]) : ∃ m, readMnemonic (lineWord line) = some m := by
  rw [← Option.isSome_iff_exists]
  by_contra hnone
  rw [Option.not_isSome_iff_eq_none] at hnone
  simp only [assembleLine, assembleCommand, hnone, Option.map_none] at h
  split_ifs at h
  · cases h
  · split at h
    · exact runDirective_ne_present _ _ _ h
    · cases h

/-- Settles O6: the digit 0 is an operand of every width, and the reader of one pseudo-command's operand is that of the
other command's. -/
theorem pseudoCommandsExpand : Obligations.PseudoCommandsExpand := by
  intro n p q
  have hzero : readOperand n ['0'] = .ok 0 := (readOperand_ok n _ _).mpr ⟨rfl, operandFits_zero n⟩
  refine ⟨?_, ?_, ?_⟩
  · cases hp : readOperand n p <;> simp [assembleAs, asm1, asm2, hzero, hp, Except.map]
  · cases hp : readOperand n p <;> simp [assembleAs, asm1, asm2, hzero, hp, Except.map]
  · cases hp : readOperand n p <;> cases hq : readOperand n q <;> simp [assembleAs, asm2, asm4, hzero, hp, hq]

/-- Settles O7: the parts are the lemmas on the line, the mnemonic and the operands; what is made is well formed, so its
command decodes to it. -/
theorem assembledLinesDecode : Obligations.AssembledLinesDecode := by
  refine ⟨fun n line c h => ?_, fun n line m hm => ⟨fun i hi => ?_, fun e he => ?_⟩, assembleAs_ok, readMnemonic_iff,
    fun n m ops p v hp hv hfits => ?_⟩
  · obtain ⟨m, hm⟩ := readMnemonic_of_present h
    rw [assembleLine_mnemonic hm] at h
    cases hi : assembleAs n m (lineOperands line) with
    | error e => rw [hi] at h; cases h
    | ok i =>
      rw [hi] at h
      cases h
      have hwf := ((assembleAs_ok n m _ i).mp hi).wf
      exact ⟨m, i, hm, hi, hwf, rfl, decodeCommand_encodeCommand hwf⟩
  · rw [assembleLine_mnemonic hm, hi]; rfl
  · rw [assembleLine_mnemonic hm, he]; rfl
  · cases hi : assembleAs n m ops with
    | error e => exact ⟨e, rfl⟩
    | ok i =>
      exact absurd (((assembleAs_ok n m ops i).mp hi).operand_fits hp hv) (Bool.eq_false_iff.mp hfits)

end Sys2Proof.Machine
end

