-- ==== Sys2Proof/Proofs/Commutation.lean ====
section
/-! SUPPORT. The phases an axis's advances go through where 4 divides its step count, and the rows they emit (R71, R72,
R79, R80, R84); the default tables (R69, R74). -/

namespace Sys2Proof.Machine

/-! The phase after a step. -/

/-- The phase one step on in a direction, where 4 divides the step count (R84). -/
def nextPhase : Dir → Nat → Nat
  | .fwd, p => (p + 1) % 4
  | .rev, p => (p + 3) % 4

/-- Where 4 divides the step count the wrap of the index is a wrap of the phase too (R84). -/
theorem phase_nextIndex (d : Dir) {i n : Nat} (h : i < n) (h4 : n % 4 = 0) :
    phase (nextIndex d i n) = nextPhase d (phase i) := by
  cases d with
  | fwd => simp only [nextIndex, incWrap, nextPhase, phase]; split <;> omega
  | rev => simp only [nextIndex, decWrap, nextPhase, phase]; split <;> omega

/-! Advances from a phase. -/

/-- The axis's index is in range (R20) and has the phase `p`. -/
structure InPhase (c : Config) (a : Axis) (p : Nat) (r : AxisRegs) : Prop where
  index_lt : r.stepIndex < stepsPerRev c a
  phase_eq : phase r.stepIndex = p

section
variable {c : Config} {a : Axis} {p : Nat} {r : AxisRegs} (h : InPhase c a p r) (h4 : stepsPerRev c a % 4 = 0)
include h h4

theorem InPhase.advance (now : Nat) : InPhase c a (nextPhase r.dir p) (advance c a now r) where
  index_lt := (nextIndex_eq c a r h.index_lt).trans_lt (steppedIndex_lt (Nat.zero_lt_of_lt h.index_lt) r)
  phase_eq := (phase_nextIndex r.dir h.index_lt h4).trans (by rw [h.phase_eq])

/-- An advance emits the row of the next phase (R79, R80). -/
theorem InPhase.advance_out (now : Nat) :
    (Machine.advance c a now r).out = some (romRead c (winding c a) (nextPhase r.dir p)) := by
  rw [← (h.advance h4 now).phase_eq]
  rfl

end

/-- The rows of the four phases that follow `p` in a direction, of the table the axis's winding selects (R71, R73). -/
def nextRows (c : Config) (a : Axis) (d : Dir) (p : Nat) : List (Option PinWord) :=
  let p1 := nextPhase d p
  let p2 := nextPhase d p1
  let p3 := nextPhase d p2
  let p4 := nextPhase d p3
  [p1, p2, p3, p4].map fun q => some (romRead c (winding c a) q)

theorem InPhase.four_advances_out {c : Config} {a : Axis} {p : Nat} {r : AxisRegs} (h : InPhase c a p r)
    (h4 : stepsPerRev c a % 4 = 0) (t1 t2 t3 t4 : Nat) :
    let r1 := Machine.advance c a t1 r
    let r2 := Machine.advance c a t2 r1
    let r3 := Machine.advance c a t3 r2
    let r4 := Machine.advance c a t4 r3
    [r1.out, r2.out, r3.out, r4.out] = nextRows c a r.dir p := by
  intro r1 r2 r3 r4
  have h1 := h.advance h4 t1
  have h2 := h1.advance h4 t2
  have h3 := h2.advance h4 t3
  rw [h.advance_out h4 t1, h1.advance_out h4 t2, h2.advance_out h4 t3, h3.advance_out h4 t4]
  rfl

/-! The table of a winding. -/

theorem winding_of_width_two {c : Config} {a : Axis} (h : windingWidth c a = 2) : winding c a = .twoWire := by
  simp [winding, h]

theorem winding_of_width_four {c : Config} {a : Axis} (h : windingWidth c a = 4) : winding c a = .fourWire := by
  simp [winding, h]

/-- Settles O19: the four advances emit the rows of the four phases after phase 0, whatever the winding and the
direction; each case reads them in its table. -/
theorem fullCycleEmitsTheTable : Obligations.FullCycleEmitsTheTable := by
  intro c a r t1 t2 t3 t4 hlt h4 hphase r1 r2 r3 r4
  have hrows : [r1.out, r2.out, r3.out, r4.out] = nextRows c a r.dir 0 :=
    InPhase.four_advances_out ⟨hlt, hphase⟩ h4 t1 t2 t3 t4
  refine ⟨fun hd hw => ?_, fun hd hw => ?_, fun hd hw => ?_, fun hd hw => ?_⟩
  · rw [hrows, hd, nextRows, winding_of_width_two hw]; rfl
  · rw [hrows, hd, nextRows, winding_of_width_four hw]; rfl
  · rw [hrows, hd, nextRows, winding_of_width_two hw]; rfl
  · rw [hrows, hd, nextRows, winding_of_width_four hw]; rfl

/-- Settles O20: the words are read off the tables, and the four pairs of adjacent rows are compared bit by bit. -/
theorem defaultTableAndItsAdjacentRows : Obligations.DefaultTableAndItsAdjacentRows := by
  exact ⟨rfl, rfl, by decide⟩

end Sys2Proof.Machine
end

