-- ==== Sys2Proof/Proofs/PollOfAnAxis.lean ====
section
/-! SUPPORT. What a step leaves of the stepper of an axis: a Poll of a running move steps each due axis once (R78, R80,
R83, R89), and no step but that and Reset writes an output (R96, R134). -/

namespace Sys2Proof.Machine

/-- After its probe an axis drives the word of its new index where it was due, and the word it drove elsewhere (R80,
R83). -/
theorem polledAxis_out (c : Config) (a : Axis) (now : Nat) (r : AxisRegs) :
    (polledAxis c a now r).out = if due c now r then some (steppedWord c a r) else r.out := by
  unfold polledAxis
  split <;> rfl

section
variable {s u : State} {t : Nat} {rest : List Input}
variable (hinv : s.Inv) (hrun : s.mode = .run) (hin : s.inputs = .poll t :: rest) (hstep : step s = .next u)
include hinv hrun hin hstep

/-- Whether or not the segment ends, a Poll of a running move leaves the frame of a move as the probes left it. -/
theorem step_polled_frame : MoveFrame { polled t s with inputs := rest } u := by
  have hduty := step_next_duty hstep ((fetch_eq_none s).mpr (.inr (.inl hrun)))
  rw [step_polled hinv hrun hin hduty, toResult_next] at hstep
  split at hstep
  next => cases hstep; exact .refl _
  next => exact complete_frame hstep

end

/-- Settles O24: the invariant gives the next state; the end of a segment writes neither the trace nor the stepper of an
axis. -/
theorem pollStepsTheDueAxes : Obligations.PollStepsTheDueAxes := by
  intro s t rest hinv hrun hin hduty
  obtain ⟨u, hstep⟩ := stepNeverSticks s hinv (.inr hduty)
  refine ⟨u, hstep, (step_polled_frame hinv hrun hin hstep).trace, fun a => ?_⟩
  rw [polled_axis]
  exact step_polled_stepper hinv hrun hin hstep a

/-- A step that is a Poll leaves an output, or the move runs, the axis is due and the word of its new phase is driven
(R79, R80, R90, R96). -/
theorem step_poll_out {s u : State} {t : Nat} {rest : List Input} (hinv : s.Inv) (hin : s.inputs = .poll t :: rest)
    (hstep : step s = .next u) (hpoll : poll t { s with inputs := rest } = .ok u) (a : Axis) :
    (u.axis a).out = (s.axis a).out ∨
      (s.mode = .run ∧ due s.cfg (t % 2 ^ s.cfg.timeBits) (s.axis a) = true ∧
        (u.axis a).out = some (steppedWord s.cfg a (s.axis a))) := by
  rcases poll_next hpoll with ⟨-, rfl⟩ | ⟨hrun, -⟩
  · exact .inl (by cases a <;> rfl)
  · obtain ⟨-, -, hout⟩ := step_polled_stepper hinv hrun hin hstep a
    rw [polledAxis_out] at hout
    split at hout
    next hdue => exact .inr ⟨hrun, hdue, hout⟩
    next => exact .inl hout

/-- A step leaves an output, or it is a Reset, or a Poll of a running move at which the axis is due (R96, R134). -/
theorem step_out {s u : State} (hinv : s.Inv) (hstep : step s = .next u) (a : Axis) :
    (u.axis a).out = (s.axis a).out ∨
    (fetch s = none ∧ (u.axis a).out = none ∧ ∃ rest, s.inputs = .reset :: rest) ∨
    ∃ t rest, s.inputs = .poll t :: rest ∧ s.mode = .run ∧ due s.cfg (t % 2 ^ s.cfg.timeBits) (s.axis a) = true ∧
      (u.axis a).out = some (steppedWord s.cfg a (s.axis a)) := by
  obtain ⟨-, ⟨c, -, -, -, haccept⟩ | ⟨hf, ⟨-, rfl⟩ | ⟨c, rest, -, rfl⟩ | ⟨rest, -, rfl⟩ | ⟨t, rest, hin, hpoll⟩ |
    ⟨rest, hin, rfl⟩⟩⟩ := step_next hstep
  · obtain ⟨-, -, -, -, -, hstepper⟩ := acceptWritesNoPin _ _ _ haccept
    obtain ⟨-, -, hout⟩ := hstepper a
    exact .inl (by rw [hout, consume_axis])
  · exact .inl rfl
  · exact .inl (by cases a <;> rfl)
  · exact .inl (by cases a <;> rfl)
  · exact (step_poll_out hinv hin hstep hpoll a).imp_right fun h => .inr ⟨t, rest, hin, h⟩
  · exact .inr (.inl ⟨hf, by cases a <;> rfl, rest, hin⟩)

/-- Settles O29: an output that changed is not in the case that keeps it. -/
theorem onlyItsAdvanceWritesAnOutput : Obligations.OnlyItsAdvanceWritesAnOutput :=
  fun _ _ a hinv hstep hne => (step_out hinv hstep a).resolve_left hne

end Sys2Proof.Machine
end

