-- ==== Sys2Proof/Proofs/SpeedSetter.lean ====
section
/-! SUPPORT. The delay of a speed (R77), the answers of the speed check (R76) and of SET_SPEED (R75). -/

namespace Sys2Proof.Machine

/-- Settles O14: as one quotient by the product, DELAY is 0 exactly below the divisor, and falls as that grows. -/
theorem delayFunction : Obligations.DelayFunction := by
  intro c a rpm hN hrpm
  refine ⟨rfl, delay_eq c a rpm, delay_le c a rpm, ?_, fun _ hle => delay_antitone c a hrpm hle⟩
  have hpos : stepsPerRev c a * rpm ≠ 0 := (Nat.mul_pos hN hrpm).ne'
  rw [delay_eq, Nat.div_eq_zero_iff]
  exact or_iff_right hpos

/-! The speed check. -/

theorem speedCheck_of_nonpos {rpm : Int} (h : rpm ≤ 0) (c : Config) (a : Axis) :
    speedCheck c a rpm = .error .rpmNonpositive := if_pos h

theorem speedCheck_of_delay_eq_zero {c : Config} {a : Axis} {rpm : Int} (h : 0 < rpm)
    (hd : delay c a rpm.toNat = 0) : speedCheck c a rpm = .error .delayZero := by
  rw [speedCheck, if_neg h.not_ge, if_pos hd]

theorem speedCheck_of_delay_ne_zero {c : Config} {a : Axis} {rpm : Int} (h : 0 < rpm)
    (hd : delay c a rpm.toNat ≠ 0) : speedCheck c a rpm = .ok (delay c a rpm.toNat) := by
  rw [speedCheck, if_neg h.not_ge, if_neg hd]

/-! SET_SPEED. -/

/-- A select other than 0 and 1 selects no axis (R62). -/
theorem axisSelect_eq_none {sel : Int} (hx : sel ≠ 0) (hy : sel ≠ 1) : axisSelect sel = none := by
  rw [axisSelect, if_neg hx, if_neg hy]

/-- 0 selects X and 1 selects Y (R62). -/
theorem axisSelect_number (a : Axis) : axisSelect (if a = .x then 0 else 1) = some a := by
  cases a <;> rfl

theorem exec_setSpeed (sel rpm : Int) (s : State) :
    exec (.setSpeed sel rpm) s = command (setSpeedChecks s sel rpm) (fun v t => .ok (setDelay v.1 v.2 t)) s := rfl

theorem exec_setSpeed_badAxis {sel : Int} (hsel : axisSelect sel = none) (rpm : Int) (s : State) :
    exec (.setSpeed sel rpm) s = .next (raise .badAxis s) := by
  rw [exec_setSpeed]
  exact command_error (by simp only [setSpeedChecks, hsel]) _ s

theorem exec_setSpeed_error {s : State} {sel rpm : Int} {a : Axis} {cause : Cause} (hsel : axisSelect sel = some a)
    (hspeed : speedCheck s.cfg a rpm = .error cause) : exec (.setSpeed sel rpm) s = .next (raise cause s) := by
  rw [exec_setSpeed]
  exact command_error (by simp only [setSpeedChecks, hsel, hspeed]) _ s

theorem exec_setSpeed_ok {s : State} {sel rpm : Int} {a : Axis} {d : Nat} (hsel : axisSelect sel = some a)
    (hspeed : speedCheck s.cfg a rpm = .ok d) : exec (.setSpeed sel rpm) s = .next (setDelay a d (accepted s)) := by
  rw [exec_setSpeed]
  exact command_ok (v := (a, d)) (by simp only [setSpeedChecks, hsel, hspeed]) _ s

/-- The speed write of an accepted command changes the axis's delay and the report, and nothing else (R75, R125). -/
theorem setDelay_accepted (a : Axis) (d : Nat) (s : State) :
    setDelay a d (accepted s) = { s.setAxis a { s.axis a with stepDelay := some d } with err := 0, errCause := 0 } := by
  cases a <;> rfl

theorem decodeCommand_setSpeed {c : Command} (h : c.op = 0x8) (n : Nat) :
    decodeCommand n c = .setSpeed (signed n c.a0) (signed n c.a1) := by
  simp [decodeCommand, h]

/-- Settles O15: the select is checked first, then the speed, and each answer of the two checks is one clause. -/
theorem setSpeedRule : Obligations.SetSpeedRule := by
  refine ⟨fun n c hop => decodeCommand_setSpeed hop n, fun s sel rpm => ⟨fun hx hy => ?_, ?_⟩⟩
  · exact exec_setSpeed_badAxis (axisSelect_eq_none hx hy) rpm s
  · rintro a rfl
    refine ⟨fun hrpm => ?_, fun hrpm hzero => ?_, fun hrpm hne => ?_⟩
    · exact exec_setSpeed_error (axisSelect_number a) (speedCheck_of_nonpos hrpm s.cfg a)
    · exact exec_setSpeed_error (axisSelect_number a) (speedCheck_of_delay_eq_zero hrpm hzero)
    · rw [exec_setSpeed_ok (axisSelect_number a) (speedCheck_of_delay_ne_zero hrpm hne), setDelay_accepted]
      rfl

end Sys2Proof.Machine
end

