-- ==== Sys2Proof/Proofs/IndexAndGate.lean ====
section
/-! SUPPORT. The index updates (R81, R82), the phases they lead to (R79, R84), and the time the gate measures (R78,
R145). -/

namespace Sys2Proof.Machine

/-! The index updates, at the wrap and away from it. -/

theorem incWrap_last {n : Nat} (hn : 0 < n) : incWrap (n - 1) n = 0 := if_pos (Nat.sub_add_cancel hn)

theorem incWrap_of_lt {i n : Nat} (h : i + 1 < n) : incWrap i n = i + 1 := if_neg h.ne

theorem decWrap_zero (n : Nat) : decWrap 0 n = n - 1 := rfl

theorem decWrap_of_pos {i : Nat} (h : 1 ≤ i) (n : Nat) : decWrap i n = i - 1 := if_neg (by omega)

theorem incWrap_eq_mod {i n : Nat} (h : i < n) : incWrap i n = (i + 1) % n := by
  rcases (Nat.succ_le_of_lt h).eq_or_lt with rfl | hlt
  · rw [Nat.mod_self]
    exact incWrap_last i.succ_pos
  · rw [incWrap_of_lt hlt, Nat.mod_eq_of_lt hlt]

theorem decWrap_eq_mod {i n : Nat} (h : i < n) : decWrap i n = (i + (n - 1)) % n := by
  rcases i.eq_zero_or_pos with rfl | hpos
  · rw [decWrap_zero, Nat.zero_add, Nat.mod_eq_of_lt (Nat.sub_one_lt h.ne')]
  · have hsum : i + (n - 1) = i - 1 + n := by omega
    rw [decWrap_of_pos hpos, hsum, Nat.add_mod_right, Nat.mod_eq_of_lt (by omega)]

/-- Settles O17: a remainder modulo N lies below N. -/
theorem indexUpdateWraps : Obligations.IndexUpdateWraps := by
  intro i n h
  have hpos : 0 < n := Nat.zero_lt_of_lt h
  rw [incWrap_eq_mod h, decWrap_eq_mod h]
  exact ⟨rfl, rfl, Nat.mod_lt _ hpos, Nat.mod_lt _ hpos⟩

/-- Settles O18: where 4 divides N the wrap is one of the phase too; any other update is the wrap or a step by one. -/
theorem phaseMachine : Obligations.PhaseMachine := by
  intro i n h
  refine ⟨fun h4 => ⟨phase_nextIndex .fwd h h4, phase_nextIndex .rev h h4⟩, ⟨?_, ?_⟩, fun hlt => ?_, fun hpos => ?_⟩
  · rw [incWrap_last (Nat.zero_lt_of_lt h)]
    rfl
  · rw [decWrap_zero]
    rfl
  · rw [incWrap_of_lt hlt]
    exact (Nat.mod_add_mod i 4 1).symm
  · rw [decWrap_of_pos hpos]
    simp only [phase]
    omega

/-- The time between two clock values is measured modulo the clock's period (R78, R145). -/
theorem elapsed_mod (bits : Nat) {last t : Nat} (h : last ≤ t) :
    elapsed bits (t % 2 ^ bits) (last % 2 ^ bits) = (t - last) % 2 ^ bits := by
  have hgap : ((t % 2 ^ bits : Nat) - (last % 2 ^ bits : Nat) : Int) % 2 ^ bits = ((t - last) % 2 ^ bits : Nat) := by
    push_cast [Nat.cast_sub h]
    exact (Int.sub_emod _ _ _).symm
  rw [elapsed, hgap, Int.toNat_natCast]

/-- Settles O21: a gap below the period is its own remainder. -/
theorem gateMeasuresTheGap : Obligations.GateMeasuresTheGap := by
  intro bits last t h
  refine ⟨elapsed_mod bits h, fun hlt => ?_⟩
  rw [elapsed_mod bits h, Nat.mod_eq_of_lt hlt]

end Sys2Proof.Machine
end

