-- ==== Sys2Proof/Proofs/Completion.lean ====
section
/-! SUPPORT. The recursion of complete() (R91, R110), and the steps after which a running move is over (R94). -/

namespace Sys2Proof.Machine

/-! One link of the chain of segments. -/

theorem nextSegments_succ_error {s : State} {f : Fault}
    (h : loadArcSegment (s.arc.k + 1) (atSegment (s.arc.k + 1) s) = .error f) (n : Nat) :
    nextSegments (n + 1) s = .error f := by
  rw [atSegment] at h
  simp only [nextSegments, h]

theorem nextSegments_succ_ok {s t : State}
    (h : loadArcSegment (s.arc.k + 1) (atSegment (s.arc.k + 1) s) = .ok t) (n : Nat) :
    nextSegments (n + 1) s = if moving t then .ok { t with mode := .run } else nextSegments n (applyPending t) := by
  rw [atSegment] at h
  simp only [nextSegments, h]

theorem complete_active {s : State} (h : s.arc.active = true) :
    complete s = nextSegments (s.arc.kmax - s.arc.k) (applyPending s) := by
  simp [complete, h]

theorem arcSegment_error {k : Nat} {s : State} {f : Fault} (h : loadArcSegment k s = .error f) :
    arcSegment k s = .error f := by
  simp only [arcSegment, h]

theorem arcSegment_ok {k : Nat} {s t : State} (h : loadArcSegment k s = .ok t) : arcSegment k s = launch t := by
  simp only [arcSegment, h]

theorem loadArcSegment_arc {k : Nat} {s t : State} (h : loadArcSegment k s = .ok t) : t.arc = s.arc := by
  unfold loadArcSegment at h
  split at h
  next => cases h
  next => cases h; exact loadPlan_arc ..

/-- Where an arc runs and `n` segments are left after the next one, the chain is the start of the next segment: that
segment runs, or it is empty and its own end goes on with the `n` others (R88, R110). -/
theorem nextSegments_succ_eq_arcSegment {s : State} {n : Nat} (hon : s.arc.active = true)
    (hn : s.arc.kmax = s.arc.k + 1 + n) :
    nextSegments (n + 1) s = arcSegment (s.arc.k + 1) (atSegment (s.arc.k + 1) s) := by
  cases hload : loadArcSegment (s.arc.k + 1) (atSegment (s.arc.k + 1) s) with
  | error f => rw [nextSegments_succ_error hload, arcSegment_error hload]
  | ok t =>
    have harc : t.arc = { s.arc with k := s.arc.k + 1 } := loadArcSegment_arc hload
    rw [nextSegments_succ_ok hload, arcSegment_ok hload]
    split
    next hmoving => rw [launch_moving hmoving]
    next hstill =>
      have hleft : t.arc.kmax - t.arc.k = n := by simp only [harc]; omega
      rw [launch_still (by simpa using hstill), complete_active (by rw [harc]; exact hon), hleft]

/-- Settles O27: while an arc's segments last, the chain of segments starts with the next one; after the last, and where
no arc runs, the move is finished. -/
theorem completionRule : Obligations.CompletionRule := by
  intro s
  split
  next hnext =>
    obtain ⟨hon, hlt⟩ := hnext
    obtain ⟨n, hn⟩ := Nat.exists_eq_add_of_le (Nat.succ_le_of_lt hlt)
    have hleft : s.arc.kmax - s.arc.k = n + 1 := by omega
    rw [complete_active hon, hleft]
    exact nextSegments_succ_eq_arcSegment (s := applyPending s) hon hn
  next hlast =>
    cases hactive : s.arc.active with
    | false => exact complete_inactive hactive
    | true =>
      have hnone : s.arc.kmax - s.arc.k = 0 := by
        rw [not_and, not_lt] at hlast
        exact Nat.sub_eq_zero_of_le (hlast hactive)
      rw [complete_active hactive, hnone]
      rfl

/-! The end of a running move. -/

/-- From RUN a step leaves MODE at RUN, or it is a Reset or a Poll (R93, R94). -/
theorem step_from_run {s u : State} (hrun : s.mode = .run) (h : step s = .next u) :
    u.mode = .run ∨ (∃ rest, s.inputs = .reset :: rest) ∨ ∃ t rest, s.inputs = .poll t :: rest := by
  obtain ⟨-, ⟨c, hidle, -⟩ | ⟨-, ⟨-, rfl⟩ | ⟨c, rest, -, rfl⟩ | ⟨rest, -, rfl⟩ | ⟨t, rest, hin, -⟩ | ⟨rest, hin, -⟩⟩⟩ :=
    step_next h
  · cases hrun.symm.trans hidle
  · exact .inl hrun
  · exact .inl hrun
  · exact .inl hrun
  · exact .inr (.inr ⟨t, rest, hin⟩)
  · exact .inr (.inl ⟨rest, hin⟩)

/-- A Poll of a running move that ends it leaves no steps, and finds no later segment with steps (R91, R94). -/
theorem step_polled_idle {s u : State} {t : Nat} {rest : List Input} (hinv : s.Inv) (hrun : s.mode = .run)
    (hin : s.inputs = .poll t :: rest) (h : step s = .next u) (hidle : u.mode = .idle) :
    (u.x.left = 0 ∧ u.y.left = 0) ∧ ((polled t s).x.left = 0 ∧ (polled t s).y.left = 0) ∧
      (s.arc.active = true → ∀ j, s.arc.k < j → j ≤ s.arc.kmax → arcDelta s j = (0, 0)) := by
  have hduty := step_next_duty h ((fetch_eq_none s).mpr (.inr (.inl hrun)))
  rcases Nat.eq_zero_or_pos ((polled t s).x.left + (polled t s).y.left) with hstill | hmoving
  · have hleft : (polled t s).x.left = 0 ∧ (polled t s).y.left = 0 := by omega
    rcases step_polled_still hinv hrun hin hduty hstill with ⟨hstep, hlater⟩ | ⟨-, j, v, -, -, -, -, -, hstep⟩
    · cases h.symm.trans hstep
      exact ⟨hleft, hleft, hlater⟩
    · cases h.symm.trans hstep
      cases hidle
  · cases h.symm.trans (step_polled_moving hinv hrun hin hduty hmoving)
    cases hrun.symm.trans hidle

/-- Settles O54: a step from RUN that is no Reset and ends the move is a Poll that completes it. -/
theorem onlyCompletionOrResetEndsAMove : Obligations.OnlyCompletionOrResetEndsAMove := by
  intro s u hinv hrun hstep hidle
  rcases step_from_run hrun hstep with hstays | hreset | ⟨t, rest, hin⟩
  · cases hstays.symm.trans hidle
  · exact .inl hreset
  · obtain ⟨⟨hx, hy⟩, ⟨hpx, hpy⟩, hlater⟩ := step_polled_idle hinv hrun hin hstep hidle
    exact .inr ⟨t, rest, hin, hx, hy, hpx, hpy, hlater⟩

end Sys2Proof.Machine
end

