-- ==== Sys2Proof/Proofs/PollAndPort.lean ====
section
/-! SUPPORT. A Poll and the command port: a Poll neither reads nor writes what stands there (R93), and in IDLE it writes
nothing but the clock value seen (R90). -/

namespace Sys2Proof.Machine

/-- The state with this on the port, all else as it was. -/
def withPort (p : Option Command) (s : State) : State := { s with port := p }

theorem withPort_axis (p : Option Command) (s : State) (a : Axis) : (withPort p s).axis a = s.axis a := by
  cases a <;> rfl

theorem withPort_port (p : Option Command) (s : State) : (withPort p s).port = p := rfl

theorem moving_withPort (p : Option Command) (s : State) : moving (withPort p s) = moving s := rfl

/-- An operation that does the same whatever stands on the port, and leaves the port as it was. -/
def IgnoresPort (f : State → Except Fault State) : Prop :=
  ∀ p s u, f s = .ok u → f (withPort p s) = .ok (withPort p u)

theorem probeAxis_ignoresPort (a : Axis) (now : Nat) : IgnoresPort (probeAxis a now) := by
  intro p s u h
  unfold probeAxis at h ⊢
  rw [withPort_axis]
  split at h
  next hleft => cases h; rw [if_pos hleft]
  next hleft =>
    rw [if_neg hleft]
    split at h
    next => cases h
    next htry => cases h; simp only [withPort, htry]
    next r htry =>
      cases h
      have htry' : tryAdvance (withPort p s).cfg a now (s.axis a) = .ok (some r) := htry
      rw [htry']
      cases a <;> rfl

theorem loadPlan_withPort (d : Delta) (v : Speeds) (p : Option Command) (s : State) :
    loadPlan d v (withPort p s) = withPort p (loadPlan d v s) := by
  rw [loadPlan_eq, loadPlan_eq]
  rfl

theorem loadArcSegment_ignoresPort (k : Nat) : IgnoresPort (loadArcSegment k) := by
  intro p s u h
  unfold loadArcSegment at h
  split at h
  next => cases h
  next v hplan =>
    cases h
    have hplan' : planCheck (withPort p s).maxSpeed (arcDelta (withPort p s) k) = .ok v := hplan
    rw [loadArcSegment, hplan']
    exact congrArg _ (loadPlan_withPort _ v p s)

theorem nextSegments_ignoresPort (n : Nat) : IgnoresPort (nextSegments n) := by
  induction n with
  | zero => rintro p s _ ⟨⟩; rfl
  | succ n ih =>
    intro p s u h
    cases hload : loadArcSegment (s.arc.k + 1) (atSegment (s.arc.k + 1) s) with
    | error f =>
      rw [nextSegments_succ_error hload] at h
      cases h
    | ok t =>
      rw [nextSegments_succ_ok hload] at h
      rw [nextSegments_succ_ok (s := withPort p s) (loadArcSegment_ignoresPort _ p _ _ hload), moving_withPort]
      split at h
      next hmoving => cases h; exact if_pos hmoving
      next hstill => rw [if_neg hstill]; exact ih p _ u h

theorem complete_ignoresPort : IgnoresPort complete := by
  intro p s u h
  cases hactive : s.arc.active with
  | false =>
    rw [complete_inactive hactive] at h
    cases h
    exact complete_inactive (s := withPort p s) hactive
  | true =>
    rw [complete_active hactive] at h
    rw [complete_active (s := withPort p s) hactive]
    exact nextSegments_ignoresPort _ p _ u h

/-- A pass whose two probes answer: the move goes on where steps remain, else its segment completes (R89). -/
theorem schedulerPass_of_probes {now : Nat} {s sy sx : State} (hy : probeAxis .y now s = .ok sy)
    (hx : probeAxis .x now sy = .ok sx) : schedulerPass now s = if moving sx then .ok sx else complete sx := by
  simp only [schedulerPass, hy, hx]

theorem schedulerPass_ignoresPort (now : Nat) : IgnoresPort (schedulerPass now) := by
  intro p s u h
  unfold schedulerPass at h
  split at h
  next => cases h
  next sy hy =>
    split at h
    next => cases h
    next sx hx =>
      rw [schedulerPass_of_probes (probeAxis_ignoresPort _ _ p _ _ hy) (probeAxis_ignoresPort _ _ p _ _ hx),
        moving_withPort]
      split at h
      next hmoving => cases h; exact if_pos hmoving
      next hstill => rw [if_neg hstill]; exact complete_ignoresPort p _ u h

/-- A Poll of a running move that keeps the clock duty is a scheduler pass (R89). -/
theorem poll_of_run {t : Nat} {s : State} (hrun : s.mode = .run) (hclock : clockBroken s.clockSeen t = false) :
    poll t s = schedulerPass (nowOf s.cfg t) { s with clockSeen := some t } := by
  simp [poll, hclock, hrun]

theorem poll_ignoresPort (t : Nat) : IgnoresPort (poll t) := by
  intro p s u h
  have hclock := poll_next_duty h
  rcases poll_next h with ⟨hidle, rfl⟩ | ⟨hrun, hpass⟩
  · exact poll_idle (s := withPort p s) hclock hidle
  · rw [poll_of_run (s := withPort p s) hrun hclock]
    exact schedulerPass_ignoresPort _ p _ u hpass

/-- Settles O11: the step is the Poll whatever stands on the port; with what stands there now, it leaves that there. -/
theorem heldCommandHasNoEffect : Obligations.HeldCommandHasNoEffect := by
  intro s u t rest p hrun hin hstep
  obtain ⟨hlegal, -⟩ := step_next hstep
  have hpoll : poll t { s with inputs := rest } = .ok u := by
    rwa [step_poll hlegal (.inl hrun) hin, toResult_next] at hstep
  have hheld : ∀ q, step (withPort q s) = .next (withPort q u) := fun q => by
    rw [step_poll (s := withPort q s) hlegal (.inl hrun) hin, toResult_next]
    exact poll_ignoresPort t q _ u hpoll
  have hsame : u = withPort s.port u := Host.Outcome.next.inj (hstep.symm.trans (hheld s.port))
  exact ⟨(congrArg State.port hsame).trans (withPort_port s.port u), hheld p⟩

/-- Settles O22: no command is accepted and no pass is made, so the clock value seen is all there is to write. -/
theorem pollInIdleChangesNothing : Obligations.PollInIdleChangesNothing := by
  intro s t rest hlegal hidle hport hin hduty
  have hclock : clockBroken s.clockSeen t = false := (clockBroken_eq_false _ _).mpr (hduty t rest hin)
  rw [step_poll hlegal (.inr hport) hin, poll_idle (s := { s with inputs := rest }) hclock hidle]
  rfl

end Sys2Proof.Machine
end

