-- ==== Sys2Proof/Proofs/OwnSpeedMoves.lean ====
section
/-! SUPPORT. The moves at the axes' own speeds: RUN_MOVE (R85), MOVE_X and MOVE_Y (R98, R99) answer the error of R86, the
empty move or the start of a move (R86 to R88). -/

namespace Sys2Proof.Machine

/-- The three commands are one: RunCheck, then StartRun with the command's counts and pending change (R85, R98, R99). -/
theorem exec_ownSpeed {i : Instr} {ys xs pdx pdy : Int} (hmove : OwnSpeedMove i ys xs pdx pdy) (s : State) :
    exec i s = command (runCheck s ys xs) (fun _ t => startRun ys xs pdx pdy t) s := by
  cases hmove <;> rfl

/-- The delay check of a move fails exactly where an axis with a count has no delay (R86). -/
theorem runCheck_error_iff (s : State) (ys xs : Int) :
    runCheck s ys xs = .error .speedUnset ↔
      (ys ≠ 0 ∧ s.y.stepDelay = none) ∨ (xs ≠ 0 ∧ s.x.stepDelay = none) := by
  unfold runCheck
  split
  next h => exact iff_of_true rfl h
  next h => exact iff_of_false (by simp) h

theorem runCheck_ok {s : State} {ys xs : Int} (hy : ys ≠ 0 → s.y.stepDelay ≠ none)
    (hx : xs ≠ 0 → s.x.stepDelay ≠ none) : runCheck s ys xs = .ok () :=
  if_neg (by tauto)

/-- The direction of a count by its sign, as the rules write it (R87). -/
theorem directionOf_eq (count : Int) (old : Dir) :
    directionOf count old = if 0 < count then .fwd else if count < 0 then .rev else old := by
  unfold directionOf
  rcases lt_trichotomy count 0 with hneg | rfl | hpos
  · rw [if_neg hneg.ne, if_pos hneg]
  · rfl
  · rw [if_neg hpos.ne', if_pos hpos, if_pos hpos]

theorem moving_setupRun (ys xs pdx pdy : Int) (s : State) :
    moving (setupRun ys xs pdx pdy s) = true ↔ ys ≠ 0 ∨ xs ≠ 0 := by
  simp [moving]

section
variable {i : Instr} {ys xs pdx pdy : Int} (hmove : OwnSpeedMove i ys xs pdx pdy) {s : State}
include hmove

theorem exec_ownSpeed_unset (h : (ys ≠ 0 ∧ s.y.stepDelay = none) ∨ (xs ≠ 0 ∧ s.x.stepDelay = none)) :
    exec i s = .next (raise .speedUnset s) := by
  rw [exec_ownSpeed hmove]
  exact command_error ((runCheck_error_iff s ys xs).mpr h) _ s

theorem exec_ownSpeed_ok (hy : ys ≠ 0 → s.y.stepDelay ≠ none) (hx : xs ≠ 0 → s.x.stepDelay ≠ none) :
    exec i s = toResult (startRun ys xs pdx pdy (accepted s)) := by
  rw [exec_ownSpeed hmove]
  exact command_ok (runCheck_ok hy hx) _ s

/-- With a count on some axis the move starts: directions, counts, pending change, MODE (R87, R88). -/
theorem exec_ownSpeed_start (hy : ys ≠ 0 → s.y.stepDelay ≠ none) (hx : xs ≠ 0 → s.x.stepDelay ≠ none)
    (hcount : ys ≠ 0 ∨ xs ≠ 0) :
    exec i s = .next { setupRun ys xs pdx pdy (accepted s) with mode := .run } := by
  rw [exec_ownSpeed_ok hmove hy hx, startRun, launch_moving ((moving_setupRun ..).mpr hcount)]
  rfl

end

/-- The end of a move leaves an idle block without an arc as it was (R91). -/
theorem finishMove_of_idle {s : State} (harc : s.arc = ArcRegs.cleared) (hidle : s.mode = .idle) : finishMove s = s := by
  rw [finishMove, ← harc, ← hidle]

/-- In IDLE a move without counts and without a pending change completes at once and leaves all as it was (R88). -/
theorem startRun_empty {s : State} (hinv : s.Inv) (hidle : s.mode = .idle) : startRun 0 0 0 0 s = .ok s := by
  obtain ⟨hx, hy, hoff, hpx, hpy⟩ := hinv.idle hidle
  have hstill : moving (setupRun 0 0 0 0 s) = false := (moving_eq_false _).mpr ⟨rfl, rfl⟩
  have happlied : applyPending (setupRun 0 0 0 0 s) = s := loadPlan_zero_applied hx hy hpx hpy
  rw [startRun, launch_still hstill, complete_inactive (s := setupRun 0 0 0 0 s) hoff, happlied,
    finishMove_of_idle (hinv.arcOff hoff) hidle]

/-- A move without counts and without a pending change only reports success, in IDLE (R88, R125). -/
theorem exec_ownSpeed_empty {i : Instr} (hmove : OwnSpeedMove i 0 0 0 0) {s : State} (hinv : s.Inv)
    (hidle : s.mode = .idle) : exec i s = .next (accepted s) := by
  rw [exec_ownSpeed_ok hmove (absurd rfl) (absurd rfl), startRun_empty hinv.accepted hidle]
  rfl

theorem decodeCommand_runMove {c : Command} (h : c.op = 0x9) (n : Nat) :
    decodeCommand n c = .runMove (signed n c.a0) (signed n c.a1) := by
  simp [decodeCommand, h]

/-- Settles O32: the check's error, the move without counts, and the start of any other are the three answers of a move
at the axes' own speeds. -/
theorem runMoveRule : Obligations.RunMoveRule := by
  refine ⟨fun n c hop => decodeCommand_runMove hop n, fun s ys xs => ?_⟩
  have hmove := OwnSpeedMove.runMove ys xs
  refine ⟨fun hunset => exec_ownSpeed_unset hmove hunset, ?_, fun hy hx hcount => ?_⟩
  · rintro rfl rfl hinv hidle
    exact exec_ownSpeed_empty hmove hinv hidle
  · rw [exec_ownSpeed_start hmove hy hx hcount, ← directionOf_eq, ← directionOf_eq]
    rfl

end Sys2Proof.Machine
end

