-- ==== Sys2Proof/Proofs/MoveDuration.lean ====
section
/-! SUPPORT. A move under Polls at every integer time (R148): what one Poll leaves of an axis's remaining advances and of
the time of its last one, and from that the Poll at which the move completes. -/

namespace Sys2Proof.Machine

/-! One Poll of an axis. -/

/-- Without a wrap of the clock an axis is due where its delay has passed since its last advance (R78). -/
theorem due_iff_of_lt {c : Config} {r : AxisRegs} {d t : Nat} (hdelay : r.stepDelay = some d)
    (hlast : r.lastStepTime ≤ t) (hwrap : t < 2 ^ c.timeBits) :
    due c t r = true ↔ 1 ≤ r.left ∧ r.lastStepTime + d ≤ t := by
  have hperiod : (t : Int) < 2 ^ c.timeBits := by exact_mod_cast hwrap
  have hgap : gap c t r = t - r.lastStepTime := Int.emod_eq_of_lt (by omega) (by omega)
  simp only [due, hdelay, hgap, decide_eq_true_eq]
  omega

theorem due_of_left_eq_zero {r : AxisRegs} (h : r.left = 0) (c : Config) (t : Nat) : due c t r = false := by
  unfold due
  split <;> simp [h]

/-- What a Poll at `t` leaves of an axis, as far as the times of its advances go (R78, R80, R83). -/
inductive AxisPoll (t : Nat) (r : AxisRegs) : AxisRegs → Prop where
  | done (hleft : r.left = 0) : AxisPoll t r r
  | waits {d : Nat} (hd : 1 ≤ d) (hdelay : r.stepDelay = some d) (hleft : 1 ≤ r.left)
      (hlt : t < r.lastStepTime + d) : AxisPoll t r r
  | steps {d : Nat} {r' : AxisRegs} (hd : 1 ≤ d) (hdelay : r.stepDelay = some d) (hleft : 1 ≤ r.left)
      (hle : r.lastStepTime + d ≤ t) (hdelay' : r'.stepDelay = some d) (hlast' : r'.lastStepTime = t)
      (hleft' : r'.left = r.left - 1) : AxisPoll t r r'

theorem AxisInv.axisPoll {c : Config} {a : Axis} {r : AxisRegs} (h : AxisInv c a r) {t : Nat}
    (hlast : r.lastStepTime ≤ t) (hwrap : t < 2 ^ c.timeBits) : AxisPoll t r (polledAxis c a t r) := by
  unfold polledAxis
  rcases Nat.eq_zero_or_pos r.left with hleft | hleft
  · rw [due_of_left_eq_zero hleft]
    exact .done hleft
  · obtain ⟨d, hdelay⟩ := Option.ne_none_iff_exists'.mp (h.left_delay hleft)
    obtain ⟨hd, -⟩ := h.delay_range d hdelay
    split
    next hdue =>
      obtain ⟨-, hle⟩ := (due_iff_of_lt hdelay hlast hwrap).mp hdue
      exact .steps hd hdelay hleft hle hdelay rfl rfl
    next hdue =>
      rw [due_iff_of_lt hdelay hlast hwrap, not_and, not_le] at hdue
      exact .waits hd hdelay hleft (hdue hleft)

theorem advancesMade_zero (t : Nat) (r : AxisRegs) : advancesMade t 0 r = 0 :=
  if_pos (le_max_left t _)

theorem AxisPoll.lastStepTime_le {t : Nat} {r r' : AxisRegs} (h : AxisPoll t r r') (hlast : r.lastStepTime ≤ t) :
    r'.lastStepTime ≤ t + 1 := by
  cases h with
  | done | waits => exact hlast.trans t.le_succ
  | steps _ _ _ _ _ hlast' => exact hlast'.trans_le t.le_succ

/-- A Poll counts one advance, or leaves the count: what remains after it and `j` more is what remains after `j + 1`. -/
theorem AxisPoll.left_sub_advancesMade {t : Nat} {r r' : AxisRegs} (h : AxisPoll t r r') (j : Nat) :
    r'.left - advancesMade (t + 1) j r' = r.left - advancesMade t (j + 1) r := by
  cases h with
  | done hleft => rw [hleft, Nat.zero_sub, Nat.zero_sub]
  | waits hd hdelay hleft hlt =>
    have hfirst : max (t + 1) (r.lastStepTime + r.stepDelay.getD 0) = max t (r.lastStepTime + r.stepDelay.getD 0) := by
      rw [hdelay, Option.getD_some]
      omega
    rw [advancesMade, advancesMade, hfirst, Nat.add_right_comm, Nat.add_assoc]
  | @steps d _ hd hdelay hleft hle hdelay' hlast' hleft' =>
    have hfirst : max t (r.lastStepTime + d) = t := max_eq_left hle
    have hfirst' : max (t + 1) (t + d) = t + d := by omega
    simp only [advancesMade, hdelay, hdelay', hlast', hleft', Option.getD_some, hfirst, hfirst']
    rw [if_neg (by omega : ¬ t + (j + 1) ≤ t)]
    have hsub : t + (j + 1) - 1 - t = j := by omega
    rw [hsub]
    split
    next hbefore =>
      rw [Nat.div_eq_of_lt (by omega : j < d)]
      omega
    next hafter =>
      have hquot : (t + 1 + j - 1 - (t + d)) / d + 1 = j / d := by
        rw [Nat.div_eq_sub_div hd (by omega : d ≤ j)]
        congr 2
        omega
      rw [hquot]
      omega

/-! The last advance of an axis. -/

/-- The Poll at which an axis makes its last advance, 0 where it has no steps (R148). -/
def axisEnd (t : Nat) (r : AxisRegs) : Nat := if r.left = 0 then 0 else lastAdvance t r

theorem moveEnd_eq (t : Nat) (s : State) : moveEnd t s = max (axisEnd t s.x) (axisEnd t s.y) := rfl

theorem axisEnd_of_left_eq_zero {r : AxisRegs} (h : r.left = 0) (t : Nat) : axisEnd t r = 0 := if_pos h

theorem axisEnd_of_left_pos {r : AxisRegs} {d : Nat} (h : 1 ≤ r.left) (hdelay : r.stepDelay = some d) (t : Nat) :
    axisEnd t r = max t (r.lastStepTime + d) + (r.left - 1) * d := by
  rw [axisEnd, if_neg (by omega), lastAdvance, hdelay, Option.getD_some]

theorem le_axisEnd {r : AxisRegs} (h : 1 ≤ r.left) (t : Nat) : t ≤ axisEnd t r := by
  rw [axisEnd, if_neg (by omega), lastAdvance]
  omega

/-- The Poll at the time of an axis's last advance, or after it, leaves the axis no steps; one before it does not move
that time. -/
theorem AxisPoll.left_axisEnd {t : Nat} {r r' : AxisRegs} (h : AxisPoll t r r') :
    (axisEnd t r ≤ t ∧ r'.left = 0) ∨ (t < axisEnd t r ∧ 1 ≤ r'.left ∧ axisEnd (t + 1) r' = axisEnd t r) := by
  cases h with
  | done hleft => exact .inl ⟨by rw [axisEnd_of_left_eq_zero hleft]; exact t.zero_le, hleft⟩
  | waits hd hdelay hleft hlt =>
    rw [axisEnd_of_left_pos hleft hdelay, axisEnd_of_left_pos hleft hdelay]
    exact .inr ⟨by omega, hleft, by omega⟩
  | @steps d _ hd hdelay hleft hle hdelay' hlast' hleft' =>
    rw [axisEnd_of_left_pos hleft hdelay, max_eq_left hle]
    rcases hleft.eq_or_lt with hone | hmore
    · exact .inl ⟨by simp [← hone], by omega⟩
    · have hpos : 1 ≤ r'.left := by omega
      have hsteps : (r.left - 1) * d = (r'.left - 1) * d + d := by
        rw [← Nat.succ_mul, hleft']
        congr 1
        omega
      rw [axisEnd_of_left_pos hpos hdelay', hlast', hsteps]
      exact .inr ⟨by omega, hpos, by omega⟩

/-! The move. -/

theorem pollsFrom_succ (t n : Nat) : pollsFrom t (n + 1) = .poll t :: pollsFrom (t + 1) n := rfl

/-- A move that is no arc, with Polls at every integer time from `t` up to `stop`, the time of its last advance, and
then `rest`; the clock has passed no value after `t` and does not wrap (R147, R148). -/
structure PolledMove (t stop : Nat) (rest : List Input) (s : State) : Prop where
  inv : s.Inv
  running : s.mode = .run
  noArc : s.arc.active = false
  clock : ∀ c, s.clockSeen = some c → c ≤ t
  last : ∀ a, (s.axis a).lastStepTime ≤ t
  stop_eq : moveEnd t s = stop
  noWrap : stop < 2 ^ s.cfg.timeBits
  inputs_eq : s.inputs = pollsFrom t (stop + 1 - t) ++ rest

/-- The state the Poll at `t` leaves where the move goes on up to `stop`. -/
def afterPoll (t stop : Nat) (rest : List Input) (s : State) : State :=
  { polled t s with inputs := pollsFrom (t + 1) (stop - t) ++ rest }

theorem afterPoll_axis (t stop : Nat) (rest : List Input) (s : State) (a : Axis) :
    (afterPoll t stop rest s).axis a = (polled t s).axis a := by
  cases a <;> rfl

namespace PolledMove

variable {t stop : Nat} {rest : List Input} {s : State} (h : PolledMove t stop rest s)
include h

theorem le_stop : t ≤ stop := by
  obtain ⟨hleft, -⟩ := h.inv.run h.running
  rw [← h.stop_eq, moveEnd_eq]
  rcases Nat.eq_zero_or_pos s.x.left with hx | hx
  · exact (le_axisEnd (by omega) t).trans (le_max_right _ _)
  · exact (le_axisEnd hx t).trans (le_max_left _ _)

theorem inputs_cons : s.inputs = .poll t :: (pollsFrom (t + 1) (stop - t) ++ rest) := by
  rw [h.inputs_eq, Nat.sub_add_comm h.le_stop, pollsFrom_succ, List.cons_append]

theorem duty : clockDutyKept s := by
  intro t' rest' hin
  obtain ⟨htime, -⟩ := List.cons.inj (h.inputs_cons.symm.trans hin)
  cases htime
  exact h.clock

theorem axisPoll (a : Axis) : AxisPoll t (s.axis a) ((polled t s).axis a) := by
  have hwrap : t < 2 ^ s.cfg.timeBits := h.le_stop.trans_lt h.noWrap
  rw [polled_axis, Nat.mod_eq_of_lt hwrap]
  exact (h.inv.axes a).axisPoll (h.last a) hwrap

/-- Before its end the move goes on, and ends at the same time. -/
theorem polled_moves (hlt : t < stop) :
    1 ≤ (polled t s).x.left + (polled t s).y.left ∧ moveEnd (t + 1) (polled t s) = stop := by
  have hx := (h.axisPoll .x).left_axisEnd
  have hy := (h.axisPoll .y).left_axisEnd
  have hstop := h.stop_eq
  simp only [axis_x, axis_y] at hx hy
  rw [moveEnd_eq] at hstop ⊢
  rcases hx with ⟨hx, hx0⟩ | ⟨hx, hx0, hxe⟩ <;> rcases hy with ⟨hy, hy0⟩ | ⟨hy, hy0, hye⟩
  · omega
  · rw [axisEnd_of_left_eq_zero hx0]; omega
  · rw [axisEnd_of_left_eq_zero hy0]; omega
  · omega

theorem step_before (hlt : t < stop) : step s = .next (afterPoll t stop rest s) :=
  step_polled_moving h.inv h.running h.inputs_cons h.duty (h.polled_moves hlt).1

theorem moves_on (hlt : t < stop) : PolledMove (t + 1) stop rest (afterPoll t stop rest s) where
  inv := stepKeepsTheInvariant _ _ h.inv (h.step_before hlt)
  running := h.running
  noArc := h.noArc
  clock := by rintro _ ⟨⟩; exact t.le_succ
  last := fun a => by
    rw [afterPoll_axis]
    exact (h.axisPoll a).lastStepTime_le (h.last a)
  stop_eq := (h.polled_moves hlt).2
  noWrap := h.noWrap
  inputs_eq := by rw [Nat.add_sub_add_right]; rfl

/-- At its end the move has no steps left. -/
theorem polled_still (hend : t = stop) : (polled t s).x.left = 0 ∧ (polled t s).y.left = 0 := by
  have hx := (h.axisPoll .x).left_axisEnd
  have hy := (h.axisPoll .y).left_axisEnd
  have hstop := h.stop_eq
  rw [moveEnd_eq] at hstop
  simp only [axis_x, axis_y] at hx hy
  exact ⟨by omega, by omega⟩

/-- The Poll at its end completes the move (R91). -/
theorem step_end (hend : t = stop) :
    step s = .next (finishMove (applyPending { polled t s with inputs := rest })) := by
  obtain ⟨hx, hy⟩ := h.polled_still hend
  have hin : s.inputs = .poll t :: rest := by
    rw [h.inputs_cons, hend, Nat.sub_self]
    rfl
  rcases step_polled_still h.inv h.running hin h.duty (by omega) with ⟨hstep, -⟩ | ⟨hon, -⟩
  · exact hstep
  · exact absurd (h.noArc.symm.trans hon) Bool.false_ne_true

end PolledMove

/-! The run. -/

theorem core_run_succ {s u : State} (h : step s = .next u) (k : Nat) : core.run (k + 1) s = core.run k u := by
  have hstep : core.step s = .next u := h
  simp only [Host.Core.run, hstep]

/-- Up to the Poll at its end the move runs, and each axis has made the advances that fall before the next Poll. -/
theorem PolledMove.run_before {t stop : Nat} {rest : List Input} {s : State} (h : PolledMove t stop rest s) {j : Nat}
    (hj : j ≤ stop - t) : ∃ u, core.run j s = .next u ∧ u.mode = .run ∧
      ∀ a, (u.axis a).left = (s.axis a).left - advancesMade t j (s.axis a) := by
  induction j generalizing t s with
  | zero =>
    refine ⟨s, rfl, h.running, fun a => ?_⟩
    rw [advancesMade_zero, Nat.sub_zero]
  | succ j ih =>
    have hlt : t < stop := by omega
    obtain ⟨u, hrun, hmode, hleft⟩ := ih (h.moves_on hlt) (by omega)
    refine ⟨u, (core_run_succ (h.step_before hlt) j).trans hrun, hmode, fun a => ?_⟩
    rw [hleft, afterPoll_axis, (h.axisPoll a).left_sub_advancesMade]

/-- The Poll at its end leaves the move complete: no steps, the pending change in the position, MODE at IDLE. -/
theorem PolledMove.run_to_end {t stop n : Nat} {rest : List Input} {s : State} (h : PolledMove t stop rest s)
    (hn : stop = t + n) : ∃ u, core.run (n + 1) s = .next u ∧ u.mode = .idle ∧ u.x.left = 0 ∧ u.y.left = 0 ∧
      u.posX = s.posX + s.pendX ∧ u.posY = s.posY + s.pendY ∧ u.inputs = rest := by
  induction n generalizing t s with
  | zero =>
    obtain ⟨hx, hy⟩ := h.polled_still hn.symm
    exact ⟨_, core_run_succ (h.step_end hn.symm) 0, rfl, hx, hy, rfl, rfl, rfl⟩
  | succ n ih =>
    have hlt : t < stop := by omega
    obtain ⟨u, hrun, hend⟩ := ih (h.moves_on hlt) (by omega)
    exact ⟨u, (core_run_succ (h.step_before hlt) (n + 1)).trans hrun, hend⟩

/-- Settles O60: every Poll before the last leaves a move of the same kind with the same end; the run follows by
induction over the Polls. -/
theorem moveDuration : Obligations.MoveDuration := by
  intro s t rest hinv hrun hoff hclock hlast hwrap hin
  have h : PolledMove t (moveEnd t s) rest s := ⟨hinv, hrun, hoff, hclock, hlast, rfl, hwrap, hin⟩
  refine ⟨fun j hj => h.run_before hj, ?_⟩
  rw [Nat.sub_add_comm h.le_stop]
  exact h.run_to_end (Nat.add_sub_of_le h.le_stop).symm

end Sys2Proof.Machine
end

