-- ==== Sys2Proof/Proofs/ArcPosition.lean ====
section
/-! SUPPORT. The points of a running arc (R107, R108): what a Poll leaves of the position, measured from them. -/

namespace Sys2Proof.Machine

/-- The projected point at which segment `j` of the running arc ends and the next one begins (R107, R108). -/
def arcPoint (s : State) (j : Nat) : Delta :=
  project s.cfg s.arc.radius (arcAngle s.arc.startAngle s.arc.endAngle s.arc.inc s.arc.kmax j)

/-- A segment's delta is the way from its first point to its last (R108). -/
theorem arcDelta_eq (s : State) (j : Nat) :
    arcDelta s j = ((arcPoint s j).1 - (arcPoint s (j - 1)).1, (arcPoint s j).2 - (arcPoint s (j - 1)).2) := rfl

/-- The last point of an arc is that of its end angle (R107). -/
theorem arcPoint_kmax (s : State) : arcPoint s s.arc.kmax = project s.cfg s.arc.radius s.arc.endAngle := by
  rw [arcPoint, arcAngle, if_pos rfl]

/-- Segments without steps lead from a point back to itself. -/
theorem arcPoint_eq_of_empty {s : State} {k j : Nat} (hkj : k ≤ j)
    (hempty : ∀ i, k < i → i ≤ j → arcDelta s i = (0, 0)) : arcPoint s j = arcPoint s k := by
  induction hkj with
  | refl => rfl
  | @step j hkj ih =>
    have hdelta := hempty (j + 1) (Nat.lt_succ_of_le hkj) le_rfl
    rw [arcDelta_eq, Nat.add_sub_cancel, Prod.mk.injEq, sub_eq_zero, sub_eq_zero] at hdelta
    rw [Prod.ext hdelta.1 hdelta.2, ih fun i hi hij => hempty i hi (hij.trans j.le_succ)]

/-- The change a running segment makes to the position is the way from its first point to its last (R108, R110). -/
theorem ArcRunning.pending_eq {s : State} (h : ArcRunning s) :
    s.pendX = (arcPoint s s.arc.k).1 - (arcPoint s (s.arc.k - 1)).1 ∧
      s.pendY = (arcPoint s s.arc.k).2 - (arcPoint s (s.arc.k - 1)).2 := by
  have hpending := h.pending
  rwa [arcDelta_eq, Prod.mk.injEq] at hpending

@[simp] theorem startSegment_mode (j : Nat) (v : Speeds) (s : State) : (startSegment j v s).mode = .run := rfl
@[simp] theorem startSegment_posX (j : Nat) (v : Speeds) (s : State) : (startSegment j v s).posX = s.posX := by
  simp [startSegment, atSegment]
@[simp] theorem startSegment_posY (j : Nat) (v : Speeds) (s : State) : (startSegment j v s).posY = s.posY := by
  simp [startSegment, atSegment]
@[simp] theorem startSegment_arc (j : Nat) (v : Speeds) (s : State) :
    (startSegment j v s).arc = { s.arc with k := j } := by
  simp [startSegment, atSegment]

/-- Settles O43: a Poll that leaves steps leaves the position and the segment; any other adds the segment's delta, and
the segments it skips after that have none. -/
theorem arcPositionFollowsThePoints : Obligations.ArcPositionFollowsThePoints := by
  intro s u t rest P hinv hrun hon hin hstep
  have hduty := step_next_duty hstep ((fetch_eq_none s).mpr (.inr (.inl hrun)))
  have harc := hinv.arcOn hon
  obtain ⟨hpx, hpy⟩ := harc.pending_eq
  have hx := (add_sub_cancel_left s.posX s.pendX).trans hpx
  have hy := (add_sub_cancel_left s.posY s.pendY).trans hpy
  rcases Nat.eq_zero_or_pos ((polled t s).x.left + (polled t s).y.left) with hstill | hmoving
  · rcases step_polled_still hinv hrun hin hduty hstill with ⟨hnext, hlater⟩ | ⟨-, j, v, hk, -, hempty, -, -, hnext⟩
    · cases hstep.symm.trans hnext
      have hend : arcPoint s s.arc.k = project s.cfg s.arc.radius s.arc.endAngle := by
        rw [← arcPoint_eq_of_empty harc.k_le (hlater hon), arcPoint_kmax]
      rw [← hend]
      exact ⟨fun hactive => absurd hactive Bool.false_ne_true, fun _ => ⟨rfl, hx, hy⟩⟩
    · cases hstep.symm.trans hnext
      have hbegin : P (j - 1) = arcPoint s s.arc.k :=
        arcPoint_eq_of_empty (Nat.le_sub_one_of_lt hk) fun i hi hij => hempty i hi (by omega)
      refine ⟨fun _ => ?_, fun hoff => ?_⟩
      · simp only [startSegment_arc, startSegment_posX, startSegment_posY]
        rw [hbegin]
        exact ⟨rfl, hk.le, rfl, hx, hy⟩
      · rw [startSegment_arc] at hoff
        exact absurd (hoff.symm.trans hon) Bool.false_ne_true
  · cases hstep.symm.trans (step_polled_moving hinv hrun hin hduty hmoving)
    exact ⟨fun _ => ⟨hrun, le_rfl, rfl, (sub_self _).trans (sub_self _).symm, (sub_self _).trans (sub_self _).symm⟩,
      fun hoff => absurd (hoff.symm.trans hon) Bool.false_ne_true⟩

end Sys2Proof.Machine
end

