-- ==== Sys2Proof/Proofs/InitAndAxisMoves.lean ====
section
/-! SUPPORT. INIT (R97), which sets the top speed and both axes' own speeds, and MOVE_X and MOVE_Y (R98, R99), which
move one axis at its own speed. -/

namespace Sys2Proof.Machine

/-! INIT. -/

theorem exec_init (m : Int) (s : State) :
    exec (.init m) s = command (initChecks s m)
      (fun d t => .ok { setDelay .y d.2 (setDelay .x d.1 t) with maxSpeed := some m.toNat }) s := rfl

theorem exec_init_error {s : State} {m : Int} {cause : Cause} (h : initChecks s m = .error cause) :
    exec (.init m) s = .next (raise cause s) := by
  rw [exec_init]
  exact command_error h _ s

/-- INIT whose checks pass writes both delays, the top speed and the report, and nothing else (R97, R125). -/
theorem exec_init_ok {s : State} {m : Int} {dx dy : Nat} (h : initChecks s m = .ok (dx, dy)) :
    exec (.init m) s = .next { s with
      x := { s.x with stepDelay := some dx }
      y := { s.y with stepDelay := some dy }
      maxSpeed := some m.toNat
      err := 0
      errCause := 0 } := by
  rw [exec_init]
  exact command_ok h _ s

/-- Settles O16: each answer of the speed checks of the two axes, X's first, is one clause. -/
theorem initRule : Obligations.InitRule := by
  refine ⟨fun n c hop => by simp [decodeCommand, hop], fun s m =>
    ⟨fun hm => ?_, fun hm hzero => ?_, fun hm hx hy => ?_⟩⟩
  · exact exec_init_error (cause := .rpmNonpositive) (by simp only [initChecks, speedCheck_of_nonpos hm])
  · refine exec_init_error (cause := .delayZero) ?_
    by_cases hx : delay s.cfg .x m.toNat = 0
    · simp only [initChecks, speedCheck_of_delay_eq_zero hm hx]
    · have hy : delay s.cfg .y m.toNat = 0 := hzero.resolve_left hx
      simp only [initChecks, speedCheck_of_delay_ne_zero hm hx, speedCheck_of_delay_eq_zero hm hy]
  · have hx' := speedCheck_of_delay_ne_zero (c := s.cfg) (a := .x) hm hx
    have hy' := speedCheck_of_delay_ne_zero (c := s.cfg) (a := .y) hm hy
    exact exec_init_ok (by simp only [initChecks, hx', hy']; rfl)

/-! MOVE_X and MOVE_Y. -/

/-- A count that is not 0 gives its axis the direction of its sign (R87). -/
theorem directionOf_of_ne_zero {count : Int} (h : count ≠ 0) (old : Dir) :
    directionOf count old = if 0 < count then .fwd else .rev :=
  if_neg h

/-- Settles O33: MOVE_X is the move at own speed with a count on X alone. -/
theorem moveXRule : Obligations.MoveXRule := by
  refine ⟨fun n c hop => by simp [decodeCommand, hop], fun s l => ?_⟩
  have hmove := OwnSpeedMove.moveX l
  refine ⟨fun hl hunset => exec_ownSpeed_unset hmove (.inr ⟨hl, hunset⟩), ?_, fun hl hset => ?_⟩
  · rintro rfl hinv hidle
    exact exec_ownSpeed_empty hmove hinv hidle
  · rw [exec_ownSpeed_start hmove (absurd rfl) (fun _ => hset) (.inr hl), ← directionOf_of_ne_zero hl s.x.dir]
    rfl

/-- Settles O34: MOVE_Y is the move at own speed with a count on Y alone. -/
theorem moveYRule : Obligations.MoveYRule := by
  refine ⟨fun n c hop => by simp [decodeCommand, hop], fun s l => ?_⟩
  have hmove := OwnSpeedMove.moveY l
  refine ⟨fun hl hunset => exec_ownSpeed_unset hmove (.inl ⟨hl, hunset⟩), ?_, fun hl hset => ?_⟩
  · rintro rfl hinv hidle
    exact exec_ownSpeed_empty hmove hinv hidle
  · rw [exec_ownSpeed_start hmove (fun _ => hset) (absurd rfl) (.inl hl), ← directionOf_of_ne_zero hl s.y.dir]
    rfl

end Sys2Proof.Machine
end

