-- ==== Sys2Proof/Proofs/StraightMoves.lean ====
section
/-! SUPPORT. The planned straight moves: the plan's speeds (R101 to R103, R115), LINEAR_TO and POLAR_TO (R100, R105),
and the projection POLAR_TO moves by (R104). -/

namespace Sys2Proof.Machine

/-! The plan. -/

theorem ratio_zero (m minor : Nat) : ratio m minor 0 = .error .majorZero := rfl

theorem ratio_of_ne_zero {major : Nat} (h : major ≠ 0) (m minor : Nat) :
    ratio m minor major = .ok (m * minor / major) :=
  if_neg h

/-- Settles O37: the guard stands, and the errors of a plan are MAXSPEED_UNSET and MINOR_SPEED_ZERO. -/
theorem majorZeroNeverReported : Obligations.MajorZeroNeverReported :=
  ⟨ratio_zero, fun m minor _ h => ratio_of_ne_zero h m minor, fun _ _ h => planCheck_error_ne_majorZero h rfl⟩

/-- Settles O38: the speeds of a plan that passes are those of the rule, which lie between 1 and the top speed, and
DELAY does not increase with the speed. -/
theorem plannedSpeedsHaveDelays : Obligations.PlannedSpeedsHaveDelays := by
  intro c m d speeds hm hx hy hplan
  obtain ⟨hpass, rfl⟩ := planCheck_next hm hplan
  refine ⟨by rw [plannedSpeed_none, Int.natAbs_eq_zero], by rw [plannedSpeed_none, Int.natAbs_eq_zero],
    fun v hv => ?_, fun v hv => ?_⟩
  · obtain ⟨h1, h2⟩ := plannedSpeed_range hm hpass hv
    exact ⟨h1, h2, hx.trans (delay_antitone c .x h1 h2)⟩
  · obtain ⟨h1, h2⟩ := plannedSpeed_range hm (by rwa [min_comm, max_comm]) hv
    exact ⟨h1, h2, hy.trans (delay_antitone c .y h1 h2)⟩

theorem planPasses_zero (m : Nat) : planPasses m (0, 0) := .inl rfl

/-- The zero delta passes its plan at any top speed, without speeds (R102). -/
theorem planCheck_zero_ok (m : Nat) : planCheck (some m) (0, 0) = .ok (none, none) := by
  simp [planCheck, majorMagnitude]

/-! The start of a planned move. -/

/-- The registers of a state in which a coordinated move by `d` at top speed `m` runs (R101 to R103). -/
def withPlannedMove (m : Nat) (d : Delta) (s : State) : State :=
  { s with
    x := plannedAxis s.cfg .x m d.1 d.2 s.x
    y := plannedAxis s.cfg .y m d.2 d.1 s.y
    mode := .run
    pendX := d.1
    pendY := d.2 }

/-- A plan with steps that passes is launched as the move of the rule (R88, R103). -/
theorem launch_loadPlan {m : Nat} (hm : 1 ≤ m) {d : Delta} {v : Speeds} (hplan : planCheck (some m) d = .ok v)
    (hd : d ≠ (0, 0)) (s : State) : launch (loadPlan d v s) = .ok (withPlannedMove m d s) := by
  obtain ⟨-, rfl⟩ := planCheck_next hm hplan
  rw [launch_moving ((moving_loadPlan ..).mpr hd), loadPlan_eq, plannedAxis_eq, plannedAxis_eq]
  rfl

/-- In IDLE a plan without steps completes at once and leaves all as it was (R88). -/
theorem planLinear_empty {s : State} (hinv : s.Inv) (hidle : s.mode = .idle) :
    planLinear (0, 0) (none, none) s = .ok s :=
  startRun_empty hinv hidle

/-! Straight moves. -/

theorem straightMove_error {d : Delta} {s : State} {cause : Cause} (h : planCheck s.maxSpeed d = .error cause) :
    straightMove d s = .next (raise cause s) :=
  command_error h _ s

theorem straightMove_ok {d : Delta} {s : State} {v : Speeds} (h : planCheck s.maxSpeed d = .ok v) :
    straightMove d s = toResult (planLinear d v (accepted s)) :=
  command_ok h _ s

/-- A straight move answers as the rule says (R100 to R103, R105): the two errors are those of its plan. -/
theorem straightMove_rule (s : State) (d : Delta) : StraightMoveRule s d (straightMove d s) where
  unset hnone := straightMove_error (cause := .maxSpeedUnset) (by rw [hnone, planCheck_none])
  tooSlow m hmax _ hslow := straightMove_error (cause := .minorSpeedZero) (by rw [hmax, planCheck_fails hslow])
  empty m hmax hd hinv hidle := by
    subst hd
    rw [straightMove_ok (hmax ▸ planCheck_zero_ok m), planLinear_empty hinv.accepted hidle]
    rfl
  start m hmax hm hd hpass := by
    have hplan := planCheck_passes hm hpass
    rw [straightMove_ok (hmax ▸ hplan), planLinear, launch_loadPlan hm hplan hd]
    rfl

/-- Settles O35: the Accept of LINEAR_TO is the straight move by the difference of its points. -/
theorem linearToRule : Obligations.LinearToRule :=
  ⟨fun n c hop => by simp [decodeCommand, hop], fun s _ _ _ _ => straightMove_rule s _⟩

theorem exec_polarTo (r theta : Int) (s : State) : exec (.polarTo r theta) s = straightMove (project s.cfg r theta) s :=
  rfl

/-- LINEAR_TO from the origin moves by its end point (R100). -/
theorem exec_linearTo_origin (d : Delta) (s : State) : exec (.linearTo 0 0 d.1 d.2) s = straightMove d s := by
  show straightMove (d.1 - 0, d.2 - 0) s = straightMove d s
  rw [sub_zero, sub_zero]

/-- Settles O36: the Accept of POLAR_TO is the straight move by the projection, and so is that of LINEAR_TO from the
origin to that point. -/
theorem polarToRule : Obligations.PolarToRule := by
  refine ⟨fun n c hop => by simp [decodeCommand, hop], fun s r theta => ⟨?_, ?_, project_zero_angle s.cfg r⟩⟩
  · rw [exec_polarTo]
    exact straightMove_rule s _
  · rw [exec_polarTo, exec_linearTo_origin]

/-- Settles O44: the law of the default projection, and that of every projection at angle 0. -/
theorem defaultProjectionTruncates : Obligations.DefaultProjectionTruncates :=
  ⟨fun _ r v hdefault => project_truncates hdefault r v, project_zero_angle⟩

end Sys2Proof.Machine
end

