-- ==== Sys2Proof/Proofs/ArcSchedule.lean ====
section
/-! SUPPORT. The angle schedule of an arc (R107): the number of segments, and where the points of an arc lie. -/

namespace Sys2Proof.Machine

/-! The number of segments. -/

theorem arcCount_self (s inc : Int) : arcCount s s inc = 0 := if_pos rfl

/-- The segments cover the way from the start to the end, and one segment fewer does not (R107). -/
theorem arcCount_bounds {s e inc : Int} (hinc : 1 ≤ inc) (hne : s ≠ e) :
    ((arcCount s e inc : Int) - 1) * inc < (e - s).natAbs ∧ ((e - s).natAbs : Int) ≤ arcCount s e inc * inc := by
  obtain ⟨i, rfl⟩ := Int.eq_ofNat_of_zero_le (show 0 ≤ inc by omega)
  obtain ⟨d, hd⟩ := Nat.exists_eq_add_of_le' (show 1 ≤ (e - s).natAbs by omega)
  have hcount : arcCount s e i = (d + i) / i := by
    rw [arcCount, if_neg hne, hd, Int.toNat_natCast]
    congr 1
    omega
  have hle : (d + i) / i * i ≤ d + i := Nat.div_mul_le_self _ _
  have hlt : d + i < (d + i) / i * i + i := Nat.lt_div_mul_add (by omega)
  rw [hcount, hd, sub_mul, one_mul]
  generalize (d + i) / i = K at *
  zify at hle hlt
  push_cast
  omega

theorem arcCount_eq_zero_iff {s e inc : Int} (hinc : 1 ≤ inc) : arcCount s e inc = 0 ↔ s = e := by
  refine ⟨fun hzero => ?_, fun h => h ▸ arcCount_self s inc⟩
  by_contra hne
  have hcover := (arcCount_bounds hinc hne).2
  rw [hzero] at hcover
  omega

/-! The points. -/

theorem arcAngle_last (s e inc : Int) (K : Nat) : arcAngle s e inc K K = e := if_pos rfl

/-- Before the last point, point `k` lies `k` increments from the start towards the end, and does not reach the end. -/
theorem arcAngle_of_lt {s e inc : Int} (hinc : 1 ≤ inc) {k : Nat} (hk : k < arcCount s e inc) :
    (s < e ∧ arcAngle s e inc (arcCount s e inc) k = s + k * inc ∨
      e < s ∧ arcAngle s e inc (arcCount s e inc) k = s - k * inc) ∧
    0 ≤ k * inc ∧ k * inc < (e - s).natAbs := by
  have hne : s ≠ e := fun h => by rw [h, arcCount_self] at hk; omega
  have hangle : arcAngle s e inc (arcCount s e inc) k = s + sgn (e - s) * k * inc := if_neg hk.ne
  refine ⟨?_, by positivity, ?_⟩
  · rcases lt_or_gt_of_ne hne with hlt | hgt
    · exact .inl ⟨hlt, by rw [hangle, sgn, if_pos (sub_pos.mpr hlt), one_mul]⟩
    · exact .inr ⟨hgt, by rw [hangle, sgn, if_neg (by omega), if_pos (sub_neg.mpr hgt)]; ring⟩
  · calc (k : Int) * inc ≤ ((arcCount s e inc : Int) - 1) * inc :=
          mul_le_mul_of_nonneg_right (by omega) (by omega)
      _ < (e - s).natAbs := (arcCount_bounds hinc hne).1

theorem arcAngle_zero {s e inc : Int} (hinc : 1 ≤ inc) : arcAngle s e inc (arcCount s e inc) 0 = s := by
  rcases Nat.eq_zero_or_pos (arcCount s e inc) with hzero | hpos
  · rw [hzero, arcAngle_last, (arcCount_eq_zero_iff hinc).mp hzero]
  · obtain ⟨hangle, -⟩ := arcAngle_of_lt hinc hpos
    rcases hangle with ⟨-, hangle⟩ | ⟨-, hangle⟩ <;> simp [hangle]

theorem arcAngle_between {s e inc : Int} (hinc : 1 ≤ inc) {k : Nat} (hk : k ≤ arcCount s e inc) :
    min s e ≤ arcAngle s e inc (arcCount s e inc) k ∧ arcAngle s e inc (arcCount s e inc) k ≤ max s e := by
  rcases hk.eq_or_lt with rfl | hlt
  · rw [arcAngle_last]
    exact ⟨min_le_right s e, le_max_right s e⟩
  · obtain ⟨hangle, hfrom, hto⟩ := arcAngle_of_lt hinc hlt
    omega

/-- Every step of the schedule but the last is one increment (R107). -/
theorem arcAngle_step {s e inc : Int} (hinc : 1 ≤ inc) {k : Nat} (hk : k + 1 < arcCount s e inc) :
    ((arcAngle s e inc (arcCount s e inc) (k + 1) - arcAngle s e inc (arcCount s e inc) k).natAbs : Int) = inc := by
  obtain ⟨hangle, -⟩ := arcAngle_of_lt hinc (k.lt_succ_self.trans hk)
  obtain ⟨hnext, -⟩ := arcAngle_of_lt hinc hk
  rw [Nat.cast_succ, add_one_mul] at hnext
  omega

/-- The last step of the schedule is positive and at most one increment (R107). -/
theorem arcAngle_lastStep {s e inc : Int} (hinc : 1 ≤ inc) {k : Nat} (hk : k + 1 = arcCount s e inc) :
    1 ≤ (e - arcAngle s e inc (arcCount s e inc) k).natAbs ∧
      ((e - arcAngle s e inc (arcCount s e inc) k).natAbs : Int) ≤ inc := by
  obtain ⟨hangle, hfrom, hto⟩ := arcAngle_of_lt hinc (k.lt_succ_self.trans_eq hk)
  have hcover : ((e - s).natAbs : Int) ≤ arcCount s e inc * inc := (arcCount_bounds hinc (by omega)).2
  rw [← hk, Nat.cast_succ, add_one_mul] at hcover
  omega

/-- Settles O39: the number of segments is the least that covers the way, and the points lie whole increments from the
start, but for the last one. -/
theorem arcAngleSchedule : Obligations.ArcAngleSchedule := by
  intro s e inc hinc
  refine ⟨arcCount_eq_zero_iff hinc, ?_, fun hne => (arcCount_bounds hinc hne).1, arcAngle_zero hinc,
    arcAngle_last s e inc _, fun k hk => arcAngle_between hinc hk, fun k hk => arcAngle_step hinc hk,
    fun k hk => arcAngle_lastStep hinc hk⟩
  by_cases heq : s = e
  · simp [heq, arcCount_self]
  · exact (arcCount_bounds hinc heq).2

end Sys2Proof.Machine
end

