-- ==== Sys2Proof/Proofs/CircularArc.lean ====
section
/-! SUPPORT. The Accept of CIRCULAR_ARC (R106, R109): its errors in their order, the start of its first segment with
steps (R110), and the arc without steps. -/

namespace Sys2Proof.Machine

/-! The checks. -/

theorem segmentChecks_succ_ok {maxSpeed : Option Nat} {delta : Nat → Delta} {k : Nat} {v : Speeds}
    (h : planCheck maxSpeed (delta k) = .ok v) (n : Nat) :
    segmentChecks maxSpeed delta (n + 1) k = segmentChecks maxSpeed delta n (k + 1) := by
  rw [segmentChecks, h]

section
variable {m : Nat} (hm : 1 ≤ m) {delta : Nat → Delta} {n k : Nat}
include hm

/-- Where `n` segments from `k` on all pass their plans, so do their checks (R109). -/
theorem segmentChecks_passes (hpass : ∀ j, k ≤ j → j < k + n → planPasses m (delta j)) :
    segmentChecks (some m) delta n k = .ok () := by
  induction n generalizing k with
  | zero => rfl
  | succ n ih =>
    rw [segmentChecks_succ_ok (planCheck_passes hm (hpass k le_rfl (by omega)))]
    exact ih fun j hk hj => hpass j (by omega) (by omega)

/-- Where one of them does not, the checks report MINOR_SPEED_ZERO (R102, R109). -/
theorem segmentChecks_fails {j : Nat} (hk : k ≤ j) (hj : j < k + n) (hslow : ¬ planPasses m (delta j)) :
    segmentChecks (some m) delta n k = .error .minorSpeedZero := by
  induction n generalizing k with
  | zero => omega
  | succ n ih =>
    by_cases hfirst : planPasses m (delta k)
    · have hne : k ≠ j := fun h => hslow (h ▸ hfirst)
      rw [segmentChecks_succ_ok (planCheck_passes hm hfirst)]
      exact ih (by omega) (by omega)
    · rw [segmentChecks, planCheck_fails hfirst]

end

theorem exec_circularArc (r start stop inc : Int) (s : State) :
    exec (.circularArc r start stop inc) s = command (arcChecks s r start stop inc)
      (fun K t => if K = 0 then .ok t else arcSegment 1 { t with arc := arcStarted r start stop inc K }) s := rfl

theorem exec_circularArc_error {s : State} {r start stop inc : Int} {cause : Cause}
    (h : arcChecks s r start stop inc = .error cause) :
    exec (.circularArc r start stop inc) s = .next (raise cause s) := by
  rw [exec_circularArc]
  exact command_error h _ s

theorem exec_circularArc_ok {s : State} {r start stop inc : Int} {K : Nat}
    (h : arcChecks s r start stop inc = .ok K) :
    exec (.circularArc r start stop inc) s =
      toResult (if K = 0 then .ok (accepted s) else arcSegment 1 (arcAccepted r start stop inc K s)) := by
  rw [exec_circularArc]
  exact command_ok h _ s

section
variable {s : State} {m : Nat} (hmax : s.maxSpeed = some m) (hm : 1 ≤ m) {r start stop inc : Int} (hinc : 1 ≤ inc)
include hmax hm hinc

/-- A segment that does not pass its plan is the error of the arc (R102, R109). -/
theorem arcChecks_fails {k : Nat} (hk : 1 ≤ k) (hK : k ≤ arcCount start stop inc)
    (hslow : ¬ planPasses m (segDelta s.cfg r start stop inc (arcCount start stop inc) k)) :
    arcChecks s r start stop inc = .error .minorSpeedZero := by
  rw [arcChecks, if_neg (by simp [hmax]), if_neg (by omega), hmax]
  simp only [segmentChecks_fails hm hk (Nat.lt_one_add_iff.mpr hK) hslow]

/-- An arc whose segments all pass their plans passes its checks (R106, R109). -/
theorem arcChecks_passes (hpass : ∀ j, 1 ≤ j → j ≤ arcCount start stop inc →
      planPasses m (segDelta s.cfg r start stop inc (arcCount start stop inc) j)) :
    arcChecks s r start stop inc = .ok (arcCount start stop inc) := by
  rw [arcChecks, if_neg (by simp [hmax]), if_neg (by omega), hmax]
  simp only [segmentChecks_passes hm fun j hj hK => hpass j hj (Nat.lt_one_add_iff.mp hK)]

end

/-- Settles O40: each of the checks comes after those before it have passed. -/
theorem arcErrorsRule : Obligations.ArcErrorsRule := by
  refine ⟨fun n c hop => by simp [decodeCommand, hop], fun s r start stop inc =>
    ⟨fun hnone => ?_, fun hset hinc => ?_, fun m k hmax hm hinc hk hK hslow => ?_⟩⟩
  · exact exec_circularArc_error (cause := .maxSpeedUnset) (if_pos hnone)
  · exact exec_circularArc_error (cause := .arcIncNonpositive) (by rw [arcChecks, if_neg hset, if_pos hinc])
  · exact exec_circularArc_error (arcChecks_fails hmax hm hinc hk hK hslow)

/-! The segments of an arc. -/

/-- The end of a segment of an arc whose later segments pass their plans starts the first of them with steps (R91,
R110). -/
theorem complete_starts {s : State} {m j : Nat} (hstill : moving s = false) (hon : s.arc.active = true)
    (hmax : s.maxSpeed = some m) (hm : 1 ≤ m)
    (hpass : ∀ i, s.arc.k < i → i ≤ s.arc.kmax → planPasses m (arcDelta s i)) (hk : s.arc.k < j)
    (hj : j ≤ s.arc.kmax) (hne : arcDelta s j ≠ (0, 0)) (hempty : ∀ i, s.arc.k < i → i < j → arcDelta s i = (0, 0)) :
    complete s = .ok (atSegment j (withPlannedMove m (arcDelta s j) (applyPending s))) := by
  obtain ⟨t, ht⟩ := complete_ok (s := s) fun _ i hi hK => ⟨_, hmax ▸ planCheck_passes hm (hpass i hi hK)⟩
  rw [ht]
  rcases complete_next hstill ht with ⟨-, hlater⟩ | ⟨-, i, v, hki, -, hempty', hne', hplan, rfl⟩
  · exact absurd (hlater hon j hk hj) hne
  · obtain rfl := first_segment_unique hk hki hne hne' hempty hempty'
    rw [startSegment_eq (s := applyPending s) hm (hmax ▸ hplan)]
    rfl

/-- The end of a segment of an arc whose later segments are all empty finishes the arc (R91). -/
theorem complete_finishes {s : State} (hstill : moving s = false) {m : Nat} (hmax : s.maxSpeed = some m)
    (hempty : ∀ i, s.arc.k < i → i ≤ s.arc.kmax → arcDelta s i = (0, 0)) :
    complete s = .ok (finishMove (applyPending s)) := by
  obtain ⟨t, ht⟩ := complete_ok (s := s) fun _ i hi hK =>
    ⟨_, by rw [hmax, hempty i hi hK]; exact planCheck_zero_ok m⟩
  rw [ht]
  rcases complete_next hstill ht with ⟨rfl, -⟩ | ⟨-, j, v, hk, hj, -, hne, -⟩
  · rfl
  · exact absurd (hempty j hk hj) hne

/-- A first segment without steps ends in the Accept (R88, R110). -/
theorem arcSegment_empty {s : State} {m k : Nat} (hmax : s.maxSpeed = some m) (hempty : arcDelta s k = (0, 0)) :
    arcSegment k s = complete (loadPlan (0, 0) (none, none) s) := by
  have hplan : planCheck s.maxSpeed (arcDelta s k) = .ok (none, none) := by rw [hmax, hempty, planCheck_zero_ok]
  rw [arcSegment_eq hplan, hempty, launch_still (by rw [← Bool.not_eq_true, moving_loadPlan]; exact absurd rfl)]

/-- A first segment with steps that passes its plan starts in the Accept (R103, R110). -/
theorem arcSegment_starts {s : State} {m k : Nat} (hmax : s.maxSpeed = some m) (hm : 1 ≤ m)
    (hpass : planPasses m (arcDelta s k)) (hne : arcDelta s k ≠ (0, 0)) :
    arcSegment k s = .ok (withPlannedMove m (arcDelta s k) s) := by
  have hplan := planCheck_passes hm hpass
  rw [arcSegment_eq (hmax ▸ hplan), launch_loadPlan hm hplan hne]

/-- What the set-up of an empty segment leaves, the start of the next segment writes again (R88, R110). -/
theorem withPlannedMove_empty (m : Nat) (d : Delta) (s : State) :
    withPlannedMove m d (applyPending (loadPlan (0, 0) (none, none) s)) = withPlannedMove m d s := by
  rw [loadPlan_eq]
  simp only [withPlannedMove, applyPending, add_zero]
  rfl

theorem moving_empty (v : Speeds) (s : State) : moving (loadPlan (0, 0) v s) = false :=
  (moving_eq_false _).mpr ⟨by simp, by simp⟩

/-- An arc whose segments from the present one on are all empty finishes in the start of that segment (R88, R91). -/
theorem arcSegment_finishes {s : State} {m : Nat} (hmax : s.maxSpeed = some m) (hx : s.x.left = 0) (hy : s.y.left = 0)
    (hpx : s.pendX = 0) (hpy : s.pendY = 0) (hk : s.arc.k ≤ s.arc.kmax)
    (hempty : ∀ i, s.arc.k ≤ i → i ≤ s.arc.kmax → arcDelta s i = (0, 0)) :
    arcSegment s.arc.k s = .ok (finishMove s) := by
  have hfinish := complete_finishes (s := loadPlan (0, 0) (none, none) s) (moving_empty ..) hmax
    fun i hi hiK => hempty i (le_of_lt hi) hiK
  rw [arcSegment_empty hmax (hempty _ le_rfl hk), hfinish, loadPlan_zero_applied hx hy hpx hpy]

/-- Settles O41: the first segment starts where it has steps; else it completes at once, and its end starts the first
later segment that has. -/
theorem arcStartsItsFirstSegment : Obligations.ArcStartsItsFirstSegment := by
  intro s r start stop inc m k K D hmax hm hinc hpass hk hK hne hempty
  rw [exec_circularArc_ok (arcChecks_passes hmax hm hinc hpass), if_neg (by omega)]
  have hmax' : (arcAccepted r start stop inc K s).maxSpeed = some m := hmax
  rcases hk.eq_or_lt with rfl | hlt
  · rw [arcSegment_starts hmax' hm (hpass 1 le_rfl hK) hne]
    rfl
  · have hstart := complete_starts (s := loadPlan (0, 0) (none, none) (arcAccepted r start stop inc K s))
      (moving_empty ..) rfl hmax hm (fun i hi hiK => hpass i hi.le hiK) hlt hK hne fun i hi hik => hempty i hi.le hik
    rw [arcSegment_empty hmax' (hempty 1 le_rfl hlt), hstart, withPlannedMove_empty]
    rfl

/-- Settles O42: where there are segments, all are empty, so the first and the rest of them complete at once. -/
theorem emptyArcCompletes : Obligations.EmptyArcCompletes := by
  intro s r start stop inc m hinv hidle hmax hinc hzero
  obtain ⟨hm, -⟩ := hinv.maxSpeed m hmax
  obtain ⟨hx, hy, hoff, hpx, hpy⟩ := hinv.idle hidle
  generalize hcount : arcCount start stop inc = K at hzero
  have hempty : ∀ j, 1 ≤ j → j ≤ K → segDelta s.cfg r start stop inc K j = (0, 0) := by
    rcases hzero with rfl | rfl | hempty
    · rw [arcCount, if_pos rfl] at hcount
      omega
    · simp [segDelta]
    · exact hempty
  subst hcount
  rw [exec_circularArc_ok (arcChecks_passes hmax hm hinc fun j hj hK => hempty j hj hK ▸ planPasses_zero m)]
  split
  next => rfl
  next hK =>
    have hfinish : arcSegment 1 (arcAccepted r start stop inc (arcCount start stop inc) s) = .ok (accepted s) := by
      rw [← finishMove_of_idle (s := accepted s) (hinv.arcOff hoff) hidle]
      exact arcSegment_finishes (s := arcAccepted r start stop inc (arcCount start stop inc) s) hmax hx hy hpx hpy
        (Nat.one_le_iff_ne_zero.mpr hK) hempty
    rw [hfinish]
    rfl

end Sys2Proof.Machine
end

