-- ==== Sys2Proof/Proofs/PositionWrites.lean ====
section
/-! SUPPORT. READ_POS and the position ports (R28, R39, R111), and the steps that write the position (R112, R134,
R143). -/

namespace Sys2Proof.Machine

/-! READ_POS. -/

/-- A value that fits the port is what the port shows (R28, R39). -/
theorem toInt_posPort {s : State} {v : Int} (h : operandFits s.cfg.posBits v = true) : (posPort s v).toInt = v := by
  have hread := signed_operandPattern h
  rwa [signed, operandPattern, BitVec.ofNat_toNat, BitVec.setWidth_eq] at hread

theorem exec_readPos (s : State) :
    exec .readPos s = .next { s with resX := s.posX, resY := s.posY, err := 0, errCause := 0 } := rfl

/-- Settles O45: READ_POS has no check, and each port shows its register, which fits. -/
theorem readPosRule : Obligations.ReadPosRule := by
  refine ⟨fun n c hop => by simp [decodeCommand, hop], exec_readPos, fun s hfits => ?_⟩
  rw [positionsFit, Bool.and_eq_true] at hfits
  obtain ⟨hx, hy⟩ := hfits
  exact ⟨toInt_posPort hx, toInt_posPort hy, _, exec_readPos s, toInt_posPort hx, toInt_posPort hy⟩

/-! What an Accept leaves of the position. -/

/-- The position of `t` is that of `s`. -/
def SamePosition (s t : State) : Prop := t.posX = s.posX ∧ t.posY = s.posY

/-- The end of a segment without a pending change leaves the position: the empty segments after it have none either. -/
theorem complete_samePosition {s t : State} (hstill : moving s = false) (hpx : s.pendX = 0) (hpy : s.pendY = 0)
    (h : complete s = .ok t) : SamePosition s t := by
  rcases complete_next hstill h with ⟨rfl, -⟩ | ⟨-, j, v, -, -, -, -, -, rfl⟩
  · exact ⟨by simp [hpx], by simp [hpy]⟩
  · exact ⟨by simp [hpx], by simp [hpy]⟩

/-- A move that has a pending change only where it has steps leaves the position when it starts (R88). -/
theorem launch_samePosition {s t : State} (hpending : moving s = false → s.pendX = 0 ∧ s.pendY = 0)
    (h : launch s = .ok t) : SamePosition s t := by
  rcases launch_next h with ⟨-, rfl⟩ | ⟨hstill, hcomplete⟩
  · exact ⟨rfl, rfl⟩
  · obtain ⟨hpx, hpy⟩ := hpending hstill
    exact complete_samePosition hstill hpx hpy hcomplete

theorem launch_loadPlan_samePosition {d : Delta} {v : Speeds} {s t : State} (h : launch (loadPlan d v s) = .ok t) :
    SamePosition s t := by
  have hkept := launch_samePosition (fun hstill => ?_) h
  · simpa [SamePosition] using hkept
  · have hd : d = (0, 0) := by
      by_contra hne
      exact absurd ((moving_loadPlan d v s).mpr hne) (by simp [hstill])
    simp [hd]

theorem launch_setupRun_samePosition {i : Instr} {ys xs pdx pdy : Int} (hmove : OwnSpeedMove i ys xs pdx pdy)
    {s t : State} (h : launch (setupRun ys xs pdx pdy s) = .ok t) : SamePosition s t := by
  refine launch_samePosition (s := setupRun ys xs pdx pdy s) (fun hstill => ?_) h
  obtain ⟨hx, hy⟩ := (moving_eq_false _).mp hstill
  cases hmove with
  | moveX l => exact ⟨Int.natAbs_eq_zero.mp hx, rfl⟩
  | moveY l => exact ⟨rfl, Int.natAbs_eq_zero.mp hy⟩
  | runMove ys xs => exact ⟨rfl, rfl⟩

/-- No Accept writes the position (R112). -/
theorem exec_samePosition {i : Instr} {s t : State} (h : exec i s = .next t) : SamePosition s t := by
  have ho := exec_outcome i s
  rw [h] at ho
  generalize hr : Host.Outcome.next t = r at ho
  cases ho with
  | error | init | readPos | emptyArc => cases hr; exact ⟨rfl, rfl⟩
  | setSpeed => cases hr; exact ⟨by simp, by simp⟩
  | ownSpeed hmove => exact launch_setupRun_samePosition (s := accepted s) hmove ((toResult_next _ _).mp hr.symm)
  | straight => exact launch_loadPlan_samePosition (s := accepted s) ((toResult_next _ _).mp hr.symm)
  | arc => exact launch_loadPlan_samePosition (s := arcAccepted ..) ((toResult_next _ _).mp hr.symm)

/-! What a step leaves of the position. -/

/-- A Poll leaves the position, or it is one of a running move that leaves no steps (R89 to R91). -/
theorem step_poll_position {s u : State} {t : Nat} {rest : List Input} (hinv : s.Inv) (hin : s.inputs = .poll t :: rest)
    (hstep : step s = .next u) (hpoll : poll t { s with inputs := rest } = .ok u) :
    SamePosition s u ∨ (s.mode = .run ∧ (polled t s).x.left = 0 ∧ (polled t s).y.left = 0) := by
  rcases poll_next hpoll with ⟨-, rfl⟩ | ⟨hrun, -⟩
  · exact .inl ⟨rfl, rfl⟩
  · have hduty := step_next_duty hstep ((fetch_eq_none s).mpr (.inr (.inl hrun)))
    rcases Nat.eq_zero_or_pos ((polled t s).x.left + (polled t s).y.left) with hstill | hmoving
    · exact .inr ⟨hrun, by omega⟩
    · cases hstep.symm.trans (step_polled_moving hinv hrun hin hduty hmoving)
      exact .inl ⟨rfl, rfl⟩

/-- A step leaves the position, or it is a Reset, or a Poll of a running move that leaves no steps (R112, R134). -/
theorem step_position {s u : State} (hinv : s.Inv) (hstep : step s = .next u) :
    SamePosition s u ∨
    (fetch s = none ∧ u.posX = 0 ∧ u.posY = 0 ∧ ∃ rest, s.inputs = .reset :: rest) ∨
    ∃ t rest, s.inputs = .poll t :: rest ∧ s.mode = .run ∧ (polled t s).x.left = 0 ∧ (polled t s).y.left = 0 := by
  obtain ⟨-, ⟨c, -, -, -, haccept⟩ | ⟨hf, ⟨-, rfl⟩ | ⟨c, rest, -, rfl⟩ | ⟨rest, -, rfl⟩ | ⟨t, rest, hin, hpoll⟩ |
    ⟨rest, hin, rfl⟩⟩⟩ := step_next hstep
  · exact .inl (exec_samePosition (s := consume s) haccept)
  · exact .inl ⟨rfl, rfl⟩
  · exact .inl ⟨rfl, rfl⟩
  · exact .inl ⟨rfl, rfl⟩
  · exact (step_poll_position hinv hin hstep hpoll).imp_right fun h => .inr ⟨t, rest, hin, h⟩
  · exact .inr (.inl ⟨hf, rfl, rfl, rest, hin⟩)

/-- Settles O50: a position that changed is not in the case that keeps it. -/
theorem positionChangesOnlyAtCompletion : Obligations.PositionChangesOnlyAtCompletion :=
  fun _ _ hinv hstep hne => (step_position hinv hstep).resolve_left (not_and_or.mpr hne)

end Sys2Proof.Machine
end

