-- ==== Sys2Proof/Proofs/ErrorReports.lean ====
section
/-! SUPPORT. What an Accept reports (R116 to R120, R124 to R126): an error of the command's row, with everything else
left as it was, or success. -/

namespace Sys2Proof.Machine

/-- The causes in a command's row of the matrix of R120. -/
def causesOf : Instr → List Cause
  | .init _ => [.rpmNonpositive, .delayZero]
  | .setSpeed _ _ => [.rpmNonpositive, .delayZero, .badAxis]
  | .moveX _ | .moveY _ | .runMove _ _ => [.speedUnset]
  | .linearTo _ _ _ _ | .polarTo _ _ => [.maxSpeedUnset, .minorSpeedZero]
  | .circularArc _ _ _ _ => [.maxSpeedUnset, .minorSpeedZero, .arcIncNonpositive]
  | .readPos => []
  | .reserved0 | .reservedA | .reservedB | .reservedC | .reservedD | .reservedE | .reservedF => [.reservedOpcode]

/-- The codes a cause is reported by (R116 to R119). -/
def reportCodes (c : Cause) : ErrCode × CauseCode := (errCode (causeKind c), causeCode c)

/-- The reports of a command are the codes of its causes and, where its opcode is not reserved, success (R120). -/
theorem reportsOf_eq (i : Instr) :
    reportsOf i = (if isReserved i then [] else [(0, 0)]) ++ (causesOf i).map reportCodes := by
  cases i <;> rfl

/-! The causes of the checks. -/

theorem speedCheck_cause {cfg : Config} {a : Axis} {rpm : Int} {c : Cause} (h : speedCheck cfg a rpm = .error c) :
    c = .rpmNonpositive ∨ c = .delayZero := by
  unfold speedCheck at h
  split_ifs at h <;> cases h
  · exact .inl rfl
  · exact .inr rfl

theorem planCheck_cause {maxSpeed : Option Nat} {d : Delta} {c : Cause} (h : planCheck maxSpeed d = .error c) :
    c = .maxSpeedUnset ∨ c = .minorSpeedZero := by
  cases maxSpeed with
  | none => cases h; exact .inl rfl
  | some m => exact .inr (planCheck_error h)

theorem segmentChecks_cause {maxSpeed : Option Nat} {delta : Nat → Delta} {n k : Nat} {c : Cause}
    (h : segmentChecks maxSpeed delta n k = .error c) : c = .maxSpeedUnset ∨ c = .minorSpeedZero := by
  induction n generalizing k with
  | zero => cases h
  | succ n ih =>
    rw [segmentChecks] at h
    split at h
    next hplan => cases h; exact planCheck_cause hplan
    next => exact ih h

theorem initChecks_cause {s : State} {m : Int} {c : Cause} (h : initChecks s m = .error c) :
    c ∈ causesOf (.init m) := by
  suffices c = .rpmNonpositive ∨ c = .delayZero by simpa [causesOf] using this
  unfold initChecks at h
  split at h
  next hx => cases h; exact speedCheck_cause hx
  next =>
    split at h
    next hy => cases h; exact speedCheck_cause hy
    next => cases h

theorem setSpeedChecks_cause {s : State} {sel rpm : Int} {c : Cause} (h : setSpeedChecks s sel rpm = .error c) :
    c ∈ causesOf (.setSpeed sel rpm) := by
  unfold setSpeedChecks at h
  split at h
  next => cases h; simp [causesOf]
  next =>
    split at h
    next hspeed => cases h; rcases speedCheck_cause hspeed with rfl | rfl <;> simp [causesOf]
    next => cases h

theorem arcChecks_cause {s : State} {r start stop inc : Int} {c : Cause}
    (h : arcChecks s r start stop inc = .error c) : c ∈ causesOf (.circularArc r start stop inc) := by
  unfold arcChecks at h
  split_ifs at h
  · cases h; simp [causesOf]
  · cases h; simp [causesOf]
  · dsimp only at h
    split at h
    next hsegments => cases h; rcases segmentChecks_cause hsegments with rfl | rfl <;> simp [causesOf]
    next => cases h

/-! The report of an Accept. -/

/-- The report of `u` is success. -/
def ReportsSuccess (u : State) : Prop := u.err = 0 ∧ u.errCause = 0

theorem MoveFrame.reportsSuccess {s u : State} (h : MoveFrame (accepted s) u) : ReportsSuccess u :=
  ⟨h.err, h.errCause⟩

/-- The Accept of `i` took `s` to `u` with a report of the row of `i`: an error of the row leaves all but the report,
and only a command that is not reserved succeeds (R120, R126). -/
def ReportsItsRow (i : Instr) (s u : State) : Prop :=
  (∃ c ∈ causesOf i, u = raise c s) ∨ (isReserved i = false ∧ ReportsSuccess u)

/-- A command reports within its row where its checks fail within the row and its effect leaves the success report. -/
theorem command_reportsItsRow {i : Instr} {α : Type} {checks : Except Cause α}
    {effect : α → State → Except Fault State} {s u : State} (hlive : isReserved i = false)
    (hcauses : ∀ c, checks = .error c → c ∈ causesOf i)
    (heffect : ∀ v, effect v (accepted s) = .ok u → ReportsSuccess u) (h : command checks effect s = .next u) :
    ReportsItsRow i s u := by
  rcases (command_next _ _ _ _).mp h with ⟨c, herror, rfl⟩ | ⟨v, -, heff⟩
  · exact .inl ⟨c, hcauses c herror, rfl⟩
  · exact .inr ⟨hlive, heffect v heff⟩

theorem exec_ownSpeed_reportsItsRow {i : Instr} {ys xs pdx pdy : Int} (hmove : OwnSpeedMove i ys xs pdx pdy)
    {s u : State} (h : exec i s = .next u) : ReportsItsRow i s u := by
  rw [exec_ownSpeed hmove] at h
  refine command_reportsItsRow (by cases hmove <;> rfl) (fun c hc => ?_) (fun _ heff => ?_) h
  · rw [runCheck_error hc]
    cases hmove <;> exact List.mem_singleton_self _
  · exact ((setupRun_frame ..).comp (launch_frame heff)).reportsSuccess

theorem straightMove_reportsItsRow {i : Instr} {d : Delta} {s u : State} (hdelta : StraightDelta s.cfg i d)
    (h : straightMove d s = .next u) : ReportsItsRow i s u := by
  refine command_reportsItsRow (by cases hdelta <;> rfl) (fun c hc => ?_) (fun _ heff => ?_) h
  · cases hdelta <;> simpa [causesOf] using planCheck_cause hc
  · exact ((loadPlan_frame ..).comp (launch_frame heff)).reportsSuccess

/-- Every Accept reports within the row of its command (R120, R123 to R126). -/
theorem exec_reportsItsRow {i : Instr} {s u : State} (h : exec i s = .next u) : ReportsItsRow i s u := by
  cases i with
  | init m =>
    rw [exec_init] at h
    refine command_reportsItsRow rfl (fun _ => initChecks_cause) (fun d heff => ?_) h
    cases heff
    exact ⟨rfl, rfl⟩
  | setSpeed sel rpm =>
    rw [exec_setSpeed] at h
    refine command_reportsItsRow rfl (fun _ => setSpeedChecks_cause) (fun v heff => ?_) h
    cases heff
    exact ⟨setDelay_err .., setDelay_errCause ..⟩
  | readPos =>
    rw [exec_readPos] at h
    cases h
    exact .inr ⟨rfl, rfl, rfl⟩
  | circularArc r start stop inc =>
    rw [exec_circularArc] at h
    refine command_reportsItsRow rfl (fun _ => arcChecks_cause) (fun K heff => ?_) h
    split at heff
    · cases heff
      exact ⟨rfl, rfl⟩
    · obtain ⟨-, -, -, hwriteArc⟩ := complete_frame_parts (accepted s)
      exact ((hwriteArc _).comp (arcSegment_frame heff)).reportsSuccess
  | moveX l => exact exec_ownSpeed_reportsItsRow (.moveX l) h
  | moveY l => exact exec_ownSpeed_reportsItsRow (.moveY l) h
  | runMove ys xs => exact exec_ownSpeed_reportsItsRow (.runMove ys xs) h
  | linearTo x1 y1 x2 y2 => exact straightMove_reportsItsRow (.linearTo x1 y1 x2 y2) h
  | polarTo r theta => exact straightMove_reportsItsRow (.polarTo r theta) h
  | reserved0 | reservedA | reservedB | reservedC | reservedD | reservedE | reservedF =>
    cases h
    exact .inl ⟨.reservedOpcode, List.mem_singleton_self _, rfl⟩

/-- Settles O47: an Accept that does not report success is the report of a cause and nothing else. -/
theorem errorsArePrecise : Obligations.ErrorsArePrecise := by
  intro i s u h herr
  rcases exec_reportsItsRow h with ⟨c, -, rfl⟩ | ⟨-, hnone, -⟩
  · rfl
  · exact absurd hnone herr

/-- Settles O48: the causes and the success of a row have the codes the row lists. -/
theorem errorMatrix : Obligations.ErrorMatrix := by
  intro i s u h
  rw [reportsOf_eq, List.mem_append]
  rcases exec_reportsItsRow h with ⟨c, hrow, rfl⟩ | ⟨hlive, herr, hcause⟩
  · exact .inr (List.mem_map_of_mem hrow)
  · exact .inl (by simp [hlive, herr, hcause])

end Sys2Proof.Machine
end

