-- ==== Sys2Proof/Proofs/ClockDuty.lean ====
section
/-! SUPPORT. The clock duty (R139, R140): a Poll answers ClockNotMonotonic exactly where the duty is broken, and
otherwise what it leaves has seen the clock value. -/

namespace Sys2Proof.Machine

/-! The faults of a scheduler pass. -/

theorem probeAxis_error {a : Axis} {now : Nat} {s : State} {f : Fault} (h : probeAxis a now s = .error f) :
    f = .stepDelayUnset := by
  unfold probeAxis tryAdvance at h
  split_ifs at h
  cases hdelay : (s.axis a).stepDelay with
  | none =>
    simp only [hdelay] at h
    cases h
    rfl
  | some d =>
    simp only [hdelay] at h
    split_ifs at h

theorem loadArcSegment_error {k : Nat} {s : State} {f : Fault} (h : loadArcSegment k s = .error f) :
    f = .arcSegmentUnplanned := by
  unfold loadArcSegment at h
  split at h
  next => cases h; rfl
  next => cases h

theorem nextSegments_error {n : Nat} {s : State} {f : Fault} (h : nextSegments n s = .error f) :
    f = .arcSegmentUnplanned := by
  induction n generalizing s with
  | zero => cases h
  | succ n ih =>
    cases hload : loadArcSegment (s.arc.k + 1) (atSegment (s.arc.k + 1) s) with
    | error g =>
      rw [nextSegments_succ_error hload] at h
      cases h
      exact loadArcSegment_error hload
    | ok t =>
      rw [nextSegments_succ_ok hload] at h
      split_ifs at h
      exact ih h

theorem complete_error {s : State} {f : Fault} (h : complete s = .error f) : f = .arcSegmentUnplanned := by
  cases hactive : s.arc.active with
  | false =>
    rw [complete_inactive hactive] at h
    cases h
  | true =>
    rw [complete_active hactive] at h
    exact nextSegments_error h

/-- A scheduler pass has two faults, and the clock's is none of them: it compares no clock values (R78, R89, R110). -/
theorem schedulerPass_error {now : Nat} {s : State} {f : Fault} (h : schedulerPass now s = .error f) :
    f = .stepDelayUnset ∨ f = .arcSegmentUnplanned := by
  unfold schedulerPass at h
  split at h
  next hy => cases h; exact .inl (probeAxis_error hy)
  next sy _ =>
    split at h
    next hx => cases h; exact .inl (probeAxis_error hx)
    next sx _ =>
      split_ifs at h
      exact .inr (complete_error h)

/-- A Poll answers the clock fault exactly where its value is lower than one seen (R140). -/
theorem poll_clockNotMonotonic_iff (t : Nat) (s : State) :
    poll t s = .error .clockNotMonotonic ↔ clockBroken s.clockSeen t = true := by
  refine ⟨fun h => ?_, poll_broken⟩
  by_contra hkept
  have hclock : clockBroken s.clockSeen t = false := by simpa using hkept
  cases hm : s.mode with
  | idle =>
    rw [poll_idle hclock hm] at h
    cases h
  | run =>
    rw [poll_of_run hm hclock] at h
    rcases schedulerPass_error h with hf | hf <;> cases hf

/-! The clock value seen. -/

theorem probeAxis_clockSeen {a : Axis} {now : Nat} {s t : State} (h : probeAxis a now s = .ok t) :
    t.clockSeen = s.clockSeen := by
  rcases probeAxis_next h with rfl | ⟨r, e, rfl⟩
  · rfl
  · simp

/-- A Poll that answers leaves its clock value as the one seen: nothing after the duty's check writes it (R140). -/
theorem poll_clockSeen {t : Nat} {s u : State} (h : poll t s = .ok u) : u.clockSeen = some t := by
  rcases poll_next h with ⟨-, rfl⟩ | ⟨-, hpass⟩
  · rfl
  · obtain ⟨sy, sx, hy, hx, hend⟩ := schedulerPass_next hpass
    have hprobed : sx.clockSeen = some t := (probeAxis_clockSeen hx).trans (probeAxis_clockSeen hy)
    rcases hend with rfl | hcomplete
    · exact hprobed
    · exact (complete_frame hcomplete).clockSeen.trans hprobed

theorem toResult_fault (r : Except Fault State) (f : Fault) : toResult r = .fault f ↔ r = .error f := by
  cases r <;> simp [toResult]

/-- Settles O23: the step is the Poll, which faults exactly where the duty is broken and else records its value. -/
theorem clockDutyChecked : Obligations.ClockDutyChecked := by
  intro s t rest hlegal hfree hin
  have hstep := step_poll hlegal hfree hin
  have hfault : step s = .fault .clockNotMonotonic ↔ clockBroken s.clockSeen t = true := by
    rw [hstep, toResult_fault, poll_clockNotMonotonic_iff]
  refine ⟨fun c hseen hlt => hfault.mpr (by simpa [clockBroken, hseen] using hlt), fun hduty => ⟨?_, fun u hu => ?_⟩⟩
  · rw [Ne, hfault, (clockBroken_eq_false _ _).mpr hduty]
    exact Bool.false_ne_true
  · exact poll_clockSeen ((toResult_next _ _).mp (hstep.symm.trans hu))

end Sys2Proof.Machine
end

