-- ==== Sys2Proof/Proofs/DelayWrites.lean ====
section
/-! SUPPORT. The steps that write a delay (R134, R142): the Accept of a command that sets a speed, a Poll of a running
arc, and Reset. -/

namespace Sys2Proof.Machine

/-- The delays of both axes in `t` are those in `s`. -/
def SameDelays (s t : State) : Prop := ∀ a, (t.axis a).stepDelay = (s.axis a).stepDelay

theorem SameDelays.of_axes {s t : State} (hx : t.x = s.x) (hy : t.y = s.y) : SameDelays s t :=
  forall_axis (congrArg AxisRegs.stepDelay hx) (congrArg AxisRegs.stepDelay hy)

theorem SameDelays.trans {s t u : State} (h : SameDelays s t) (g : SameDelays t u) : SameDelays s u :=
  fun a => (g a).trans (h a)

theorem setupRun_sameDelays (ys xs pdx pdy : Int) (s : State) : SameDelays s (setupRun ys xs pdx pdy s) :=
  forall_axis rfl rfl

theorem polled_sameDelays (t : Nat) (s : State) : SameDelays s (polled t s) := fun a => by
  rw [polled_axis, polledAxis_stepDelay]

/-- Where no arc runs, the end of a segment writes no delay: there is no later segment to plan (R91). -/
theorem complete_sameDelays {s t : State} (hoff : s.arc.active = false) (h : complete s = .ok t) : SameDelays s t := by
  rw [complete_inactive hoff] at h
  cases h
  exact .of_axes rfl rfl

/-! What an Accept leaves of the delays. -/

theorem launch_sameDelays {s t : State} (hoff : s.arc.active = false) (h : launch s = .ok t) : SameDelays s t := by
  rcases launch_next h with ⟨-, rfl⟩ | ⟨-, hcomplete⟩
  · exact .of_axes rfl rfl
  · exact complete_sameDelays hoff hcomplete

/-- A command that is none of SET_SPEED, INIT and the planned moves leaves the delays (R142). -/
theorem exec_sameDelays {i : Instr} {s t : State} (hoff : s.arc.active = false) (hi : writesSpeed i = false)
    (h : exec i s = .next t) : SameDelays s t := by
  have ho := exec_outcome i s
  rw [h] at ho
  generalize hr : Host.Outcome.next t = r at ho
  cases ho with
  | error | readPos => cases hr; exact .of_axes rfl rfl
  | init | setSpeed | emptyArc | arc => cases hi
  | straight hdelta => cases hdelta <;> cases hi
  | ownSpeed =>
    have haccepted : SameDelays s (accepted s) := .of_axes rfl rfl
    have hlaunch := (toResult_next _ _).mp hr.symm
    exact (haccepted.trans (setupRun_sameDelays _ _ _ _ _)).trans (launch_sameDelays hoff hlaunch)

/-! What a step leaves of the delays. -/

/-- A Poll leaves the delays, or it is one of a running arc (R90, R91, R110). -/
theorem step_poll_delays {s u : State} {t : Nat} {rest : List Input} (hinv : s.Inv) (hin : s.inputs = .poll t :: rest)
    (hstep : step s = .next u) (hpoll : poll t { s with inputs := rest } = .ok u) :
    SameDelays s u ∨ (s.mode = .run ∧ s.arc.active = true) := by
  rcases poll_next hpoll with ⟨-, rfl⟩ | ⟨hrun, -⟩
  · exact .inl (.of_axes rfl rfl)
  · cases hactive : s.arc.active with
    | true => exact .inr ⟨hrun, rfl⟩
    | false =>
      have hduty := step_next_duty hstep ((fetch_eq_none s).mpr (.inr (.inl hrun)))
      have hprobed : SameDelays s { polled t s with inputs := rest } :=
        forall_axis (polled_sameDelays t s .x) (polled_sameDelays t s .y)
      rw [step_polled hinv hrun hin hduty, toResult_next] at hstep
      split at hstep
      next => cases hstep; exact .inl hprobed
      next => exact .inl (hprobed.trans (complete_sameDelays hactive hstep))

/-- A step leaves the delays, or it accepts a command that sets a speed, or it is a Poll of a running arc or a Reset
(R134, R142). -/
theorem step_delays {s u : State} (hinv : s.Inv) (hstep : step s = .next u) :
    SameDelays s u ∨
    (∃ i, fetch s = some i ∧ writesSpeed i = true) ∨
    (∃ t rest, s.inputs = .poll t :: rest ∧ s.mode = .run ∧ s.arc.active = true) ∨
    (fetch s = none ∧ (∀ a, (u.axis a).stepDelay = none) ∧ ∃ rest, s.inputs = .reset :: rest) := by
  obtain ⟨-, ⟨c, hidle, hport, hreset, haccept⟩ | ⟨hf, ⟨-, rfl⟩ | ⟨c, rest, -, rfl⟩ | ⟨rest, -, rfl⟩ |
    ⟨t, rest, hin, hpoll⟩ | ⟨rest, hin, rfl⟩⟩⟩ := step_next hstep
  · obtain ⟨-, -, hoff, -, -⟩ := hinv.idle hidle
    cases hi : writesSpeed (decodeCommand s.cfg.operandBits c) with
    | true => exact .inr (.inl ⟨_, (fetch_eq_some s _).mpr ⟨hreset, hidle, c, hport, rfl⟩, hi⟩)
    | false =>
      have hconsumed : SameDelays s (consume s) := .of_axes rfl rfl
      exact .inl (hconsumed.trans (exec_sameDelays hoff hi haccept))
  · exact .inl (.of_axes rfl rfl)
  · exact .inl (.of_axes rfl rfl)
  · exact .inl (.of_axes rfl rfl)
  · exact (step_poll_delays hinv hin hstep hpoll).imp_right fun h => .inr (.inl ⟨t, rest, hin, h⟩)
  · exact .inr (.inr (.inr ⟨hf, forall_axis rfl rfl, rest, hin⟩))

/-- Settles O52: a delay that changed is not in the case that keeps both. -/
theorem speedsPersist : Obligations.SpeedsPersist := by
  intro s u a hinv hstep hne
  rcases step_delays hinv hstep with hsame | haccept | hpoll | ⟨hf, hnone, hreset⟩
  · exact absurd (hsame a) hne
  · exact .inl haccept
  · exact .inr (.inl hpoll)
  · exact .inr (.inr ⟨hf, hnone a, hreset⟩)

end Sys2Proof.Machine
end
